-- ==== Sys2Proof/Word.lean ====
section
/-! DEFINITION. The word types of the block: what the spec treats as bits. -/

namespace Sys2Proof

/-- One byte, the unit in which BUF is kept and in which a byte-wide channel carries words (R44). -/
abbrev Byte := BitVec 8

/-- A 32-bit pattern read as an IEEE 754 binary32 number (R8, R110). -/
abbrev F32 := BitVec 32

/-- One 64-bit command word (R60). -/
abbrev CmdWord := BitVec 64

end Sys2Proof
end

