-- ==== Sys2Proof/Syntax.lean ====
section
/-! DEFINITION. The nine commands of BQC-1 (R63), one constructor per row of the opcode table. -/

namespace Sys2Proof

/-- A command with the operands it uses. Integer operands are unsigned (R62) and are written as naturals;
`Instr.wellFormed` says that each fits its field (log 20). A field that must be zero (R63) is no operand. -/
inductive Instr where
  /-- PREP maxblk, fs (R80): `b` = maximum block size, `imm` = sample rate. -/
  | prep (maxblk : Nat) (fs : F32)
  /-- REL (R82). -/
  | rel
  /-- RST (R84). -/
  | rst
  /-- LDC s, k, value (R90): `a` = section, `b` = coefficient index, `imm` = coefficient. -/
  | ldc (sec k : Nat) (value : F32)
  /-- CMT (R92). -/
  | cmt
  /-- PROC nch, m (R100): `a` = channel count N, `b` = sample count M. -/
  | proc (nch m : Nat)
  /-- WRB c, n, value (R130): `a` = channel, `b` = sample index, `imm` = word. -/
  | wrb (c n : Nat) (value : F32)
  /-- RDB c, n (R132): `a` = channel, `b` = sample index. -/
  | rdb (c n : Nat)
  /-- RDS idx (R134): `b` = status index. -/
  | rds (idx : Nat)
deriving DecidableEq, Repr

end Sys2Proof
end

