-- ==== Sys2Proof/WellFormed.lean ====
section
/-! DEFINITION. When a command is one the 64-bit format C can carry (R61): every operand fits its field. -/

namespace Sys2Proof

/-- Fits field `a`, 8 bits (R61). -/
def fitsA (v : Nat) : Bool := decide (v < 2 ^ 8)

/-- Fits field `b`, 16 bits (R61). -/
def fitsB (v : Nat) : Bool := decide (v < 2 ^ 16)

/-- Every operand fits the field that carries it (R61, R63). An operand outside its LEGAL range is well-formed: the
command then fails with E_RANGE (R64). -/
def Instr.wellFormed : Instr → Bool
  | .prep maxblk _ => fitsB maxblk
  | .rel => true
  | .rst => true
  | .ldc sec k _ => fitsA sec && fitsB k
  | .cmt => true
  | .proc nch m => fitsA nch && fitsB m
  | .wrb c n _ => fitsA c && fitsB n
  | .rdb c n => fitsA c && fitsB n
  | .rds idx => fitsB idx

end Sys2Proof
end

