-- ==== Sys2Proof/Decode.lean ====
section
/-! DEFINITION. The decoder (R61 to R65), total on every word and every list of bytes, the encoder (R67), and the
opcode table's rows. -/

namespace Sys2Proof

/-- Field `op` = w[63:56] (R61). -/
def fieldOp (w : CmdWord) : BitVec 8 := w.extractLsb' 56 8

/-- Field `a` = w[55:48] (R61). -/
def fieldA (w : CmdWord) : BitVec 8 := w.extractLsb' 48 8

/-- Field `b` = w[47:32] (R61). -/
def fieldB (w : CmdWord) : BitVec 16 := w.extractLsb' 32 16

/-- Field `imm` = w[31:0] (R61). -/
def fieldImm (w : CmdWord) : BitVec 32 := w.extractLsb' 0 32

/-- Why a word is no command. -/
inductive DecodeError where
  /-- `op` is none of the nine values (R64 (a)). -/
  | unknownOpcode (op : BitVec 8)
  /-- A field that must be zero for this `op` is not (R64 (b)). -/
  | fieldNotZero (op : BitVec 8)
  /-- Fewer than eight bytes are left on a byte-wide channel (R61: a decoder always consumes 64 bits). -/
  | truncated
deriving DecidableEq, Repr

/-- The word's command, or E_OPC's reason (R65): look `op` up, then check the row's must-be-zero fields. -/
def decode (w : CmdWord) : Except DecodeError Instr :=
  let op := fieldOp w
  let a := fieldA w
  let b := fieldB w
  let imm := fieldImm w
  let checked (mbz : Bool) (i : Instr) : Except DecodeError Instr :=
    if mbz then .ok i else .error (.fieldNotZero op)
  if op = 0x01#8 then checked (a == 0#8) (.prep b.toNat imm)
  else if op = 0x02#8 then checked (a == 0#8 && b == 0#16 && imm == 0#32) .rel
  else if op = 0x03#8 then checked (a == 0#8 && b == 0#16 && imm == 0#32) .rst
  else if op = 0x10#8 then .ok (.ldc a.toNat b.toNat imm)
  else if op = 0x11#8 then checked (a == 0#8 && b == 0#16 && imm == 0#32) .cmt
  else if op = 0x20#8 then checked (imm == 0#32) (.proc a.toNat b.toNat)
  else if op = 0x30#8 then .ok (.wrb a.toNat b.toNat imm)
  else if op = 0x31#8 then checked (imm == 0#32) (.rdb a.toNat b.toNat)
  else if op = 0x40#8 then checked (a == 0#8 && imm == 0#32) (.rds b.toNat)
  else .error (.unknownOpcode op)

/-- Eight bytes of a byte-wide channel as one command word: the byte holding bits [7:0] goes first (R44). -/
def wordOfBytes (b0 b1 b2 b3 b4 b5 b6 b7 : Byte) : CmdWord :=
  b7 ++ b6 ++ b5 ++ b4 ++ b3 ++ b2 ++ b1 ++ b0

/-- The bytes of a command word in the order a byte-wide channel carries them (R44). -/
def bytesOfWord (w : CmdWord) : List Byte :=
  [w.extractLsb' 0 8, w.extractLsb' 8 8, w.extractLsb' 16 8, w.extractLsb' 24 8,
   w.extractLsb' 32 8, w.extractLsb' 40 8, w.extractLsb' 48 8, w.extractLsb' 56 8]

/-- The decoder over a byte-wide channel (R44): it takes exactly eight bytes and leaves the rest (R61). -/
def decodeBytes : List Byte → Except DecodeError (Instr × List Byte)
  | b0 :: b1 :: b2 :: b3 :: b4 :: b5 :: b6 :: b7 :: rest =>
    match decode (wordOfBytes b0 b1 b2 b3 b4 b5 b6 b7) with
    | .ok i => .ok (i, rest)
    | .error e => .error e
  | _ => .error .truncated

/-- `{op, a, b, imm}` (R61, R67's formula). -/
def packFields (op a : BitVec 8) (b : BitVec 16) (imm : BitVec 32) : CmdWord :=
  op ++ a ++ b ++ imm

/-- The `op` value of R63. -/
def opcodeOf : Instr → BitVec 8
  | .prep _ _ => 0x01#8
  | .rel => 0x02#8
  | .rst => 0x03#8
  | .ldc _ _ _ => 0x10#8
  | .cmt => 0x11#8
  | .proc _ _ => 0x20#8
  | .wrb _ _ _ => 0x30#8
  | .rdb _ _ => 0x31#8
  | .rds _ => 0x40#8

/-- The mnemonic of R63. -/
def mnemonicOf : Instr → String
  | .prep _ _ => "PREP"
  | .rel => "REL"
  | .rst => "RST"
  | .ldc _ _ _ => "LDC"
  | .cmt => "CMT"
  | .proc _ _ => "PROC"
  | .wrb _ _ _ => "WRB"
  | .rdb _ _ => "RDB"
  | .rds _ => "RDS"

/-- The command's word (R63, R67): unused fields are zero. -/
def encode : Instr → CmdWord
  | .prep maxblk fs => packFields 0x01#8 0#8 (BitVec.ofNat 16 maxblk) fs
  | .rel => packFields 0x02#8 0#8 0#16 0#32
  | .rst => packFields 0x03#8 0#8 0#16 0#32
  | .ldc sec k value => packFields 0x10#8 (BitVec.ofNat 8 sec) (BitVec.ofNat 16 k) value
  | .cmt => packFields 0x11#8 0#8 0#16 0#32
  | .proc nch m => packFields 0x20#8 (BitVec.ofNat 8 nch) (BitVec.ofNat 16 m) 0#32
  | .wrb c n value => packFields 0x30#8 (BitVec.ofNat 8 c) (BitVec.ofNat 16 n) value
  | .rdb c n => packFields 0x31#8 (BitVec.ofNat 8 c) (BitVec.ofNat 16 n) 0#32
  | .rds idx => packFields 0x40#8 0#8 (BitVec.ofNat 16 idx) 0#32

/-- One row of the opcode table: a word is the row's command exactly when `word AND mask = match` (R65). -/
structure OpRow where
  mnemonic : String
  pattern : CmdWord
  mask : CmdWord
deriving DecidableEq, Repr

/-- The nine rows of opcode_table.json. -/
def opcodeTable : List OpRow :=
  [⟨"PREP", 0x0100000000000000#64, 0xFFFF000000000000#64⟩,
   ⟨"REL",  0x0200000000000000#64, 0xFFFFFFFFFFFFFFFF#64⟩,
   ⟨"RST",  0x0300000000000000#64, 0xFFFFFFFFFFFFFFFF#64⟩,
   ⟨"LDC",  0x1000000000000000#64, 0xFF00000000000000#64⟩,
   ⟨"CMT",  0x1100000000000000#64, 0xFFFFFFFFFFFFFFFF#64⟩,
   ⟨"PROC", 0x2000000000000000#64, 0xFF000000FFFFFFFF#64⟩,
   ⟨"WRB",  0x3000000000000000#64, 0xFF00000000000000#64⟩,
   ⟨"RDB",  0x3100000000000000#64, 0xFF000000FFFFFFFF#64⟩,
   ⟨"RDS",  0x4000000000000000#64, 0xFFFF0000FFFFFFFF#64⟩]

/-- The row's test of R65. -/
def OpRow.matchesWord (r : OpRow) (w : CmdWord) : Bool := (w &&& r.mask) == r.pattern

/-- A table word as the block gets it: its low `nbits` bits, the bits above them zero, 64 bits in all (log 19). -/
def tableWord (nbits w : Nat) : CmdWord := BitVec.ofNat 64 (w % 2 ^ nbits)

/-- The decoder's answer on a word numbered as opcode_table.json numbers it: the word is laid out as the bytes of
R44 and the bytes are decoded. -/
def decodeTableWord (nbits w : Nat) : Option Instr :=
  match decodeBytes (bytesOfWord (tableWord nbits w)) with
  | .ok (i, _) => some i
  | .error _ => none

end Sys2Proof
end

