-- ==== Sys2Proof/Config.lean ====
section
/-! DEFINITION. What is fixed when the block is built (R6), and the values the spec leaves free
(93_implementation_defined.md U1, U2, U3): constants without a body, of which nothing can be proved. -/

namespace Sys2Proof

/-- The build parameters of R6, each inside its legal range. They are not state of the block (R10): no step
changes them. -/
structure Params where
  /-- NSEC, the number of sections. -/
  nsec : Nat
  /-- NCH, the number of channels the block has state for. -/
  nch : Nat
  /-- MAXCAP, the number of sample words BUF holds per channel. -/
  maxcap : Nat
  nsec_legal : 3 ≤ nsec ∧ nsec ≤ 5
  nch_legal : 1 ≤ nch ∧ nch ≤ 255
  maxcap_legal : 1 ≤ maxcap ∧ maxcap ≤ 65535
deriving DecidableEq, Repr

/-- The reference configuration of R6: the value a model uses when none is given. -/
def Params.reference : Params where
  nsec := 4
  nch := 2
  maxcap := 4096
  nsec_legal := by decide
  nch_legal := by decide
  maxcap_legal := by decide

/-- FREE VALUE (U1, R115; log 6): the sign (bit 22) and the payload (bits 21 to 0) of the NaN of draw `d`. -/
opaque Config.nanBits (d : Nat) : BitVec 23

/-- FREE VALUE (U2, R25 "unspec"; log 3): what a coefficient or delay word holds when PREP or REL has taken its
value away, for draw `d`. -/
opaque Config.freeWord (d : Nat) : F32

/-- FREE VALUE (U3, R171; log 4): what the byte of BUF at cell address `a` holds after the `era`-th hardware reset
until it is first written. -/
opaque Config.unwrittenByte (era a : Nat) : Byte

end Sys2Proof
end

