-- ==== Sys2Proof/Machine/Arith.lean ====
section
/-! DEFINITION. Binary32 (R110) and the three operations on samples (R111 to R115). Finite numbers are handled as
whole multiples of 2^-149, so every sum and product is exact before its one rounding. -/

namespace Sys2Proof.Machine

/-- The sign bit S (R110). -/
def signBit (a : F32) : Bool := a.getLsbD 31

/-- The biased exponent E (R110). -/
def expField (a : F32) : Nat := (a.extractLsb' 23 8).toNat

/-- The fraction F (R110). -/
def fracField (a : F32) : Nat := (a.extractLsb' 0 23).toNat

/-- E = 255, F ≠ 0 (R110). -/
def isNaN (a : F32) : Bool := expField a == 255 && fracField a != 0

/-- A NaN with bit 22 set (R110). -/
def isQuietNaN (a : F32) : Bool := isNaN a && a.getLsbD 22

/-- E = 255, F = 0 (R110). -/
def isInf (a : F32) : Bool := expField a == 255 && fracField a == 0

/-- E = 0, F = 0 (R110). -/
def isZero (a : F32) : Bool := expField a == 0 && fracField a == 0

/-- Neither an infinity nor a NaN. -/
def isFinite (a : F32) : Bool := expField a != 255

/-- The magnitude of a finite number in units of 2^-149 (R110): F for E = 0, (2^23 + F) × 2^(E-1) otherwise. -/
def magnitude (a : F32) : Nat :=
  if expField a = 0 then fracField a else (2 ^ 23 + fracField a) * 2 ^ (expField a - 1)

/-- The value of a finite number in units of 2^-149 (R110). -/
def scaledValue (a : F32) : Int := if signBit a then -(magnitude a : Int) else (magnitude a : Int)

/-- The 31 low bits of +∞. -/
def infBits : Nat := 0x7F800000

/-- Round to nearest, ties to even (R114), of the positive magnitude num / den in units of 2^-149, as the 31 bits
below the sign. `e` counts the places dropped beyond 24 significant ones; `e * 2^23 + n` is then the bit pattern for
normal and subnormal results alike, a carry out of the fraction moves into the exponent, and whatever reaches the
exponent 255 is an infinity. -/
def roundBits (num den : Nat) : Nat :=
  let e := (num / den).log2 - 23
  let unit := den * 2 ^ e
  let n := num / unit
  let r := num % unit
  let up := if unit < 2 * r ∨ (unit = 2 * r ∧ n % 2 = 1) then 1 else 0
  min (e * 2 ^ 23 + n + up) infBits

/-- A sign over 31 bits. -/
def withSign (neg : Bool) (bits : Nat) : F32 :=
  BitVec.ofNat 32 ((if neg then 2 ^ 31 else 0) + bits)

/-- The quiet NaN with the given sign (bit 22 of `p`) and payload (R115). -/
def quietNaN (p : BitVec 23) : F32 := p.extractLsb' 22 1 ++ 0x1FF#9 ++ p.extractLsb' 0 22

/-- The NaN of draw `d`: some quiet NaN, no more is known (R115, U1). -/
def freshNaN (d : Nat) : F32 := quietNaN (Config.nanBits d)

/-- fmul (R111). `nan` is the NaN this occurrence yields if its result is one. -/
def fmul (nan a b : F32) : F32 :=
  let neg := signBit a ^^ signBit b
  if isNaN a || isNaN b || (isZero a && isInf b) || (isInf a && isZero b) then nan
  else if isInf a || isInf b then withSign neg infBits
  else if isZero a || isZero b then withSign neg 0
  else withSign neg (roundBits (magnitude a * magnitude b) (2 ^ 149))

/-- fadd (R112). `nan` is the NaN this occurrence yields if its result is one. -/
def fadd (nan a b : F32) : F32 :=
  let sum := scaledValue a + scaledValue b
  if isNaN a || isNaN b || (isInf a && isInf b && signBit a != signBit b) then nan
  else if isInf a then a
  else if isInf b then b
  else if isZero a && isZero b then withSign (signBit a && signBit b) 0
  else if sum = 0 then withSign false 0
  else withSign (decide (sum < 0)) (roundBits sum.natAbs 1)

/-- neg: bit 31 inverted (R113). -/
def fneg (a : F32) : F32 := a ^^^ 0x80000000#32

/-- fsub (R113). -/
def fsub (nan a b : F32) : F32 := fadd nan a (fneg b)

end Sys2Proof.Machine
end

