-- ==== Sys2Proof/Machine/State.lean ====
section
/-! DEFINITION. The block's state (R10), the events the host can present, the outcomes that stop a step, and the
state after hardware reset (R171). All of it is plain data. -/

namespace Sys2Proof.Machine

/-- The names of the coefficient index k = 0..4 (R16). -/
inductive CoefIx where
  | b0 | b1 | b2 | a1 | a2
deriving DecidableEq, Repr

/-- Five like things, one per coefficient of a section, under the names of R16. -/
structure Five (α : Type) where
  b0 : α
  b1 : α
  b2 : α
  a1 : α
  a2 : α
deriving DecidableEq, Repr

/-- The two delay elements of one section for one channel (R19). -/
structure Delay where
  /-- Z[s][c][1] -/
  z1 : F32
  /-- Z[s][c][2] -/
  z2 : F32
deriving DecidableEq, Repr

/-- The lifecycle states of R11. `processing` is held only inside a PROC command. -/
inductive Lifecycle where
  | unprepared | prepared | processing | released
deriving DecidableEq, Repr

/-- The response codes of R141; codes 5 to 255 are never produced (U8). -/
inductive RespCode where
  /-- 0 OK -/
  | ok
  /-- 1 E_OPC -/
  | opc
  /-- 2 E_STATE -/
  | state
  /-- 3 E_RANGE -/
  | range
  /-- 4 E_NOCOEF -/
  | nocoef
deriving DecidableEq, Repr

/-- The response record of R66. -/
structure Response where
  code : RespCode
  data : BitVec 32
deriving DecidableEq, Repr

/-- What the outside world can do to the block (R5, R60, R170; log 8). -/
inductive HostEvent where
  /-- A command word on the command port (R60). -/
  | command (w : CmdWord)
  /-- Hardware reset, asserted and released between two commands (R170). -/
  | hardReset
  /-- Hardware reset that arrives while command `w` is executing (R172; log 11). -/
  | cutShort (w : CmdWord)
  /-- A write through a platform's direct BUF port (R46; log 14). -/
  | directWrite (c n : Nat) (value : F32)
  /-- A read through a platform's direct BUF port (R46; log 14). -/
  | directRead (c n : Nat)
deriving DecidableEq, Repr

/-- BUF's contents: bytes by cell address, addresses strictly rising. Byte `i` (0 the least significant) of the word
at word address `wa` (R40) has cell address `4 * wa + i` (log 5). An unlisted address holds no value of the model's:
it reads as the free value `Config.unwrittenByte` (U3; log 4). -/
abbrev Memory := List Host.Cell

/-- Why a step can stop with a fault. -/
inductive Fault where
  /-- Raised by PROC when its block would reach the word (c, n) outside BUF (R40: n < MAXCAP). Only a state with
  MAXBLK > MAXCAP, which no run reaches, gets here (log 13). Safe: the model stops. -/
  | bufAddress (c n : Nat)
deriving DecidableEq, Repr

/-- Why an instruction can be refused. -/
inductive Refusal where
  /-- Raised by exec's arm of an instruction that has no meaning yet; no arm does. Safe: the model stops. -/
  | notModelled (mnemonic : String)
deriving DecidableEq, Repr

/-- The block's state (R10), its outputs (R66, R151), and the model's own fields, marked. -/
structure State where
  /-- The build parameters (R6). The model's own field: no step changes it (log 1). -/
  cfg : Params
  /-- ST (R11). -/
  st : Lifecycle
  /-- ERR, the sticky first-error code (R12). -/
  err : BitVec 8
  /-- FS, the sample rate of the last PREP (R14). -/
  fs : F32
  /-- MAXBLK, the prepared maximum block size (R15). -/
  maxblk : BitVec 16
  /-- SHD, the staging bank, one entry per section (R17). -/
  shd : List (Five F32)
  /-- SHDV, the staging bank's valid bits (R17). -/
  shdv : List (Five Bool)
  /-- ACT, the active bank (R18). -/
  act : List (Five F32)
  /-- AV: ACT holds a committed set (R18). -/
  av : Bool
  /-- Z: for each section, for each channel, the two delay elements (R19). -/
  z : List (List Delay)
  /-- BUF (R20, R40). -/
  buf : Memory
  /-- The response record of the last command since hardware reset (R66; log 9). -/
  out : Option Response
  /-- The `busy` level (R151; log 10). -/
  busy : Bool
  /-- The events presented and not yet taken, oldest first. The model's own field (R10, R48; log 8). -/
  port : List HostEvent
  /-- How many free values have been drawn. The model's own field (U1, U2; log 7). -/
  draws : Nat
  /-- How many hardware resets have happened. The model's own field (R171, U3; log 7). -/
  era : Nat
deriving DecidableEq, Repr

/-- The state after hardware reset of a block built with `p` (R171, R25's first column). SHD, ACT and Z have no value
there: the model names zero (log 2). -/
def State.resetWith (p : Params) : State where
  cfg := p
  st := .unprepared
  err := 0#8
  fs := 0#32
  maxblk := 0#16
  shd := List.replicate p.nsec ⟨0#32, 0#32, 0#32, 0#32, 0#32⟩
  shdv := List.replicate p.nsec ⟨false, false, false, false, false⟩
  act := List.replicate p.nsec ⟨0#32, 0#32, 0#32, 0#32, 0#32⟩
  av := false
  z := List.replicate p.nsec (List.replicate p.nch ⟨0#32, 0#32⟩)
  buf := []
  out := none
  busy := false
  port := []
  draws := 0
  era := 0

/-- The state after hardware reset in the reference configuration (R6, R171). -/
def State.reset : State := State.resetWith Params.reference

end Sys2Proof.Machine
end

