-- ==== Sys2Proof/Machine/Flags.lean ====
section
/-! DEFINITION. The flag-like state of R22: the valid bits SHDV and AV, the sticky ERR, and the number each named
value stands for in a status word or a response. -/

namespace Sys2Proof.Machine

/-- A response code's number (R141). -/
def RespCode.bits : RespCode → BitVec 8
  | .ok => 0#8
  | .opc => 1#8
  | .state => 2#8
  | .range => 3#8
  | .nocoef => 4#8

/-- ST's encoding (R11). -/
def Lifecycle.bits : Lifecycle → BitVec 2
  | .unprepared => 0#2
  | .prepared => 1#2
  | .processing => 2#2
  | .released => 3#2

/-- The response record as 40 bits: code in [39:32], data in [31:0] (R66). -/
def Response.bits (r : Response) : BitVec 40 := r.code.bits ++ r.data

/-- The response record as a byte-wide channel carries it: five bytes, bits [7:0] first (R44, R66). -/
def Response.bytes (r : Response) : List Byte :=
  [r.bits.extractLsb' 0 8, r.bits.extractLsb' 8 8, r.bits.extractLsb' 16 8, r.bits.extractLsb' 24 8,
   r.bits.extractLsb' 32 8]

/-- ERR after a command fails with `code`: the first failure sticks (R12, R145 (b)). -/
def errAfter (old : BitVec 8) (code : RespCode) : BitVec 8 :=
  if old = 0#8 then code.bits else old

/-- All five valid bits of one section. -/
def sectionStaged (v : Five Bool) : Bool := v.b0 && v.b1 && v.b2 && v.a1 && v.a2

/-- SA: every SHDV bit is 1 (R21). CMT needs it (R92). -/
def State.allStaged (s : State) : Bool := s.shdv.all sectionStaged

/-- SHDV with every bit cleared, as PREP, REL and hardware reset leave it (R17). -/
def noneStaged (p : Params) : List (Five Bool) :=
  List.replicate p.nsec ⟨false, false, false, false, false⟩

end Sys2Proof.Machine
end

