-- ==== Sys2Proof/Machine/Ops.lean ====
section
/-! DEFINITION. The named operations over the state that the meanings share: BUF access (R40 to R47), the register
banks (R17 to R19), the response (R66), and the failing command (R145), the block's one exception. -/

namespace Sys2Proof.Machine

/-- The byte listed at cell address `a`, if BUF's byte there has been written since hardware reset. -/
def Memory.read : Memory → Nat → Option Byte
  | [], _ => none
  | (a', v) :: rest, a => if a' = a then some v else Memory.read rest a

/-- The contents with the byte at `a` set to `v`, in the canonical form. -/
def Memory.write : Memory → Nat → Byte → Memory
  | [], a, v => [(a, v)]
  | (a', v') :: rest, a, v =>
    if a < a' then (a, v) :: (a', v') :: rest
    else if a' = a then (a, v) :: rest
    else (a', v') :: Memory.write rest a v

/-- The canonical form: addresses strictly rising. No entry can equal what an unlisted address reads as, since an
unlisted address holds no value. -/
def Memory.wf : Memory → Bool
  | [] => true
  | [_] => true
  | (a, _) :: (a', v') :: rest => decide (a < a') && Memory.wf ((a', v') :: rest)

/-- What the byte of BUF at cell address `a` reads as: the byte last written, or, if nothing has been written since
hardware reset, any value, fixed until it is written (R171, U3). -/
def State.bufByte (s : State) (a : Nat) : Byte :=
  (Memory.read s.buf a).getD (Config.unwrittenByte s.era a)

/-- The word address of BUF[c][n] (R40, R119). -/
def wordAddr (p : Params) (c n : Nat) : Nat := c * p.maxcap + n

/-- Four bytes of a byte-wide channel as one BUF word: the byte holding bits [7:0] goes first (R44). -/
def f32OfBytes (b0 b1 b2 b3 : Byte) : F32 := b3 ++ b2 ++ b1 ++ b0

/-- The bytes of a BUF word in the order a byte-wide channel carries them (R44). -/
def bytesOfF32 (v : F32) : List Byte :=
  [v.extractLsb' 0 8, v.extractLsb' 8 8, v.extractLsb' 16 8, v.extractLsb' 24 8]

/-- `MemRead(wa, 4)` (R42): one whole word, its bytes in the order of R44 (log 5). -/
def State.memRead (s : State) (wa : Nat) : F32 :=
  f32OfBytes (s.bufByte (4 * wa)) (s.bufByte (4 * wa + 1)) (s.bufByte (4 * wa + 2)) (s.bufByte (4 * wa + 3))

/-- BUF's contents after `MemWrite(wa, 4, v)` (R42): one whole word. -/
def Memory.writeWord (m : Memory) (wa : Nat) (v : F32) : Memory :=
  Memory.write (Memory.write (Memory.write (Memory.write m
    (4 * wa) (v.extractLsb' 0 8)) (4 * wa + 1) (v.extractLsb' 8 8))
    (4 * wa + 2) (v.extractLsb' 16 8)) (4 * wa + 3) (v.extractLsb' 24 8)

/-- BUF[c][n] (R8, R40). -/
def State.bufWord (s : State) (c n : Nat) : F32 := s.memRead (wordAddr s.cfg c n)

/-- `BUF[c][n] <- v` (R8, R40). -/
def State.setBufWord (c n : Nat) (v : F32) (s : State) : State :=
  { s with buf := Memory.writeWord s.buf (wordAddr s.cfg c n) v }

/-- The entry under one coefficient name. -/
def Five.get {α : Type} (f : Five α) : CoefIx → α
  | .b0 => f.b0
  | .b1 => f.b1
  | .b2 => f.b2
  | .a1 => f.a1
  | .a2 => f.a2

/-- The five entries with one of them replaced. -/
def Five.set {α : Type} (f : Five α) (ix : CoefIx) (v : α) : Five α :=
  match ix with
  | .b0 => { f with b0 := v }
  | .b1 => { f with b1 := v }
  | .b2 => { f with b2 := v }
  | .a1 => { f with a1 := v }
  | .a2 => { f with a2 := v }

/-- ACT[sec][0..4] (R18). A section the bank does not have reads as zeros; no command names one (log 15). -/
def State.activeCoefs (s : State) (sec : Nat) : Five F32 :=
  s.act.getD sec ⟨0#32, 0#32, 0#32, 0#32, 0#32⟩

/-- Z[sec][c][1..2] (R19). An element the block does not have reads as zeros; no command names one (log 15). -/
def State.delay (s : State) (sec c : Nat) : Delay :=
  (s.z.getD sec []).getD c ⟨0#32, 0#32⟩

/-- `Z[sec][c][1..2] <- d` (R19). -/
def State.setDelay (sec c : Nat) (d : Delay) (s : State) : State :=
  { s with z := s.z.modify sec fun row => row.set c d }

/-- SHD[sec][ix] <- v and SHDV[sec][ix] <- 1 (R90). -/
def State.stage (sec : Nat) (ix : CoefIx) (v : F32) (s : State) : State :=
  { s with
    shd := s.shd.modify sec fun k => k.set ix v
    shdv := s.shdv.modify sec fun k => k.set ix true }

/-- ACT <- SHD, all NSEC × 5 words in one step, and AV <- 1 (R92, R52). -/
def State.commit (s : State) : State := { s with act := s.shd, av := true }

/-- Every Z word at +0.0 (R19 (b), R80, R84). -/
def zeroDelays (p : Params) : List (List Delay) :=
  List.replicate p.nsec (List.replicate p.nch ⟨0#32, 0#32⟩)

/-- `for all s, c, j: Z[s][c][j] <- 0x00000000` (R80, R84). -/
def State.clearDelays (s : State) : State := { s with z := zeroDelays s.cfg }

/-- A coefficient bank whose words have no value: free values from draw `d` on (U2). -/
def freeBank (p : Params) (d : Nat) : List (Five F32) :=
  (List.range p.nsec).map fun sec =>
    ⟨Config.freeWord (d + 5 * sec), Config.freeWord (d + 5 * sec + 1), Config.freeWord (d + 5 * sec + 2),
     Config.freeWord (d + 5 * sec + 3), Config.freeWord (d + 5 * sec + 4)⟩

/-- Delay elements that have no value: free values from draw `d` on (U2). -/
def freeDelays (p : Params) (d : Nat) : List (List Delay) :=
  (List.range p.nsec).map fun sec => (List.range p.nch).map fun c =>
    ⟨Config.freeWord (d + 2 * (p.nch * sec + c)), Config.freeWord (d + 2 * (p.nch * sec + c) + 1)⟩

/-- Every SHDV bit and AV cleared; the words of SHD and ACT then have no value (R17, R18, R25). -/
def State.forgetCoefs (s : State) : State :=
  { s with
    shd := freeBank s.cfg s.draws
    shdv := noneStaged s.cfg
    act := freeBank s.cfg (s.draws + 5 * s.cfg.nsec)
    av := false
    draws := s.draws + 10 * s.cfg.nsec }

/-- Z has no value any more (R19 (e), R82). -/
def State.forgetDelays (s : State) : State :=
  { s with
    z := freeDelays s.cfg s.draws
    draws := s.draws + 2 * (s.cfg.nch * s.cfg.nsec) }

/-- `respond(code, data)`: sends the response record and ends the command (R8, R66); `busy` falls (R151). -/
def State.respond (code : RespCode) (data : BitVec 32) (s : State) : State :=
  { s with out := some ⟨code, data⟩, busy := false }

/-- `raise E_X`, the block's one exception (R140, R145): no write but ERR's, the answer (code, 0), and the block is
ready for the next command. There is nothing to return to and no return command (R146). -/
def State.fail (code : RespCode) (s : State) : State :=
  State.respond code 0#32 { s with err := errAfter s.err code }

/-- Takes a command word: `busy` rises (R151). -/
def State.accept (s : State) : State := { s with busy := true }

/-- Hardware reset (R170, R171): the reset state of the same block, with BUF's contents any value again. The host's
pending events are the host's and stay. -/
def State.hardReset (s : State) : State :=
  { State.resetWith s.cfg with port := s.port, draws := s.draws, era := s.era + 1 }

end Sys2Proof.Machine
end

