-- ==== Sys2Proof/Machine/Operands.lean ====
section
/-! DEFINITION. The operand forms and their legal ranges (R63, R119, R141): every comparison is an unsigned comparison
of the operand's value. All range conditions of one command are one test (R144). -/

namespace Sys2Proof.Machine

/-- A sample rate PREP accepts: not a NaN, an infinity, a zero or negative (R80). A positive subnormal passes
(R81 (d)). -/
def sampleRateLegal (fs : F32) : Bool :=
  !(isNaN fs || isInf fs || isZero fs || signBit fs)

/-- PREP's operands: 1 ≤ b ≤ MAXCAP and a legal sample rate (R80). -/
def prepLegal (p : Params) (maxblk : Nat) (fs : F32) : Bool :=
  decide (1 ≤ maxblk) && decide (maxblk ≤ p.maxcap) && sampleRateLegal fs

/-- The coefficient a `b` field names (R16). -/
def coefOfIndex (k : Nat) : Option CoefIx :=
  if k = 0 then some .b0
  else if k = 1 then some .b1
  else if k = 2 then some .b2
  else if k = 3 then some .a1
  else if k = 4 then some .a2
  else none

/-- LDC's operands: a section below NSEC and a coefficient index below 5 (R90). -/
def coefOperand (p : Params) (sec k : Nat) : Option CoefIx :=
  if sec < p.nsec then coefOfIndex k else none

/-- PROC's operands: 1 ≤ N ≤ NCH and M ≤ MAXBLK (R100). -/
def blockLegal (p : Params) (maxblk : BitVec 16) (nch m : Nat) : Bool :=
  decide (1 ≤ nch) && decide (nch ≤ p.nch) && decide (m ≤ maxblk.toNat)

/-- WRB's and RDB's operands: a word of BUF (R40, R130, R132), against MAXCAP and not the prepared MAXBLK. -/
def bufLegal (p : Params) (c n : Nat) : Bool := decide (c < p.nch) && decide (n < p.maxcap)

/-- The status word under index 0 to 5 (R21, R134); the other indices are reserved. -/
def statusWord (s : State) (idx : Nat) : Option (BitVec 32) :=
  if idx = 0 then
    some (BitVec.ofNat 16 s.cfg.maxcap ++ 0#4 ++ BitVec.ofNat 8 s.cfg.nch ++ BitVec.ofNat 4 s.cfg.nsec)
  else if idx = 1 then some (s.st.bits.setWidth 32)
  else if idx = 2 then some (s.err.setWidth 32)
  else if idx = 3 then some s.fs
  else if idx = 4 then some (s.maxblk.setWidth 32)
  else if idx = 5 then some (0#30 ++ BitVec.ofBool s.allStaged ++ BitVec.ofBool s.av)
  else none

end Sys2Proof.Machine
end

