-- ==== Sys2Proof/Machine/Buffer.lean ====
section
/-! DEFINITION. The buffer commands WRB (R130, R131) and RDB (R132, R133), legal in every lifecycle state. -/

namespace Sys2Proof.Machine

/-- WRB (R130): E_RANGE, or one word stored bit for bit. -/
def execWrb (c n : Nat) (value : F32) (s : State) : Host.Outcome State Fault Refusal :=
  if bufLegal s.cfg c n then .next ((s.setBufWord c n value).respond .ok 0#32)
  else .next (s.fail .range)

/-- RDB (R132): E_RANGE, or the word as the response's data; no state changes. -/
def execRdb (c n : Nat) (s : State) : Host.Outcome State Fault Refusal :=
  if bufLegal s.cfg c n then .next (s.respond .ok (s.bufWord c n))
  else .next (s.fail .range)

end Sys2Proof.Machine
end

