-- ==== Sys2Proof/Machine/Coefficients.lean ====
section
/-! DEFINITION. The coefficient commands LDC (R90, R91) and CMT (R92, R93). -/

namespace Sys2Proof.Machine

/-- LDC (R90): E_STATE unless Prepared, then E_RANGE; one staging word and its valid bit. The value is not looked at
(R94). -/
def execLdc (sec k : Nat) (value : F32) (s : State) : Host.Outcome State Fault Refusal :=
  if s.st = .prepared then
    match coefOperand s.cfg sec k with
    | some ix => .next ((s.stage sec ix value).respond .ok 0#32)
    | none => .next (s.fail .range)
  else .next (s.fail .state)

/-- CMT (R92): E_STATE unless Prepared, then E_NOCOEF unless every staging word is valid; the whole bank at once. -/
def execCmt (s : State) : Host.Outcome State Fault Refusal :=
  if s.st = .prepared then
    if s.allStaged then .next (s.commit.respond .ok 0#32)
    else .next (s.fail .nocoef)
  else .next (s.fail .state)

end Sys2Proof.Machine
end

