-- ==== Sys2Proof/Machine/Lifecycle.lean ====
section
/-! DEFINITION. The lifecycle commands PREP (R80, R81), REL (R82, R83) and RST (R84, R85). -/

namespace Sys2Proof.Machine

/-- What a successful PREP writes (R80): FS, MAXBLK, every SHDV bit, AV, every Z word and ST. -/
def State.prepare (maxblk : Nat) (fs : F32) (s : State) : State :=
  { s.forgetCoefs.clearDelays with
    st := .prepared
    fs := fs
    maxblk := BitVec.ofNat 16 maxblk }

/-- What REL writes (R82). -/
def State.release (s : State) : State :=
  { s.forgetCoefs.forgetDelays with
    st := .released
    fs := 0#32
    maxblk := 0#16 }

/-- PREP (R80): legal in every state a command can find (log 18); E_RANGE for an operand outside its range. -/
def execPrep (maxblk : Nat) (fs : F32) (s : State) : Host.Outcome State Fault Refusal :=
  if prepLegal s.cfg maxblk fs then .next ((s.prepare maxblk fs).respond .ok 0#32)
  else .next (s.fail .range)

/-- REL (R82): legal in every state a command can find (log 18). -/
def execRel (s : State) : Host.Outcome State Fault Refusal :=
  .next (s.release.respond .ok 0#32)

/-- RST (R84): E_STATE unless Prepared; every Z word to +0.0. -/
def execRst (s : State) : Host.Outcome State Fault Refusal :=
  if s.st = .prepared then .next (s.clearDelays.respond .ok 0#32)
  else .next (s.fail .state)

end Sys2Proof.Machine
end

