-- ==== Sys2Proof/Machine/Process.lean ====
section
/-! DEFINITION. The PROC command (R100 to R104) and the section recurrence (R105). -/

namespace Sys2Proof.Machine

/-- `Section(b0, b1, b2, a1, a2, z1, z2, x)` (R105): the transposed direct form II step, nine operations, each rounded
once. `nan j` is the NaN the `j`-th operation yields if its result is one. -/
def sectionStep (nan : Nat → F32) (k : Five F32) (d : Delay) (x : F32) : F32 × Delay :=
  let p0 := fmul (nan 0) k.b0 x
  let y := fadd (nan 1) p0 d.z1
  let p1 := fmul (nan 2) k.b1 x
  let q1 := fmul (nan 3) k.a1 y
  let t1 := fsub (nan 4) p1 q1
  let z1' := fadd (nan 5) t1 d.z2
  let p2 := fmul (nan 6) k.b2 x
  let q2 := fmul (nan 7) k.a2 y
  let z2' := fsub (nan 8) p2 q2
  (y, ⟨z1', z2'⟩)

/-- The NaNs of one section step: nine draws of its own, so that each occurrence is drawn afresh (U1; log 6). -/
def State.stepNaN (s : State) (j : Nat) : F32 := freshNaN (s.draws + j)

/-- The body of R101's loop: one section on one sample of one channel. -/
def State.procSample (sec c n : Nat) (s : State) : State :=
  let r := sectionStep s.stepNaN (s.activeCoefs sec) (s.delay sec c) (s.bufWord c n)
  let s' := State.setBufWord c n r.1 (State.setDelay sec c r.2 s)
  { s' with draws := s.draws + 9 }

/-- The innermost loop of R101: the samples 0 to m-1 of one channel, in rising index. -/
def State.procChannel (sec m c : Nat) (s : State) : State :=
  (List.range m).foldl (fun t n => t.procSample sec c n) s

/-- The middle loop of R101: the channels 0 to nch-1. -/
def State.procSection (nch m sec : Nat) (s : State) : State :=
  (List.range nch).foldl (fun t c => t.procChannel sec m c) s

/-- The loop nest of R101: section, then channel, then sample (R50). -/
def State.procLoop (nch m : Nat) (s : State) : State :=
  (List.range s.cfg.nsec).foldl (fun t sec => t.procSection nch m sec) s

/-- What a PROC that passes its checks does (R101): ST is Processing while the loop runs and Prepared after it. The
whole of it is one step (R103; log 12). -/
def State.process (nch m : Nat) (s : State) : State :=
  { State.procLoop nch m { s with st := .processing } with st := .prepared }

/-- PROC (R100): E_STATE, E_RANGE, E_NOCOEF in this order, then the loop. The last test keeps the block inside BUF
(R40); it can only stop a state with MAXBLK > MAXCAP, which no run reaches (log 13). -/
def execProc (nch m : Nat) (s : State) : Host.Outcome State Fault Refusal :=
  if s.st = .prepared then
    if blockLegal s.cfg s.maxblk nch m then
      if s.av then
        if m ≤ s.cfg.maxcap then .next ((s.process nch m).respond .ok 0#32)
        else .fault (.bufAddress 0 s.cfg.maxcap)
      else .next (s.fail .nocoef)
    else .next (s.fail .range)
  else .next (s.fail .state)

end Sys2Proof.Machine
end

