-- ==== Sys2Proof/Machine/Status.lean ====
section
/-! DEFINITION. The status command RDS (R134, R135), legal in every lifecycle state. -/

namespace Sys2Proof.Machine

/-- RDS (R134): E_RANGE for an index above 5, or the status word as the response's data; no state changes. -/
def execRds (idx : Nat) (s : State) : Host.Outcome State Fault Refusal :=
  match statusWord s idx with
  | some v => .next (s.respond .ok v)
  | none => .next (s.fail .range)

end Sys2Proof.Machine
end

