-- ==== Sys2Proof/Machine/Dispatch.lean ====
section
/-! DEFINITION. One arm per command: the meaning it calls. -/

namespace Sys2Proof.Machine

/-- What a decoded command does to the state. -/
def exec (i : Instr) (s : State) : Host.Outcome State Fault Refusal :=
  match i with
  | .prep maxblk fs => Sys2Proof.Machine.execPrep maxblk fs s
  | .rel => Sys2Proof.Machine.execRel s
  | .rst => Sys2Proof.Machine.execRst s
  | .ldc sec k value => Sys2Proof.Machine.execLdc sec k value s
  | .cmt => Sys2Proof.Machine.execCmt s
  | .proc nch m => Sys2Proof.Machine.execProc nch m s
  | .wrb c n value => Sys2Proof.Machine.execWrb c n value s
  | .rdb c n => Sys2Proof.Machine.execRdb c n s
  | .rds idx => Sys2Proof.Machine.execRds idx s

end Sys2Proof.Machine
end

