-- ==== Sys2Proof/Machine/Port.lean ====
section
/-! DEFINITION. The command port (R60, R48): what the block does with each event the host presents. -/

namespace Sys2Proof.Machine

/-- One command word, taken and executed to completion (R60): the decoded command's meaning, or E_OPC for an illegal
word (R64, R65, R144 step 1). -/
def runWord (w : CmdWord) (s : State) : Host.Outcome State Fault Refusal :=
  match decode w with
  | .ok i => exec i s.accept
  | .error _ => .next (s.accept.fail .opc)

/-- One event. A hardware reset inside a command abandons it without a response (R172); the direct BUF port behaves
exactly like WRB and RDB (R46). -/
def runEvent (e : HostEvent) (s : State) : Host.Outcome State Fault Refusal :=
  match e with
  | .command w => runWord w s
  | .hardReset => .next s.hardReset
  | .cutShort _ => .next s.accept.hardReset
  | .directWrite c n value => exec (.wrb c n value) s.accept
  | .directRead c n => exec (.rdb c n) s.accept

/-- The oldest event presented, taken off the port; with nothing presented the block waits (R48, R171). -/
def runPort (s : State) : Host.Outcome State Fault Refusal :=
  match s.port with
  | [] => .next s
  | e :: rest => runEvent e { s with port := rest }

/-- `s` with the command word presented as the next event. -/
def State.present (w : CmdWord) (s : State) : State := { s with port := .command w :: s.port }

end Sys2Proof.Machine
end

