-- ==== Sys2Proof/Machine/Step.lean ====
section
/-! DEFINITION. One step of the block: one event of the host's, to completion. -/

namespace Sys2Proof.Machine

/-- One step (R48, R60). -/
def step (s : State) : Host.Outcome State Fault Refusal := runPort s

/-- `s` with the table word `w` presented on the command port, so that the next step runs it (log 8). -/
def State.withFetchWord (s : State) (nbits w : Nat) : State := s.present (tableWord nbits w)

end Sys2Proof.Machine
end

