-- ==== Sys2Proof/Machine/Assembler.lean ====
section
/-! DEFINITION. The notation of R67 and R68: the pseudo-instructions' expansions, and an assembler from one line of
text to command words. It is no part of the block: the step never uses it. -/

namespace Sys2Proof.Machine

/-- The pseudo-instructions of R68; none has an encoding of its own. -/
inductive Pseudo where
  | ldsec (sec : Nat) (v0 v1 v2 v3 v4 : F32)
  | ident (sec : Nat)
  | wrblk (c n0 : Nat) (values : List F32)
  | rdblk (c n0 count : Nat)
deriving DecidableEq, Repr

/-- `WRB c, n, v0`; `WRB c, n+1, v1`; ... (R68). -/
def writeFrom (c : Nat) : Nat → List F32 → List Instr
  | _, [] => []
  | n, v :: vs => .wrb c n v :: writeFrom c (n + 1) vs

/-- A pseudo-instruction's fixed expansion (R68). -/
def expandPseudo : Pseudo → List Instr
  | .ldsec sec v0 v1 v2 v3 v4 => [.ldc sec 0 v0, .ldc sec 1 v1, .ldc sec 2 v2, .ldc sec 3 v3, .ldc sec 4 v4]
  | .ident sec =>
    [.ldc sec 0 0x3F800000#32, .ldc sec 1 0#32, .ldc sec 2 0#32, .ldc sec 3 0#32, .ldc sec 4 0#32]
  | .wrblk c n0 values => writeFrom c n0 values
  | .rdblk c n0 count => (List.range count).map fun j => .rdb c (n0 + j)

/-- The value of a decimal or hexadecimal digit. -/
def digitValue (ch : Char) : Option Nat :=
  let v := ch.toNat
  if 48 ≤ v ∧ v ≤ 57 then some (v - 48)
  else if 97 ≤ v ∧ v ≤ 102 then some (v - 87)
  else if 65 ≤ v ∧ v ≤ 70 then some (v - 55)
  else none

/-- Digits in a base, after those already read as `acc`. -/
def readDigits (base : Nat) : Nat → List Char → Option Nat
  | acc, [] => some acc
  | acc, ch :: rest =>
    match digitValue ch with
    | some d => if d < base then readDigits base (acc * base + d) rest else none
    | none => none

/-- One digit at least. -/
def readNumber (base : Nat) (cs : List Char) : Option Nat :=
  if cs.isEmpty then none else readDigits base 0 cs

/-- An integer operand: decimal or `0x` hexadecimal (R67). -/
def readInt : List Char → Option Nat
  | '0' :: 'x' :: cs => readNumber 16 cs
  | cs => readNumber 10 cs

/-- A decimal exponent with an optional sign (log 16). -/
def readExponent : List Char → Option Int
  | '-' :: cs => (readNumber 10 cs).map fun n => -(n : Int)
  | '+' :: cs => (readNumber 10 cs).map fun n => (n : Int)
  | cs => (readNumber 10 cs).map fun n => (n : Int)

/-- The binary32 value nearest to `digits × 10^scale`, ties to even (R67, R114). DESIGN CHOICE (log 16): a literal
of value zero keeps its sign, so that `-0.0` is 0x80000000 (R114 gives the sign of the other values only). -/
def nearestDecimal (neg : Bool) (digits : Nat) (scale : Int) : F32 :=
  if 0 ≤ scale then withSign neg (roundBits (digits * 10 ^ scale.toNat * 2 ^ 149) 1)
  else withSign neg (roundBits (digits * 2 ^ 149) (10 ^ (-scale).toNat))

/-- A decimal literal with a point or an exponent, after its sign (R67). DESIGN CHOICE (log 16): the exponent letter is
`e` or `E`, and the digits before or after the point may be missing, not both (`.5`, `1.`). -/
def readDecimal (neg : Bool) (cs : List Char) : Option F32 :=
  let mantissa := cs.takeWhile fun ch => ch != 'e' && ch != 'E'
  let tail := (cs.dropWhile fun ch => ch != 'e' && ch != 'E')
  let whole := mantissa.takeWhile fun ch => ch != '.'
  let pointed := mantissa.dropWhile fun ch => ch != '.'
  let fraction := pointed.drop 1
  match readNumber 10 (whole ++ fraction), (if tail.isEmpty then some 0 else readExponent (tail.drop 1)) with
  | some digits, some e =>
    if pointed.isEmpty && tail.isEmpty then none
    else some (nearestDecimal neg digits (e - (fraction.length : Int)))
  | _, _ => none

/-- An `f32` operand: `0x` and exactly eight hexadecimal digits, or a decimal literal (R67). -/
def readF32 : List Char → Option F32
  | '0' :: 'x' :: cs => if cs.length = 8 then (readNumber 16 cs).map (BitVec.ofNat 32) else none
  | '-' :: cs => readDecimal true cs
  | cs => readDecimal false cs

/-- A blank (log 16). -/
def isBlank (ch : Char) : Bool := ch == ' ' || ch == '\t' || ch == '\r'

/-- Blanks taken off both ends. -/
def trimBlanks (cs : List Char) : List Char :=
  ((cs.dropWhile isBlank).reverse.dropWhile isBlank).reverse

/-- The operands between commas. -/
def splitCommas : List Char → List (List Char)
  | [] => [[]]
  | ',' :: cs => [] :: splitCommas cs
  | ch :: cs =>
    match splitCommas cs with
    | [] => [[ch]]
    | w :: ws => (ch :: w) :: ws

/-- The operands of a line after its mnemonic; none at all when nothing stands there. -/
def operandsOf (cs : List Char) : List (List Char) :=
  if (trimBlanks cs).isEmpty then [] else (splitCommas cs).map trimBlanks

/-- Every text read as an `f32`. -/
def readF32s : List (List Char) → Option (List F32)
  | [] => some []
  | cs :: rest =>
    match readF32 cs, readF32s rest with
    | some v, some vs => some (v :: vs)
    | _, _ => none

/-- The commands a mnemonic and its operands stand for (R67's forms, R68's expansions). -/
def commandsOf (mnemonic : List Char) (ops : List (List Char)) : Option (List Instr) :=
  if mnemonic = ['P', 'R', 'E', 'P'] then
    match ops with
    | [b, fs] => do return [.prep (← readInt b) (← readF32 fs)]
    | _ => none
  else if mnemonic = ['R', 'E', 'L'] then (if ops.isEmpty then some [.rel] else none)
  else if mnemonic = ['R', 'S', 'T'] then (if ops.isEmpty then some [.rst] else none)
  else if mnemonic = ['L', 'D', 'C'] then
    match ops with
    | [sec, k, v] => do return [.ldc (← readInt sec) (← readInt k) (← readF32 v)]
    | _ => none
  else if mnemonic = ['C', 'M', 'T'] then (if ops.isEmpty then some [.cmt] else none)
  else if mnemonic = ['P', 'R', 'O', 'C'] then
    match ops with
    | [nch, m] => do return [.proc (← readInt nch) (← readInt m)]
    | _ => none
  else if mnemonic = ['W', 'R', 'B'] then
    match ops with
    | [c, n, v] => do return [.wrb (← readInt c) (← readInt n) (← readF32 v)]
    | _ => none
  else if mnemonic = ['R', 'D', 'B'] then
    match ops with
    | [c, n] => do return [.rdb (← readInt c) (← readInt n)]
    | _ => none
  else if mnemonic = ['R', 'D', 'S'] then
    match ops with
    | [idx] => do return [.rds (← readInt idx)]
    | _ => none
  else if mnemonic = ['L', 'D', 'S', 'E', 'C'] then
    match ops with
    | [sec, v0, v1, v2, v3, v4] => do
      return expandPseudo (.ldsec (← readInt sec) (← readF32 v0) (← readF32 v1) (← readF32 v2) (← readF32 v3)
        (← readF32 v4))
    | _ => none
  else if mnemonic = ['I', 'D', 'E', 'N', 'T'] then
    match ops with
    | [sec] => do return expandPseudo (.ident (← readInt sec))
    | _ => none
  else if mnemonic = ['W', 'R', 'B', 'L', 'K'] then
    match ops with
    | c :: n0 :: v :: vs => do return expandPseudo (.wrblk (← readInt c) (← readInt n0) (← readF32s (v :: vs)))
    | _ => none
  else if mnemonic = ['R', 'D', 'B', 'L', 'K'] then
    match ops with
    | [c, n0, count] => do return expandPseudo (.rdblk (← readInt c) (← readInt n0) (← readInt count))
    | _ => none
  else none

/-- One line (R67): `;` starts a comment, a blank line is no command, an operand must fit its field. -/
def assembleLine (line : List Char) : Option (List CmdWord) :=
  let code := trimBlanks (line.takeWhile fun ch => ch != ';')
  if code.isEmpty then some []
  else
    let mnemonic := code.takeWhile fun ch => !isBlank ch
    let rest := code.dropWhile fun ch => !isBlank ch
    match commandsOf mnemonic (operandsOf rest) with
    | some is => if is.all Instr.wellFormed then some (is.map encode) else none
    | none => none

end Sys2Proof.Machine
end

