-- ==== Sys2Proof/Safety.lean ====
section
/-! DEFINITION. The terms claims are made in: what a good state is, when two words agree up to the payload of a NaN
(R115, R118), and the cascade as a function on the samples of one channel (R104). -/

namespace Sys2Proof.Machine

/-- What holds of the block between any two commands: ST is one of 0, 1, 3 (R11); the registers have the values R14,
R15, R17, R18 and R25 allow in that ST; AV = 1 implies that every SHDV bit is 1 (R93 (d)); the banks have the shapes
of R10; ERR holds one of the five codes (R12, R141); BUF lists whole words inside its range in the canonical form (R40,
R42); no command is executing (R151). -/
structure State.Good (s : State) : Prop where
  shd_length : s.shd.length = s.cfg.nsec
  shdv_length : s.shdv.length = s.cfg.nsec
  act_length : s.act.length = s.cfg.nsec
  z_length : s.z.length = s.cfg.nsec
  z_rows : ∀ row ∈ s.z, row.length = s.cfg.nch
  err_code : s.err.toNat ≤ 4
  not_processing : s.st ≠ .processing
  prepared : s.st = .prepared → 1 ≤ s.maxblk.toNat ∧ s.maxblk.toNat ≤ s.cfg.maxcap ∧ sampleRateLegal s.fs = true
  unprepared : s.st ≠ .prepared → s.fs = 0#32 ∧ s.maxblk = 0#16 ∧ s.av = false ∧ s.shdv = noneStaged s.cfg
  committed : s.av = true → s.allStaged = true
  buf_wf : Memory.wf s.buf = true
  buf_inside : ∀ cell ∈ s.buf, cell.1 < 4 * (s.cfg.nch * s.cfg.maxcap)
  buf_whole : ∀ a b, a / 4 = b / 4 → (Memory.read s.buf a).isSome = (Memory.read s.buf b).isSome
  not_busy : s.busy = false

/-- SHD[sec][ix], for a section the bank has (R17). -/
def State.stagedWord (s : State) (sec : Nat) (ix : CoefIx) : Option F32 := (s.shd[sec]?).map fun k => k.get ix

/-- SHDV[sec][ix], for a section the bank has (R17). -/
def State.stagedValid (s : State) (sec : Nat) (ix : CoefIx) : Option Bool := (s.shdv[sec]?).map fun k => k.get ix

/-- The index k that names a coefficient (R16). -/
def CoefIx.index : CoefIx → Nat
  | .b0 => 0
  | .b1 => 1
  | .b2 => 2
  | .a1 => 3
  | .a2 => 4

/-- Two words are the same but for what R115 leaves open: equal bits, or both NaNs. -/
def wordsAgree (a b : F32) : Prop := a = b ∨ (isNaN a = true ∧ isNaN b = true)

/-- Agreement of two delay pairs. -/
def delaysAgree (d e : Delay) : Prop := wordsAgree d.z1 e.z1 ∧ wordsAgree d.z2 e.z2

/-- One NaN that stands for all of them in the reference below; a claim that uses it speaks up to `wordsAgree` only. -/
def someNaN : F32 := quietNaN 0#23

/-- `F_s` of R104: one section over the samples of one channel, in rising index, with that section's delay elements. -/
def sectionRun (k : Five F32) : Delay → List F32 → List F32 × Delay
  | d, [] => ([], d)
  | d, x :: xs =>
    let r := sectionStep (fun _ => someNaN) k d x
    let rest := sectionRun k r.2 xs
    (r.1 :: rest.1, rest.2)

/-- `F_(NSEC-1) ∘ ... ∘ F_1 ∘ F_0` of R104: the sections one after the other, each with its own coefficients and delay
elements; the outputs and the delay elements left. -/
def cascadeRun : List (Five F32 × Delay) → List F32 → List F32 × List Delay
  | [], xs => (xs, [])
  | (k, d) :: sections, xs =>
    let r := sectionRun k d xs
    let rest := cascadeRun sections r.1
    (rest.1, r.2 :: rest.2)

/-- The first `m` samples of channel `c` (R2, R100). -/
def State.channelSamples (s : State) (c m : Nat) : List F32 := (List.range m).map fun n => s.bufWord c n

/-- Each section's active coefficients and its delay elements for channel `c` (R104, R107). -/
def State.channelSections (s : State) (c : Nat) : List (Five F32 × Delay) :=
  (List.range s.cfg.nsec).map fun sec => (s.activeCoefs sec, s.delay sec c)

/-- Two lists agree word by word. -/
def listsAgree (xs ys : List F32) : Prop := List.Forall₂ wordsAgree xs ys

/-- A word R64 calls illegal: (a) `op` is none of the nine values of R63, or (b) a field that R63 marks must-be-zero
for its `op` is not zero. -/
def illegalWord (w : CmdWord) : Prop :=
  fieldOp w ∉ [0x01#8, 0x02#8, 0x03#8, 0x10#8, 0x11#8, 0x20#8, 0x30#8, 0x31#8, 0x40#8] ∨
  (fieldOp w = 0x01#8 ∧ fieldA w ≠ 0#8) ∨
  (fieldOp w ∈ [0x02#8, 0x03#8, 0x11#8] ∧ (fieldA w ≠ 0#8 ∨ fieldB w ≠ 0#16 ∨ fieldImm w ≠ 0#32)) ∨
  (fieldOp w ∈ [0x20#8, 0x31#8] ∧ fieldImm w ≠ 0#32) ∨
  (fieldOp w = 0x40#8 ∧ (fieldA w ≠ 0#8 ∨ fieldImm w ≠ 0#32))

/-- The code a decoded command answers, by R142's table in R144's order: lifecycle state, then ranges, then
coefficients. A sample rate is a positive finite number exactly when its pattern, read as a number, lies between the
smallest positive value and the largest finite one (R110). -/
def firstFailure (s : State) : Instr → RespCode
  | .prep maxblk fs =>
    if 1 ≤ maxblk ∧ maxblk ≤ s.cfg.maxcap ∧ 0x00000001 ≤ fs.toNat ∧ fs.toNat ≤ 0x7F7FFFFF then .ok else .range
  | .rel => .ok
  | .rst => if s.st ≠ .prepared then .state else .ok
  | .ldc sec k _ =>
    if s.st ≠ .prepared then .state else if sec ≥ s.cfg.nsec ∨ k ≥ 5 then .range else .ok
  | .cmt =>
    if s.st ≠ .prepared then .state
    else if ∃ v ∈ s.shdv, v.b0 = false ∨ v.b1 = false ∨ v.b2 = false ∨ v.a1 = false ∨ v.a2 = false then .nocoef
    else .ok
  | .proc nch m =>
    if s.st ≠ .prepared then .state
    else if nch = 0 ∨ nch > s.cfg.nch ∨ m > s.maxblk.toNat then .range
    else if s.av = false then .nocoef
    else .ok
  | .wrb c n _ => if c ≥ s.cfg.nch ∨ n ≥ s.cfg.maxcap then .range else .ok
  | .rdb c n => if c ≥ s.cfg.nch ∨ n ≥ s.cfg.maxcap then .range else .ok
  | .rds idx => if idx > 5 then .range else .ok

/-- The conditions of R100 under which a PROC of `nch` channels and `m` samples runs. -/
abbrev State.readyFor (s : State) (nch m : Nat) : Prop :=
  s.st = .prepared ∧ 1 ≤ nch ∧ nch ≤ s.cfg.nch ∧ m ≤ s.maxblk.toNat ∧ s.av = true

/-- The code of the response the last command sent. -/
def State.lastCode (s : State) : Option RespCode := s.out.map (·.code)

/-- The data of the response the last command sent. -/
def State.lastData (s : State) : Option (BitVec 32) := s.out.map (·.data)

end Sys2Proof.Machine
end

