-- ==== Sys2Proof/Certificates/Slice0/Obligations.lean ====
section
/-! DEFINITION. What is claimed of the model, from the numbered rules of spec/. Each docstring names the rule. -/

open Sys2Proof Sys2Proof.Machine

/-! ## Encoding and decoding -/

/-- Every command whose operands fit their fields is read back from its own word (R61 to R63, R67). -/
def Obligations.DecodeUndoesEncode : Prop :=
  ∀ i : Instr, i.wellFormed = true → decode (encode i) = .ok i

/-- A word has at most one reading, and the command read encodes to that very word: no bit is dropped (R61 to R65). -/
def Obligations.EncodeUndoesDecode : Prop :=
  ∀ (w : CmdWord) (i : Instr), decode w = .ok i → i.wellFormed = true ∧ encode i = w

/-- R65: the rows' match sets are disjoint; a word is a row's command, with the operands the word carries, exactly
when (w AND mask) = match; a word that matches no row is illegal. -/
def Obligations.DecodeFollowsTheOpcodeTable : Prop :=
  (∀ r ∈ opcodeTable, ∀ r' ∈ opcodeTable, ∀ w, r.matchesWord w = true → r'.matchesWord w = true → r = r') ∧
  (∀ w, ∀ r ∈ opcodeTable,
    (r.matchesWord w = true ↔ ∃ i, decode w = .ok i ∧ mnemonicOf i = r.mnemonic ∧ encode i = w)) ∧
  (∀ w, (∀ r ∈ opcodeTable, r.matchesWord w = false) ↔ ∃ e, decode w = .error e)

/-- The words of 95_test_vectors.md V0, written out there from the encoding, decode to the commands they stand for,
and its illegal words to none. -/
def Obligations.WordsOfTheSpecDecode : Prop :=
  decode 0x01000200472C4400#64 = .ok (.prep 512 0x472C4400#32) ∧
  decode 0x01000008473B8000#64 = .ok (.prep 8 0x473B8000#32) ∧
  decode 0x0200000000000000#64 = .ok .rel ∧
  decode 0x0300000000000000#64 = .ok .rst ∧
  decode 0x10020003BF000000#64 = .ok (.ldc 2 3 0xBF000000#32) ∧
  decode 0x1100000000000000#64 = .ok .cmt ∧
  decode 0x2002020000000000#64 = .ok (.proc 2 512) ∧
  decode 0x30010FFF3F800000#64 = .ok (.wrb 1 4095 0x3F800000#32) ∧
  decode 0x31010FFF00000000#64 = .ok (.rdb 1 4095) ∧
  decode 0x4000000500000000#64 = .ok (.rds 5) ∧
  decode 0x0000000000000000#64 = .error (.unknownOpcode 0x00#8) ∧
  decode 0xFFFFFFFFFFFFFFFF#64 = .error (.unknownOpcode 0xFF#8) ∧
  decode 0x0201000000000000#64 = .error (.fieldNotZero 0x02#8) ∧
  decode 0x2001000100000001#64 = .error (.fieldNotZero 0x20#8) ∧
  decode 0x0400000000000000#64 = .error (.unknownOpcode 0x04#8)

/-- On a byte-wide channel the byte holding bits [7:0] goes first (R44). A command word is its eight bytes: the channel's
decoder reads the same command and leaves the bytes after it (R61), and fewer than eight bytes are no command. A
response record is its five bytes, the data's four lowest first and the code last. A BUF word is its four bytes, those
BUF lists for it (log 5). -/
def Obligations.ByteChannelIsLittleEndian : Prop :=
  (∀ (w : CmdWord) (rest : List Byte) (i : Instr), decode w = .ok i →
    decodeBytes (bytesOfWord w ++ rest) = .ok (i, rest)) ∧
  (∀ (w : CmdWord) (rest : List Byte) (e : DecodeError), decode w = .error e →
    decodeBytes (bytesOfWord w ++ rest) = .error e) ∧
  (∀ bytes : List Byte, bytes.length < 8 → decodeBytes bytes = .error .truncated) ∧
  (∀ w : CmdWord, (bytesOfWord w)[0]? = some (w.extractLsb' 0 8) ∧ (bytesOfWord w)[7]? = some (fieldOp w)) ∧
  (∀ r : Response, ∃ b0 b1 b2 b3, r.bytes = [b0, b1, b2, b3, r.code.bits] ∧ b0 = r.data.extractLsb' 0 8 ∧
    f32OfBytes b0 b1 b2 b3 = r.data) ∧
  (∀ v : F32, ∃ b0 b1 b2 b3, bytesOfF32 v = [b0, b1, b2, b3] ∧ b0 = v.extractLsb' 0 8 ∧
    f32OfBytes b0 b1 b2 b3 = v) ∧
  (∀ (s : State) (c n : Nat), bytesOfF32 (s.bufWord c n) =
    [s.bufByte (4 * wordAddr s.cfg c n), s.bufByte (4 * wordAddr s.cfg c n + 1),
     s.bufByte (4 * wordAddr s.cfg c n + 2), s.bufByte (4 * wordAddr s.cfg c n + 3)])

/-- R67's example and V0's words come out of the assembler, decimal literals rounded to nearest. -/
def Obligations.AssemblerGivesTheSpecsWords : Prop :=
  assembleLine "LDC 2, 3, -0.5".toList = some [0x10020003BF000000#64] ∧
  assembleLine "PREP 512, 44100.0".toList = some [0x01000200472C4400#64] ∧
  assembleLine "WRB 1, 4095, 0x3F800000 ; the last word".toList = some [0x30010FFF3F800000#64] ∧
  assembleLine "IDENT 1".toList = some [0x100100003F800000#64, 0x1001000100000000#64, 0x1001000200000000#64,
    0x1001000300000000#64, 0x1001000400000000#64] ∧
  assembleLine "RDBLK 0, 2, 2".toList = some [0x3100000200000000#64, 0x3100000300000000#64]

/-! ## The command port and the whole machine -/

/-- A command word that decodes runs exactly that command's meaning: the step takes the word off the port, raises
`busy`, and does nothing else (R48, R60, R151). -/
def Obligations.StepRunsTheDecodedCommand : Prop :=
  ∀ (s : State) (w : CmdWord) (rest : List HostEvent) (i : Instr),
    s.port = .command w :: rest → decode w = .ok i → step s = exec i { s with port := rest, busy := true }

/-- With nothing presented the block waits; the direct BUF port acts as WRB and RDB do (R46, R48, R171; log 8,
log 14). -/
def Obligations.StepWaitsOrServesTheDirectPort : Prop :=
  ∀ s : State,
    (s.port = [] → step s = .next s) ∧
    (∀ c n v rest, s.port = .directWrite c n v :: rest →
      step s = exec (.wrb c n v) { s with port := rest, busy := true }) ∧
    (∀ c n rest, s.port = .directRead c n :: rest →
      step s = exec (.rdb c n) { s with port := rest, busy := true })

/-- R64: an illegal word answers E_OPC and changes nothing but ERR; every other word is one of the nine commands, and
from a good state answers by the checks that follow decoding, never E_OPC. -/
def Obligations.IllegalWordAnswersEOpc : Prop :=
  ∀ (s : State) (w : CmdWord) (rest : List HostEvent), s.port = .command w :: rest →
    (illegalWord w → step s = .next { s with
      port := rest, err := if s.err = 0#8 then 1#8 else s.err, out := some ⟨.opc, 0#32⟩, busy := false }) ∧
    (¬ illegalWord w → s.Good → ∃ i t, decode w = .ok i ∧ step s = .next t ∧
      t.lastCode = some (firstFailure s i) ∧ t.lastCode ≠ some .opc)

/-- R171: hardware reset, between two commands or in the middle of one, leaves the values R171 gives. SHD, ACT, Z and
BUF have no given value, so nothing is said of them. -/
def Obligations.HardwareResetGivesTheResetValues : Prop :=
  ∀ (s : State) (w : CmdWord) (rest : List HostEvent),
    (s.port = .hardReset :: rest ∨ s.port = .cutShort w :: rest) →
    ∃ t, step s = .next t ∧ t.st = .unprepared ∧ t.err = 0#8 ∧ t.fs = 0#32 ∧ t.maxblk = 0#16 ∧
      t.shdv = List.replicate s.cfg.nsec ⟨false, false, false, false, false⟩ ∧ t.av = false ∧ t.cfg = s.cfg

/-- Hardware reset sends no response, not even for the command it cuts short (R172; the empty record is log 9's choice,
the idle `busy` log 10's), takes one event off the port (log 8), and leaves every byte of BUF a free value, a new one
after each reset (U3, U4; log 4, log 11). -/
def Obligations.HardwareResetSendsNoResponse : Prop :=
  ∀ (s : State) (w : CmdWord) (rest : List HostEvent),
    (s.port = .hardReset :: rest ∨ s.port = .cutShort w :: rest) →
    ∃ t, step s = .next t ∧ t.out = none ∧ t.busy = false ∧ t.port = rest ∧
      ∀ a, t.bufByte a = Config.unwrittenByte (s.era + 1) a

/-- The state after hardware reset, in every legal configuration, has the values of R171 and is a good state; the
host's reset state is that of the reference configuration (R6; that the configuration stands in State is log 1's
choice). -/
def Obligations.ResetStateIsGood : Prop :=
  (∀ p : Params, (State.resetWith p).Good ∧ (State.resetWith p).st = .unprepared ∧ (State.resetWith p).err = 0#8 ∧
    (State.resetWith p).fs = 0#32 ∧ (State.resetWith p).maxblk = 0#16 ∧ (State.resetWith p).av = false ∧
    (State.resetWith p).allStaged = false) ∧
  Host.Core.reset Sys2Proof.core = State.resetWith Params.reference

/-- R6: the build parameters lie in their legal ranges and no step changes them; the reference configuration is
NSEC 4, NCH 2, MAXCAP 4096. -/
def Obligations.BuildParametersNeverChange : Prop :=
  (∀ s t : State, step s = .next t → t.cfg = s.cfg) ∧
  (∀ s : State, (3 ≤ s.cfg.nsec ∧ s.cfg.nsec ≤ 5) ∧ (1 ≤ s.cfg.nch ∧ s.cfg.nch ≤ 255) ∧
    (1 ≤ s.cfg.maxcap ∧ s.cfg.maxcap ≤ 65535)) ∧
  (State.reset.cfg.nsec = 4 ∧ State.reset.cfg.nch = 2 ∧ State.reset.cfg.maxcap = 4096)

/-- Every step keeps the good states: the lifecycle, the registers, the banks' shapes, AV implying SHDV, and BUF's
whole words in the canonical form (R10, R11, R14, R15, R25, R42, R93 (d); that BUF is kept as bytes is log 5's choice). -/
def Obligations.StepKeepsGoodStates : Prop :=
  ∀ s t : State, s.Good → step s = .next t → t.Good

/-- From a good state no step stops, and every command ends with one response and a port ready for the next (R157,
R185). -/
def Obligations.GoodStatesNeverStop : Prop :=
  ∀ s : State, s.Good →
    (∃ t, step s = .next t) ∧
    (∀ w rest, s.port = .command w :: rest →
      ∃ t r, step s = .next t ∧ t.out = some r ∧ t.busy = false ∧ t.port = rest)

/-- R145: a command whose response is not OK has performed none of its writes: only ERR (and only if it was 0) and the
response differ, the data is zero, and the block is ready for the next command. -/
def Obligations.FailedCommandChangesOnlyErr : Prop :=
  ∀ (s t : State) (w : CmdWord) (rest : List HostEvent) (r : Response),
    s.port = .command w :: rest → step s = .next t → t.out = some r → r.code ≠ .ok →
    r.data = 0#32 ∧
    t = { s with
      port := rest, err := if s.err = 0#8 then r.code.bits else s.err, out := some r, busy := false }

/-- R12: ERR takes the code of the first command that fails and then keeps it; a command that completes leaves it; only
hardware reset clears it; its reset value is 0. -/
def Obligations.ErrHoldsTheFirstFailure : Prop :=
  (∀ (s t : State) (w : CmdWord) (rest : List HostEvent) (r : Response),
    s.port = .command w :: rest → step s = .next t → t.out = some r →
    t.err = if s.err = 0#8 ∧ r.code ≠ .ok then r.code.bits else s.err) ∧
  (∀ s t : State, step s = .next t → s.err ≠ 0#8 → t.err ≠ s.err →
    t.err = 0#8 ∧ ∃ rest, s.port = .hardReset :: rest ∨ ∃ w, s.port = .cutShort w :: rest) ∧
  State.reset.err = 0#8

/-- R66: the response record carries `code` in bits [39:32] and `data` in bits [31:0]; `data` is the word read for a
successful RDB or RDS and zero in every other case. -/
def Obligations.ResponseDataIsTheWordRead : Prop :=
  ∀ (s t : State) (w : CmdWord) (rest : List HostEvent) (r : Response),
    s.port = .command w :: rest → step s = .next t → t.out = some r →
    (∀ c n, decode w = .ok (.rdb c n) → r.code = .ok → r.data = s.bufWord c n) ∧
    (∀ idx, decode w = .ok (.rds idx) → r.code = .ok → some r.data = statusWord s idx) ∧
    ((r.code ≠ .ok ∨ ((∀ c n, decode w ≠ .ok (.rdb c n)) ∧ (∀ idx, decode w ≠ .ok (.rds idx)))) → r.data = 0#32) ∧
    (r.bits.extractLsb' 32 8 = r.code.bits ∧ r.bits.extractLsb' 0 32 = r.data)

/-- R86: where each command leaves ST from each state a command can find, and E_STATE where the table says so. -/
def Obligations.LifecycleFollowsTheTable : Prop :=
  ∀ s : State, s.Good →
    (∀ b fs, 1 ≤ b → b ≤ s.cfg.maxcap → 0x00000001 ≤ fs.toNat → fs.toNat ≤ 0x7F7FFFFF →
      ∃ t, exec (.prep b fs) s = .next t ∧ t.st = .prepared ∧ t.lastCode = some .ok) ∧
    (∃ t, exec .rel s = .next t ∧ t.st = .released ∧ t.lastCode = some .ok) ∧
    (∀ i, i = .rst ∨ i = .cmt ∨ (∃ sec k v, i = .ldc sec k v) ∨ (∃ nch m, i = .proc nch m) →
      ∃ t, exec i s = .next t ∧ t.st = s.st ∧ (s.st ≠ .prepared ↔ t.lastCode = some .state)) ∧
    (∀ i, (∃ c n v, i = .wrb c n v) ∨ (∃ c n, i = .rdb c n) ∨ (∃ idx, i = .rds idx) →
      ∃ t, exec i s = .next t ∧ t.st = s.st ∧ t.lastCode ≠ some .state)

/-- R144 (with R141's codes): decode, lifecycle state, operand ranges, coefficient validity; the first check that fails
decides the code. -/
def Obligations.FirstFailingCheckDecidesTheCode : Prop :=
  ∀ (s : State) (w : CmdWord) (rest : List HostEvent), s.Good → s.port = .command w :: rest →
    ∃ t, step s = .next t ∧
      (∀ e, decode w = .error e → t.lastCode = some .opc) ∧
      (∀ i, decode w = .ok i → t.lastCode = some (firstFailure s i))

/-- R40: BUF[c][n] stands at word address c × MAXCAP + n, whatever was prepared; no two words share an address, and none
reaches NCH × MAXCAP, which is below 2^24, so nothing wraps. -/
def Obligations.BufWordsHaveTheirOwnAddresses : Prop :=
  ∀ (p : Params) (c n c' n' : Nat), c < p.nch → n < p.maxcap → c' < p.nch → n' < p.maxcap →
    wordAddr p c n = c * p.maxcap + n ∧ wordAddr p c n < p.nch * p.maxcap ∧ p.nch * p.maxcap < 2 ^ 24 ∧
    (wordAddr p c n = wordAddr p c' n' → c = c' ∧ n = n') ∧
    (∀ wa, wa < p.nch * p.maxcap → ∃ d k, d < p.nch ∧ k < p.maxcap ∧ wordAddr p d k = wa)

/-- R47: WRB writes its one word, PROC the words (c, n) with c < N and n < M, no other command writes BUF; every word is
writable and readable in every lifecycle state. -/
def Obligations.OnlyWrbAndProcWriteBuf : Prop :=
  (∀ (s t : State) (i : Instr), exec i s = .next t →
    (∀ c n v, i = .wrb c n v → ∀ a, a / 4 ≠ wordAddr s.cfg c n → t.bufByte a = s.bufByte a) ∧
    (∀ nch m, i = .proc nch m →
      ∀ a, (∀ c < nch, ∀ n < m, a / 4 ≠ wordAddr s.cfg c n) → t.bufByte a = s.bufByte a) ∧
    ((∀ c n v, i ≠ .wrb c n v) → (∀ nch m, i ≠ .proc nch m) → ∀ a, t.bufByte a = s.bufByte a)) ∧
  (∀ (s : State) (c n : Nat) (v : F32), c < s.cfg.nch → n < s.cfg.maxcap →
    (∃ t, exec (.wrb c n v) s = .next t ∧ t.lastCode = some .ok ∧ t.bufWord c n = v) ∧
    (∃ t, exec (.rdb c n) s = .next t ∧ t.out = some ⟨.ok, s.bufWord c n⟩))

/-- While a committed set stays committed, only CMT changes it: all NSEC × 5 words at once, to the staging bank's
(R18, R52). -/
def Obligations.OnlyCmtChangesTheActiveBank : Prop :=
  ∀ (s t : State) (i : Instr), exec i s = .next t → s.av = true → t.av = true →
    t.act = s.act ∨ (i = .cmt ∧ t.act = s.shd)

/-! ## The lifecycle commands -/

/-- R80: PREP with operands in range configures the block and resets all filter state; with an operand out of range it
answers E_RANGE and changes only ERR; a word with `a` ≠ 0 is illegal. A rate is positive and finite exactly when its
pattern, read as a number, lies between the smallest positive value's and the largest finite value's (R110). -/
def Obligations.PrepConfiguresTheBlock : Prop :=
  (∀ (s : State) (b : Nat) (fs : F32),
    1 ≤ b → b ≤ s.cfg.maxcap → 0x00000001 ≤ fs.toNat → fs.toNat ≤ 0x7F7FFFFF →
    ∃ t, exec (.prep b fs) s = .next t ∧
      t = { s with
        st := .prepared, fs := fs, maxblk := t.maxblk,
        shdv := List.replicate s.cfg.nsec ⟨false, false, false, false, false⟩, av := false,
        z := List.replicate s.cfg.nsec (List.replicate s.cfg.nch ⟨0#32, 0#32⟩),
        shd := t.shd, act := t.act, draws := t.draws, out := some ⟨.ok, 0#32⟩, busy := false } ∧
      t.maxblk.toNat = b ∧ (∀ sec c, t.delay sec c = ⟨0#32, 0#32⟩) ∧ (∀ a, t.bufByte a = s.bufByte a)) ∧
  (∀ (s : State) (b : Nat) (fs : F32),
    ¬ (1 ≤ b ∧ b ≤ s.cfg.maxcap ∧ 0x00000001 ≤ fs.toNat ∧ fs.toNat ≤ 0x7F7FFFFF) →
    exec (.prep b fs) s = .next { s with
      err := if s.err = 0#8 then 3#8 else s.err, out := some ⟨.range, 0#32⟩, busy := false }) ∧
  (∀ (a : BitVec 8) (b : BitVec 16) (imm : BitVec 32),
    decode (packFields 0x01#8 a b imm) =
      if a = 0#8 then .ok (.prep b.toNat imm) else .error (.fieldNotZero 0x01#8))

/-- R82: REL tears the block down from every state: ST 3, FS and MAXBLK zero, every valid bit and AV clear; BUF and ERR
stay (R83 (a)); the words of SHD, ACT and Z have no value and nothing is said of them; the only legal word is
0x0200000000000000. -/
def Obligations.RelTearsTheBlockDown : Prop :=
  (∀ s : State, ∃ t, exec .rel s = .next t ∧
    t = { s with
      st := .released, fs := 0#32, maxblk := 0#16,
      shdv := List.replicate s.cfg.nsec ⟨false, false, false, false, false⟩, av := false,
      shd := t.shd, act := t.act, z := t.z, draws := t.draws, out := some ⟨.ok, 0#32⟩, busy := false } ∧
    (∀ a, t.bufByte a = s.bufByte a)) ∧
  (∀ w, decode w = .ok .rel ↔ w = 0x0200000000000000#64)

/-- R84: RST in Prepared sets every delay element to +0.0 and changes nothing else; in Unprepared and Released it
answers E_STATE; the only legal word is 0x0300000000000000. -/
def Obligations.RstClearsTheDelayElements : Prop :=
  (∀ s : State, s.st = .prepared → ∃ t, exec .rst s = .next t ∧
    t = { s with z := t.z, out := some ⟨.ok, 0#32⟩, busy := false } ∧
    (∀ sec c, t.delay sec c = ⟨0#32, 0#32⟩) ∧ (∀ a, t.bufByte a = s.bufByte a)) ∧
  (∀ s : State, s.st ≠ .prepared → exec .rst s = .next { s with
    err := if s.err = 0#8 then 2#8 else s.err, out := some ⟨.state, 0#32⟩, busy := false }) ∧
  (∀ w, decode w = .ok .rst ↔ w = 0x0300000000000000#64)

/-! ## The coefficient commands -/

/-- R90: LDC in Prepared with a section below NSEC and an index below 5 writes that staging word and sets its valid bit,
whatever the value, and touches nothing else; out of range E_RANGE, in another state E_STATE; every word with its `op`
is legal. -/
def Obligations.LdcStagesOneCoefficient : Prop :=
  (∀ (s : State) (sec : Nat) (ix : CoefIx) (v : F32),
    s.Good → s.st = .prepared → sec < s.cfg.nsec →
    ∃ t, exec (.ldc sec ix.index v) s = .next t ∧
      t = { s with shd := t.shd, shdv := t.shdv, out := some ⟨.ok, 0#32⟩, busy := false } ∧
      t.stagedWord sec ix = some v ∧ t.stagedValid sec ix = some true ∧
      (∀ sec' ix', (sec' ≠ sec ∨ ix' ≠ ix) →
        t.stagedWord sec' ix' = s.stagedWord sec' ix' ∧ t.stagedValid sec' ix' = s.stagedValid sec' ix') ∧
      (∀ a, t.bufByte a = s.bufByte a)) ∧
  (∀ (s : State) (sec k : Nat) (v : F32), s.st = .prepared → (sec ≥ s.cfg.nsec ∨ k ≥ 5) →
    exec (.ldc sec k v) s = .next { s with
      err := if s.err = 0#8 then 3#8 else s.err, out := some ⟨.range, 0#32⟩, busy := false }) ∧
  (∀ (s : State) (sec k : Nat) (v : F32), s.st ≠ .prepared →
    exec (.ldc sec k v) s = .next { s with
      err := if s.err = 0#8 then 2#8 else s.err, out := some ⟨.state, 0#32⟩, busy := false }) ∧
  (∀ (a : BitVec 8) (b : BitVec 16) (imm : BitVec 32),
    decode (packFields 0x10#8 a b imm) = .ok (.ldc a.toNat b.toNat imm))

/-- R92: CMT in Prepared with every staging word written makes the whole staging bank active at once and touches
neither Z nor SHD nor SHDV nor BUF; with one missing it answers E_NOCOEF, in another state E_STATE; the only legal
word is 0x1100000000000000. -/
def Obligations.CmtCommitsTheWholeBank : Prop :=
  (∀ s : State, s.st = .prepared →
    (∀ v ∈ s.shdv, v.b0 = true ∧ v.b1 = true ∧ v.b2 = true ∧ v.a1 = true ∧ v.a2 = true) →
    exec .cmt s = .next { s with act := s.shd, av := true, out := some ⟨.ok, 0#32⟩, busy := false }) ∧
  (∀ s : State, s.st = .prepared →
    (∃ v ∈ s.shdv, v.b0 = false ∨ v.b1 = false ∨ v.b2 = false ∨ v.a1 = false ∨ v.a2 = false) →
    exec .cmt s = .next { s with
      err := if s.err = 0#8 then 4#8 else s.err, out := some ⟨.nocoef, 0#32⟩, busy := false }) ∧
  (∀ s : State, s.st ≠ .prepared → exec .cmt s = .next { s with
    err := if s.err = 0#8 then 2#8 else s.err, out := some ⟨.state, 0#32⟩, busy := false }) ∧
  (∀ w, decode w = .ok .cmt ↔ w = 0x1100000000000000#64)

/-- A PROC leaves the same words in BUF and Z, up to the payload of NaNs, and gives the same answer, whether or not an
LDC came just before it: staged coefficients are inert until a CMT (R51, R176; R115). -/
def Obligations.StagedCoefficientsAreInert : Prop :=
  ∀ (s s' t t' : State) (sec k : Nat) (v : F32) (nch m : Nat), s.Good →
    exec (.ldc sec k v) s = .next s' → exec (.proc nch m) s = .next t → exec (.proc nch m) s' = .next t' →
    (∀ c < s.cfg.nch, ∀ n < s.cfg.maxcap, wordsAgree (t.bufWord c n) (t'.bufWord c n)) ∧
    (∀ sec' < s.cfg.nsec, ∀ c < s.cfg.nch, delaysAgree (t.delay sec' c) (t'.delay sec' c)) ∧
    t'.lastCode = t.lastCode

/-- In the state a successful PREP leaves, every PROC with operands in range and CMT answer E_NOCOEF (R81 (b), R177). -/
def Obligations.PrepForgetsTheCoefficients : Prop :=
  ∀ (s t : State) (b : Nat) (fs : F32), exec (.prep b fs) s = .next t → t.lastCode = some .ok →
    (∀ nch m, 1 ≤ nch → nch ≤ s.cfg.nch → m ≤ b →
      ∃ u, exec (.proc nch m) t = .next u ∧ u.lastCode = some .nocoef) ∧
    (∃ u, exec .cmt t = .next u ∧ u.lastCode = some .nocoef)

/-- The way back from there is one: a step that raises AV runs a CMT, with every staging word's valid bit set, and a step
that sets the valid bit of (s, k) runs an LDC of that very (s, k), which writes the word it carries (R17, R18, R81 (b),
R177). -/
def Obligations.CoefficientsComeOnlyByLdcAndCmt : Prop :=
  ∀ s t : State, step s = .next t →
    (s.av = false → t.av = true →
      ∃ w rest, s.port = .command w :: rest ∧ decode w = .ok .cmt ∧ s.allStaged = true ∧ t.act = s.shd) ∧
    (∀ sec ix, s.stagedValid sec ix = some false → t.stagedValid sec ix = some true →
      ∃ w rest v, s.port = .command w :: rest ∧ decode w = .ok (.ldc sec ix.index v) ∧
        (sec < s.shd.length → t.stagedWord sec ix = some v))

/-! ## PROC -/

/-- R101: when the checks of R100 pass, PROC answers OK with ST Prepared, and for every channel c < N the words n < M
are the input samples passed through sections 0 to NSEC-1 in that order, each section starting from its own delay
elements and leaving those of the last sample; equality is up to the payload of NaNs (R115). Nothing but BUF, Z, the
draw counter and the response changes. -/
def Obligations.ProcFiltersEveryChannel : Prop :=
  ∀ (s : State) (nch m : Nat), s.Good → s.readyFor nch m →
    ∃ t, exec (.proc nch m) s = .next t ∧
      t = { s with z := t.z, buf := t.buf, draws := t.draws, out := some ⟨.ok, 0#32⟩, busy := false } ∧
      ∀ c < nch,
        listsAgree (t.channelSamples c m) (cascadeRun (s.channelSections c) (s.channelSamples c m)).1 ∧
        List.Forall₂ delaysAgree ((List.range s.cfg.nsec).map fun sec => t.delay sec c)
          (cascadeRun (s.channelSections c) (s.channelSamples c m)).2

/-- R100: the checks of PROC in their order, each with its code; a failing PROC writes nothing but ERR; a word with
`imm` ≠ 0 is illegal. -/
def Obligations.ProcChecksBeforeItRuns : Prop :=
  (∀ (s : State) (nch m : Nat), s.Good →
    (s.st ≠ .prepared → exec (.proc nch m) s = .next { s with
      err := if s.err = 0#8 then 2#8 else s.err, out := some ⟨.state, 0#32⟩, busy := false }) ∧
    (s.st = .prepared → (nch = 0 ∨ nch > s.cfg.nch ∨ m > s.maxblk.toNat) →
      exec (.proc nch m) s = .next { s with
        err := if s.err = 0#8 then 3#8 else s.err, out := some ⟨.range, 0#32⟩, busy := false }) ∧
    (s.st = .prepared → ¬ (nch = 0 ∨ nch > s.cfg.nch ∨ m > s.maxblk.toNat) → s.av = false →
      exec (.proc nch m) s = .next { s with
        err := if s.err = 0#8 then 4#8 else s.err, out := some ⟨.nocoef, 0#32⟩, busy := false }) ∧
    (s.readyFor nch m → ∃ t, exec (.proc nch m) s = .next t ∧ t.lastCode = some .ok ∧ t.err = s.err)) ∧
  (∀ (a : BitVec 8) (b : BitVec 16) (imm : BitVec 32),
    decode (packFields 0x20#8 a b imm) =
      if imm = 0#32 then .ok (.proc a.toNat b.toNat) else .error (.fieldNotZero 0x20#8))

/-- The frame of PROC: channels N and above keep their BUF words and delay elements, words n ≥ M of every channel are
untouched, and ACT, SHD, the valid bits, FS, MAXBLK and ERR stay (R102 (b), (c), (e)). -/
def Obligations.ProcLeavesTheRestAlone : Prop :=
  ∀ (s t : State) (nch m : Nat), s.Good → exec (.proc nch m) s = .next t → t.lastCode = some .ok →
    (∀ sec c, nch ≤ c → t.delay sec c = s.delay sec c) ∧
    (∀ a, (∀ c < nch, ∀ n < m, a / 4 ≠ wordAddr s.cfg c n) → t.bufByte a = s.bufByte a) ∧
    (t.st = .prepared ∧ t.err = s.err ∧ t.fs = s.fs ∧ t.maxblk = s.maxblk ∧ t.shd = s.shd ∧ t.shdv = s.shdv ∧
      t.act = s.act ∧ t.av = s.av ∧ t.port = s.port)

/-- An empty block runs nothing: BUF and Z are unchanged and the answer is OK (R102 (a)). -/
def Obligations.ProcOfAnEmptyBlockChangesNothing : Prop :=
  ∀ (s : State) (nch : Nat), s.readyFor nch 0 →
    exec (.proc nch 0) s = .next { s with out := some ⟨.ok, 0#32⟩, busy := false }

/-- Channels are independent: what a PROC leaves of channel `c` depends only on ACT and on channel `c`'s own samples and
delay elements, whatever the other channels hold, up to the payload of NaNs (R107, R118). -/
def Obligations.ChannelsAreIndependent : Prop :=
  ∀ (s s' t t' : State) (nch nch' m c : Nat),
    s.Good → s'.Good → s'.cfg = s.cfg → s'.act = s.act → s.readyFor nch m → s'.readyFor nch' m →
    c < nch → c < nch' →
    (∀ n < m, wordsAgree (s.bufWord c n) (s'.bufWord c n)) →
    (∀ sec < s.cfg.nsec, delaysAgree (s.delay sec c) (s'.delay sec c)) →
    exec (.proc nch m) s = .next t → exec (.proc nch' m) s' = .next t' →
    (∀ n < m, wordsAgree (t.bufWord c n) (t'.bufWord c n)) ∧
    (∀ sec < s.cfg.nsec, delaysAgree (t.delay sec c) (t'.delay sec c))

/-- The filter adds no delay in samples and looks at no later sample: two PROCs whose blocks agree on channel `c`'s
first `k` samples, whatever follows and however long the blocks are, agree on its first `k` outputs, up to the payload
of NaNs (R120, R118). -/
def Obligations.OutputsDependOnEarlierSamplesOnly : Prop :=
  ∀ (s s' t t' : State) (nch nch' m m' c k : Nat),
    s.Good → s'.Good → s'.cfg = s.cfg → s'.act = s.act → s.readyFor nch m → s'.readyFor nch' m' →
    c < nch → c < nch' → k ≤ m → k ≤ m' →
    (∀ n < k, wordsAgree (s.bufWord c n) (s'.bufWord c n)) →
    (∀ sec < s.cfg.nsec, delaysAgree (s.delay sec c) (s'.delay sec c)) →
    exec (.proc nch m) s = .next t → exec (.proc nch' m') s' = .next t' →
    ∀ n < k, wordsAgree (t.bufWord c n) (t'.bufWord c n)

/-- Block boundaries are invisible: a block of M1 + M2 samples gives the outputs and the delay elements of a block of
M1 followed by a block of M2, the host moving the data, up to the payload of NaNs (R108). -/
def Obligations.BlockBoundariesAreInvisible : Prop :=
  ∀ (s t t1 u t2 : State) (nch m1 m2 : Nat),
    s.Good → s.readyFor nch (m1 + m2) →
    exec (.proc nch (m1 + m2)) s = .next t →
    exec (.proc nch m1) s = .next t1 →
    u.Good → u.cfg = t1.cfg → u.st = t1.st → u.maxblk = t1.maxblk → u.av = t1.av → u.act = t1.act → u.z = t1.z →
    (∀ c < nch, ∀ n < m2, u.bufWord c n = s.bufWord c (m1 + n)) →
    exec (.proc nch m2) u = .next t2 →
    ∀ c < nch,
      (∀ n < m1, wordsAgree (t.bufWord c n) (t1.bufWord c n)) ∧
      (∀ n < m2, wordsAgree (t.bufWord c (m1 + n)) (t2.bufWord c n)) ∧
      (∀ sec < s.cfg.nsec, delaysAgree (t.delay sec c) (t2.delay sec c))

/-- Whatever brings it there, a NaN in a section's output puts a NaN into both of its delay elements in the same step,
and an infinity puts an infinity or a NaN into both; what is in the first delay element is in the next output, and a NaN
or an infinity in the input is in the output (R116). -/
def Obligations.NonFiniteOutputEntersTheState : Prop :=
  ∀ (d : Nat) (k : Five F32) (z : Delay) (x : F32),
    (isNaN (sectionStep (fun j => freshNaN (d + j)) k z x).1 = true →
      isNaN (sectionStep (fun j => freshNaN (d + j)) k z x).2.z1 = true ∧
      isNaN (sectionStep (fun j => freshNaN (d + j)) k z x).2.z2 = true) ∧
    (isFinite (sectionStep (fun j => freshNaN (d + j)) k z x).1 = false →
      isFinite (sectionStep (fun j => freshNaN (d + j)) k z x).2.z1 = false ∧
      isFinite (sectionStep (fun j => freshNaN (d + j)) k z x).2.z2 = false) ∧
    ((isNaN x = true ∨ isNaN z.z1 = true) → isNaN (sectionStep (fun j => freshNaN (d + j)) k z x).1 = true) ∧
    ((isFinite x = false ∨ isFinite z.z1 = false) →
      isFinite (sectionStep (fun j => freshNaN (d + j)) k z x).1 = false)

/-- Non-finite state persists through a PROC (R116, R179). A NaN in the first delay element of any section makes every
output of that channel a NaN and leaves that section's delay elements NaN; in the second one it does so from the
sample after the first on, and is in the first one after one sample; in input sample `k` it makes outputs `k` and later
NaN and leaves the delay elements of every section of that channel NaN. With an infinity in the place of the NaN all of
these are infinite or NaN. -/
def Obligations.NonFiniteStatePersists : Prop :=
  ∀ (s t : State) (nch m c sec : Nat),
    s.Good → s.readyFor nch m → c < nch → sec < s.cfg.nsec → exec (.proc nch m) s = .next t →
    (isNaN (s.delay sec c).z1 = true →
      (∀ n < m, isNaN (t.bufWord c n) = true) ∧
      (1 ≤ m → isNaN (t.delay sec c).z1 = true ∧ isNaN (t.delay sec c).z2 = true)) ∧
    (isFinite (s.delay sec c).z1 = false →
      (∀ n < m, isFinite (t.bufWord c n) = false) ∧
      (1 ≤ m → isFinite (t.delay sec c).z1 = false ∧ isFinite (t.delay sec c).z2 = false)) ∧
    (isNaN (s.delay sec c).z2 = true →
      (∀ n < m, 1 ≤ n → isNaN (t.bufWord c n) = true) ∧
      (1 ≤ m → isNaN (t.delay sec c).z1 = true) ∧ (2 ≤ m → isNaN (t.delay sec c).z2 = true)) ∧
    (isFinite (s.delay sec c).z2 = false →
      (∀ n < m, 1 ≤ n → isFinite (t.bufWord c n) = false) ∧
      (1 ≤ m → isFinite (t.delay sec c).z1 = false) ∧ (2 ≤ m → isFinite (t.delay sec c).z2 = false)) ∧
    (∀ k < m, isNaN (s.bufWord c k) = true →
      (∀ n < m, k ≤ n → isNaN (t.bufWord c n) = true) ∧
      isNaN (t.delay sec c).z1 = true ∧ isNaN (t.delay sec c).z2 = true) ∧
    (∀ k < m, isFinite (s.bufWord c k) = false →
      (∀ n < m, k ≤ n → isFinite (t.bufWord c n) = false) ∧
      isFinite (t.delay sec c).z1 = false ∧ isFinite (t.delay sec c).z2 = false)

/-- Non-finite state is permanent: a step after which a non-finite first delay element is finite, or a NaN there is none,
runs a PREP, an RST or a REL (whose delay elements have no value) or is a hardware reset (R85 (b), R116, R179). -/
def Obligations.NonFiniteStateLeavesOnlyByReset : Prop :=
  ∀ (s t : State) (sec c : Nat), s.Good → step s = .next t → sec < s.cfg.nsec → c < s.cfg.nch →
    ((isNaN (s.delay sec c).z1 = true ∧ isNaN (t.delay sec c).z1 = false) ∨
      (isFinite (s.delay sec c).z1 = false ∧ isFinite (t.delay sec c).z1 = true)) →
    ∃ e rest, s.port = e :: rest ∧
      (e = .hardReset ∨ (∃ w, e = .cutShort w) ∨
        ∃ w i, e = .command w ∧ decode w = .ok i ∧ ((∃ b fs, i = .prep b fs) ∨ i = .rst ∨ i = .rel))

/-- Silence: zero delay elements, finite active coefficients and a block of zeros, of either sign, give zeros and leave
zeros; with +0 everywhere and no coefficient's sign bit set, all of them are +0 (R121). -/
def Obligations.SilenceGivesSilence : Prop :=
  ∀ (s t : State) (nch m : Nat),
    s.Good → s.readyFor nch m →
    (∀ sec < s.cfg.nsec, ∀ ix, isFinite ((s.activeCoefs sec).get ix) = true) →
    exec (.proc nch m) s = .next t →
    ((∀ c < nch, ∀ n < m, isZero (s.bufWord c n) = true) →
      (∀ sec < s.cfg.nsec, ∀ c < nch, isZero (s.delay sec c).z1 = true ∧ isZero (s.delay sec c).z2 = true) →
      (∀ c < nch, ∀ n < m, isZero (t.bufWord c n) = true) ∧
      (∀ sec < s.cfg.nsec, ∀ c < nch, isZero (t.delay sec c).z1 = true ∧ isZero (t.delay sec c).z2 = true)) ∧
    ((∀ sec < s.cfg.nsec, ∀ ix, signBit ((s.activeCoefs sec).get ix) = false) →
      (∀ c < nch, ∀ n < m, s.bufWord c n = 0#32) →
      (∀ sec < s.cfg.nsec, ∀ c < nch, s.delay sec c = ⟨0#32, 0#32⟩) →
      (∀ c < nch, ∀ n < m, t.bufWord c n = 0#32) ∧
      (∀ sec < s.cfg.nsec, ∀ c < nch, t.delay sec c = ⟨0#32, 0#32⟩))

/-! ## The buffer and status commands -/

/-- R130: WRB stores its word bit for bit, in every lifecycle state, and touches nothing but that word; outside
c < NCH, n < MAXCAP it answers E_RANGE; every word with its `op` is legal. -/
def Obligations.WrbWritesOneWord : Prop :=
  (∀ (s : State) (c n : Nat) (v : F32), c < s.cfg.nch → n < s.cfg.maxcap →
    ∃ t, exec (.wrb c n v) s = .next t ∧
      t = { s with buf := t.buf, out := some ⟨.ok, 0#32⟩, busy := false } ∧
      t.bufWord c n = v ∧ (∀ a, a / 4 ≠ wordAddr s.cfg c n → t.bufByte a = s.bufByte a)) ∧
  (∀ (s : State) (c n : Nat) (v : F32), (c ≥ s.cfg.nch ∨ n ≥ s.cfg.maxcap) →
    exec (.wrb c n v) s = .next { s with
      err := if s.err = 0#8 then 3#8 else s.err, out := some ⟨.range, 0#32⟩, busy := false }) ∧
  (∀ (a : BitVec 8) (b : BitVec 16) (imm : BitVec 32),
    decode (packFields 0x30#8 a b imm) = .ok (.wrb a.toNat b.toNat imm))

/-- R132: RDB answers the word and writes no state, in every lifecycle state; outside c < NCH, n < MAXCAP it answers
E_RANGE; a word with `imm` ≠ 0 is illegal. -/
def Obligations.RdbAnswersTheWord : Prop :=
  (∀ (s : State) (c n : Nat), c < s.cfg.nch → n < s.cfg.maxcap →
    exec (.rdb c n) s = .next { s with out := some ⟨.ok, s.bufWord c n⟩, busy := false }) ∧
  (∀ (s : State) (c n : Nat), (c ≥ s.cfg.nch ∨ n ≥ s.cfg.maxcap) →
    exec (.rdb c n) s = .next { s with
      err := if s.err = 0#8 then 3#8 else s.err, out := some ⟨.range, 0#32⟩, busy := false }) ∧
  (∀ (a : BitVec 8) (b : BitVec 16) (imm : BitVec 32),
    decode (packFields 0x31#8 a b imm) =
      if imm = 0#32 then .ok (.rdb a.toNat b.toNat) else .error (.fieldNotZero 0x31#8))

/-- A word written is the word read back, bit for bit, and every other word of BUF reads as before (R40, R49, R131,
R133 (b)). -/
def Obligations.WrittenWordIsReadBack : Prop :=
  ∀ (s t u : State) (c n c' n' : Nat) (v : F32),
    c < s.cfg.nch → n < s.cfg.maxcap → c' < s.cfg.nch → n' < s.cfg.maxcap →
    exec (.wrb c n v) s = .next t → exec (.rdb c' n') t = .next u →
    u.lastData = some (if c' = c ∧ n' = n then v else s.bufWord c' n')

/-- R134 (with R21's layout): the six status words, each field by field, and E_RANGE above index 5; no state is written,
ERR not cleared; a word with `a` ≠ 0 or `imm` ≠ 0 is illegal. -/
def Obligations.RdsAnswersTheStatusWord : Prop :=
  (∀ s : State,
    (∃ v : BitVec 32, exec (.rds 0) s = .next { s with out := some ⟨.ok, v⟩, busy := false } ∧
      (v.extractLsb' 0 4).toNat = s.cfg.nsec ∧ (v.extractLsb' 4 8).toNat = s.cfg.nch ∧
      v.extractLsb' 12 4 = 0#4 ∧ (v.extractLsb' 16 16).toNat = s.cfg.maxcap) ∧
    (∃ v : BitVec 32, exec (.rds 1) s = .next { s with out := some ⟨.ok, v⟩, busy := false } ∧
      v.toNat = match s.st with | .unprepared => 0 | .prepared => 1 | .processing => 2 | .released => 3) ∧
    (∃ v : BitVec 32, exec (.rds 2) s = .next { s with out := some ⟨.ok, v⟩, busy := false } ∧
      v.toNat = s.err.toNat) ∧
    exec (.rds 3) s = .next { s with out := some ⟨.ok, s.fs⟩, busy := false } ∧
    (∃ v : BitVec 32, exec (.rds 4) s = .next { s with out := some ⟨.ok, v⟩, busy := false } ∧
      v.toNat = s.maxblk.toNat) ∧
    (∃ v : BitVec 32, exec (.rds 5) s = .next { s with out := some ⟨.ok, v⟩, busy := false } ∧
      v.getLsbD 0 = s.av ∧
      (v.getLsbD 1 = true ↔
        ∀ k ∈ s.shdv, k.b0 = true ∧ k.b1 = true ∧ k.b2 = true ∧ k.a1 = true ∧ k.a2 = true) ∧
      v.toNat < 4)) ∧
  (∀ (s : State) (idx : Nat), idx > 5 →
    exec (.rds idx) s = .next { s with
      err := if s.err = 0#8 then 3#8 else s.err, out := some ⟨.range, 0#32⟩, busy := false }) ∧
  (∀ (a : BitVec 8) (b : BitVec 16) (imm : BitVec 32),
    decode (packFields 0x40#8 a b imm) =
      if a = 0#8 ∧ imm = 0#32 then .ok (.rds b.toNat) else .error (.fieldNotZero 0x40#8))

/-! ## The arithmetic -/

/-- R114: a nonzero magnitude num / den (in units of 2^-149) is rounded to the nearest binary32 value, on a tie to the
one whose fraction bit 0 is 0; from (2 - 2^-24) × 2^127 on it is an infinity, up to 2^-150 a zero; the sign is kept. -/
def Obligations.RoundingIsToNearestTiesToEven : Prop :=
  ∀ (neg : Bool) (num den : Nat), 0 < num → 0 < den →
    signBit (withSign neg (roundBits num den)) = neg ∧
    isNaN (withSign neg (roundBits num den)) = false ∧
    (isInf (withSign neg (roundBits num den)) = true ↔ den * ((2 ^ 25 - 1) * 2 ^ 252) ≤ num) ∧
    (isZero (withSign neg (roundBits num den)) = true ↔ 2 * num ≤ den) ∧
    (isFinite (withSign neg (roundBits num den)) = true → ∀ w : F32, isFinite w = true →
      |(magnitude (withSign neg (roundBits num den)) : ℤ) * den - num| ≤ |(magnitude w : ℤ) * den - num| ∧
      (|(magnitude (withSign neg (roundBits num den)) : ℤ) * den - num| = |(magnitude w : ℤ) * den - num| →
        magnitude w ≠ magnitude (withSign neg (roundBits num den)) →
        fracField (withSign neg (roundBits num den)) % 2 = 0))

/-- R111 (with R115): when fmul's result is a NaN, quiet; otherwise its sign, its infinities, its zeros, and the rounded
product. -/
def Obligations.FmulFollowsItsCases : Prop :=
  ∀ (d : Nat) (a b : F32),
    ((isNaN a = true ∨ isNaN b = true ∨ (isZero a = true ∧ isInf b = true) ∨ (isInf a = true ∧ isZero b = true)) →
      isQuietNaN (fmul (freshNaN d) a b) = true) ∧
    (¬ (isNaN a = true ∨ isNaN b = true ∨ (isZero a = true ∧ isInf b = true) ∨
        (isInf a = true ∧ isZero b = true)) →
      signBit (fmul (freshNaN d) a b) = (signBit a ^^ signBit b) ∧
      ((isInf a = true ∨ isInf b = true) → isInf (fmul (freshNaN d) a b) = true) ∧
      (isFinite a = true → isFinite b = true → (isZero a = true ∨ isZero b = true) →
        isZero (fmul (freshNaN d) a b) = true) ∧
      (isFinite a = true → isFinite b = true → isZero a = false → isZero b = false →
        fmul (freshNaN d) a b =
          withSign (signBit a ^^ signBit b) (roundBits (magnitude a * magnitude b) (2 ^ 149))))

/-- R112 (with R115): when fadd's result is a NaN, quiet; infinities; the signs of zero results; the rounded sum; adding
a zero changes no nonzero finite number. -/
def Obligations.FaddFollowsItsCases : Prop :=
  ∀ (d : Nat) (a b : F32),
    ((isNaN a = true ∨ isNaN b = true ∨ (isInf a = true ∧ isInf b = true ∧ signBit a ≠ signBit b)) →
      isQuietNaN (fadd (freshNaN d) a b) = true) ∧
    (isInf a = true → isNaN b = false → ¬ (isInf b = true ∧ signBit a ≠ signBit b) →
      fadd (freshNaN d) a b = a ∧ fadd (freshNaN d) b a = a) ∧
    (isZero a = true → isZero b = true →
      fadd (freshNaN d) a b =
        if a = 0x80000000#32 ∧ b = 0x80000000#32 then 0x80000000#32 else 0x00000000#32) ∧
    (isFinite a = true → isFinite b = true → isZero a = false → scaledValue a + scaledValue b = 0 →
      fadd (freshNaN d) a b = 0x00000000#32) ∧
    (isFinite a = true → isFinite b = true → scaledValue a + scaledValue b ≠ 0 →
      fadd (freshNaN d) a b = withSign (decide (scaledValue a + scaledValue b < 0))
        (roundBits (scaledValue a + scaledValue b).natAbs 1)) ∧
    (isFinite a = true → isZero a = false → isZero b = true →
      fadd (freshNaN d) a b = a ∧ fadd (freshNaN d) b a = a)

/-- R113 (with R115): a - b is a + neg(b), where neg inverts bit 31; x - x is +0 for every finite x; the four
differences of zeros; a NaN operand gives a quiet NaN. -/
def Obligations.FsubAddsTheNegative : Prop :=
  ∀ (d : Nat) (a b : F32),
    fsub (freshNaN d) a b = fadd (freshNaN d) a (fneg b) ∧
    (signBit (fneg b) = !signBit b ∧ expField (fneg b) = expField b ∧ fracField (fneg b) = fracField b) ∧
    (isFinite a = true → fsub (freshNaN d) a a = 0x00000000#32) ∧
    (fsub (freshNaN d) 0x00000000#32 0x00000000#32 = 0x00000000#32 ∧
      fsub (freshNaN d) 0x80000000#32 0x80000000#32 = 0x00000000#32 ∧
      fsub (freshNaN d) 0x80000000#32 0x00000000#32 = 0x80000000#32 ∧
      fsub (freshNaN d) 0x00000000#32 0x80000000#32 = 0x00000000#32) ∧
    ((isNaN a = true ∨ isNaN b = true) → isQuietNaN (fsub (freshNaN d) a b) = true)

/-- The pass-through set on a cleared section: a finite nonzero sample comes out bit for bit and leaves the section
cleared; a zero comes out as +0 (the first -0 leaves z2 = -0); an infinity or a NaN puts NaNs into both delay
elements (R109). -/
def Obligations.PassThroughSectionPassesSamples : Prop :=
  ∀ (d : Nat) (x : F32),
    (isFinite x = true → isZero x = false →
      sectionStep (fun j => freshNaN (d + j)) ⟨0x3F800000#32, 0#32, 0#32, 0#32, 0#32⟩ ⟨0#32, 0#32⟩ x =
        (x, ⟨0#32, 0#32⟩)) ∧
    (sectionStep (fun j => freshNaN (d + j)) ⟨0x3F800000#32, 0#32, 0#32, 0#32, 0#32⟩ ⟨0#32, 0#32⟩ 0x00000000#32 =
      (0#32, ⟨0#32, 0#32⟩)) ∧
    (sectionStep (fun j => freshNaN (d + j)) ⟨0x3F800000#32, 0#32, 0#32, 0#32, 0#32⟩ ⟨0#32, 0#32⟩ 0x80000000#32 =
      (0#32, ⟨0#32, 0x80000000#32⟩)) ∧
    (isFinite x = false →
      isNaN (sectionStep (fun j => freshNaN (d + j)) ⟨0x3F800000#32, 0#32, 0#32, 0#32, 0#32⟩
        ⟨0#32, 0#32⟩ x).2.z1 = true ∧
      isNaN (sectionStep (fun j => freshNaN (d + j)) ⟨0x3F800000#32, 0#32, 0#32, 0#32, 0#32⟩
        ⟨0#32, 0#32⟩ x).2.z2 = true)

/-- 95_test_vectors.md V5 (three inexact section steps in a row, from cleared delay elements) and three of V11's
operations: the nine operations in R105's order and association, each rounded once. -/
def Obligations.VectorsOfTheSpecComeOut : Prop :=
  sectionRun ⟨0x3DCCCCCD#32, 0x3E4CCCCD#32, 0x3E99999A#32, 0xBECCCCCD#32, 0x3F000000#32⟩ ⟨0#32, 0#32⟩
      [0x3F800000#32, 0x3F333333#32, 0xBE99999A#32] =
    ([0x3DCCCCCD#32, 0x3E9EB852#32, 0x3EF7CED9#32], ⟨0x3E41205C#32, 0xBEA9FBE8#32⟩) ∧
  fmul someNaN 0x00000003#32 0x3F000000#32 = 0x00000002#32 ∧
  fadd someNaN 0x7F7FFFFF#32 0x73000000#32 = 0x7F800000#32 ∧
  fsub someNaN 0x3E99999A#32 0x3D4CCCCD#32 = 0x3E800000#32
end

