-- ==== Sys2Proof/Laws/Arith.lean ====
section
/-! SUPPORT. Binary32 patterns as numbers, the classes of R110, when an operation yields a NaN (R111 to R113, R115),
and that rounding is exact on numbers that need none (R114). -/

namespace Sys2Proof.Machine

/-! The fields of R110 as numbers. -/

theorem expField_eq (a : F32) : expField a = a.toNat / 2 ^ 23 % 256 := by
  simp [expField, BitVec.extractLsb'_toNat, Nat.shiftRight_eq_div_pow]

theorem fracField_eq (a : F32) : fracField a = a.toNat % 2 ^ 23 := by
  simp [fracField, BitVec.extractLsb'_toNat]

theorem signBit_eq (a : F32) : signBit a = decide (2 ^ 31 ≤ a.toNat) := by
  have h := a.isLt
  simp only [signBit, BitVec.getLsbD, Nat.testBit_eq_decide_div_mod_eq, decide_eq_decide]
  omega

/-- A pattern is its sign over its exponent and fraction. -/
theorem toNat_eq (a : F32) :
    a.toNat = (if signBit a then 2 ^ 31 else 0) + (expField a * 2 ^ 23 + fracField a) := by
  have h := a.isLt
  rw [expField_eq, fracField_eq, signBit_eq]
  simp only [decide_eq_true_eq]
  split_ifs <;> omega

theorem fracField_lt (a : F32) : fracField a < 2 ^ 23 := by
  rw [fracField_eq]
  omega

theorem expField_lt (a : F32) : expField a < 256 := by
  rw [expField_eq]
  omega

theorem toNat_withSign (neg : Bool) {b : Nat} (h : b < 2 ^ 31) :
    (withSign neg b).toNat = (if neg then 2 ^ 31 else 0) + b := by
  simp only [withSign, BitVec.toNat_ofNat]
  apply Nat.mod_eq_of_lt
  split_ifs <;> omega

@[simp] theorem signBit_withSign (neg : Bool) {b : Nat} (h : b < 2 ^ 31) : signBit (withSign neg b) = neg := by
  rw [signBit_eq, toNat_withSign neg h]
  cases neg
  · simp
    omega
  · simp

theorem expField_withSign (neg : Bool) {b : Nat} (h : b < 2 ^ 31) : expField (withSign neg b) = b / 2 ^ 23 := by
  rw [expField_eq, toNat_withSign neg h]
  cases neg <;> simp <;> omega

theorem fracField_withSign (neg : Bool) {b : Nat} (h : b < 2 ^ 31) : fracField (withSign neg b) = b % 2 ^ 23 := by
  rw [fracField_eq, toNat_withSign neg h]
  cases neg
  · simp
  · simp
    omega

/-- Every pattern is a sign over 31 bits. -/
theorem withSign_self (a : F32) : withSign (signBit a) (expField a * 2 ^ 23 + fracField a) = a := by
  apply BitVec.eq_of_toNat_eq
  rw [toNat_withSign _ (by have := expField_lt a; have := fracField_lt a; omega)]
  exact (toNat_eq a).symm

/-! The classes of R110. -/

theorem isNaN_iff (a : F32) : isNaN a = true ↔ expField a = 255 ∧ fracField a ≠ 0 := by simp [isNaN]
theorem isInf_iff (a : F32) : isInf a = true ↔ expField a = 255 ∧ fracField a = 0 := by simp [isInf]
theorem isZero_iff (a : F32) : isZero a = true ↔ expField a = 0 ∧ fracField a = 0 := by simp [isZero]
theorem isFinite_iff (a : F32) : isFinite a = true ↔ expField a ≠ 255 := by simp [isFinite]

/-- A zero is exactly a finite number of magnitude zero. -/
theorem isZero_iff_magnitude {a : F32} : isZero a = true ↔ magnitude a = 0 := by
  rw [isZero_iff, magnitude]
  constructor
  · rintro ⟨h, h'⟩
    simp [h, h']
  · intro h
    split_ifs at h with he
    · exact ⟨he, h⟩
    · exfalso
      have := Nat.pos_of_ne_zero (n := (2 ^ 23 + fracField a) * 2 ^ (expField a - 1)) (by positivity)
      omega

/-- Whatever draw it is, the NaN of R115 is a quiet NaN. -/
theorem isQuietNaN_quietNaN (p : BitVec 23) : isQuietNaN (quietNaN p) = true := by
  have e : (quietNaN p).extractLsb' 23 8 = 255#8 := by
    apply BitVec.eq_of_getLsbD_eq
    intro i hi
    have : i = 0 ∨ i = 1 ∨ i = 2 ∨ i = 3 ∨ i = 4 ∨ i = 5 ∨ i = 6 ∨ i = 7 := by omega
    simp only [quietNaN, BitVec.getLsbD_extractLsb', BitVec.getLsbD_append]
    rcases this with rfl | rfl | rfl | rfl | rfl | rfl | rfl | rfl <;> simp
  have q : (quietNaN p).getLsbD 22 = true := by
    simp only [quietNaN, BitVec.getLsbD_append]
    simp
  have f : fracField (quietNaN p) ≠ 0 := by
    intro h0
    have hq : ((quietNaN p).extractLsb' 0 23).getLsbD 22 = true := by
      rw [BitVec.getLsbD_extractLsb']
      simp [q]
    have : (quietNaN p).extractLsb' 0 23 = 0#23 := BitVec.eq_of_toNat_eq (by simpa [fracField] using h0)
    rw [this] at hq
    simp at hq
  simp [isQuietNaN, isNaN, expField, e, q, f]

theorem isNaN_of_quiet {a : F32} (h : isQuietNaN a = true) : isNaN a = true := by
  simp only [isQuietNaN, Bool.and_eq_true] at h
  exact h.1

@[simp] theorem isQuietNaN_freshNaN (d : Nat) : isQuietNaN (freshNaN d) = true := isQuietNaN_quietNaN _
@[simp] theorem isNaN_freshNaN (d : Nat) : isNaN (freshNaN d) = true := isNaN_of_quiet (isQuietNaN_freshNaN d)

/-! Rounding. -/

theorem roundBits_le (num den : Nat) : roundBits num den ≤ infBits := by
  simp only [roundBits]
  exact min_le_right _ _

theorem roundBits_lt (num den : Nat) : roundBits num den < 2 ^ 31 :=
  lt_of_le_of_lt (roundBits_le num den) (by decide)

/-- A result that was rounded, or an infinity, is no NaN. -/
theorem isNaN_withSign (neg : Bool) {b : Nat} (h : b ≤ infBits) : isNaN (withSign neg b) = false := by
  have hb : b < 2 ^ 31 := lt_of_le_of_lt h (by decide)
  rw [Bool.eq_false_iff, ne_eq, isNaN_iff, expField_withSign neg hb, fracField_withSign neg hb]
  simp only [infBits] at h
  omega

/-- R111's condition for a NaN. -/
def fmulInvalid (a b : F32) : Bool :=
  isNaN a || isNaN b || (isZero a && isInf b) || (isInf a && isZero b)

/-- R112's condition for a NaN. -/
def faddInvalid (a b : F32) : Bool :=
  isNaN a || isNaN b || (isInf a && isInf b && signBit a != signBit b)

/-- fmul yields the NaN of its occurrence exactly when R111 says so, and otherwise one fixed word that is none. -/
theorem fmul_cases (a b : F32) :
    (fmulInvalid a b = true ∧ ∀ nan, fmul nan a b = nan) ∨
    (fmulInvalid a b = false ∧ ∃ r, isNaN r = false ∧ ∀ nan, fmul nan a b = r) := by
  by_cases h : fmulInvalid a b = true
  · refine .inl ⟨h, fun nan => ?_⟩
    simp only [fmulInvalid] at h
    simp only [fmul, h, if_true]
  · rw [Bool.not_eq_true] at h
    refine .inr ⟨h, fmul 0#32 a b, ?_, fun nan => ?_⟩
    · simp only [fmulInvalid] at h
      simp only [fmul, h, Bool.false_eq_true, if_false]
      split_ifs
      · exact isNaN_withSign _ (le_refl _)
      · exact isNaN_withSign _ (Nat.zero_le _)
      · exact isNaN_withSign _ (roundBits_le _ _)
    · simp only [fmulInvalid] at h
      simp only [fmul, h, Bool.false_eq_true, if_false]

theorem fadd_cases (a b : F32) :
    (faddInvalid a b = true ∧ ∀ nan, fadd nan a b = nan) ∨
    (faddInvalid a b = false ∧ ∃ r, isNaN r = false ∧ ∀ nan, fadd nan a b = r) := by
  by_cases h : faddInvalid a b = true
  · refine .inl ⟨h, fun nan => ?_⟩
    simp only [faddInvalid] at h
    simp only [fadd, h, if_true]
  · rw [Bool.not_eq_true] at h
    refine .inr ⟨h, fadd 0#32 a b, ?_, fun nan => ?_⟩
    · have h' := h
      simp only [faddInvalid] at h
      simp only [fadd, h, Bool.false_eq_true, if_false]
      simp only [faddInvalid, Bool.or_eq_false_iff] at h'
      split_ifs
      · exact h'.1.1
      · exact h'.1.2
      · exact isNaN_withSign _ (Nat.zero_le _)
      · exact isNaN_withSign _ (Nat.zero_le _)
      · exact isNaN_withSign _ (roundBits_le _ _)
    · simp only [faddInvalid] at h
      simp only [fadd, h, Bool.false_eq_true, if_false]

theorem isNaN_fmul {nan : F32} (hn : isNaN nan = true) (a b : F32) : isNaN (fmul nan a b) = fmulInvalid a b := by
  rcases fmul_cases a b with ⟨h, e⟩ | ⟨h, r, hr, e⟩
  · rw [e, h, hn]
  · rw [e, h, hr]

theorem isNaN_fadd {nan : F32} (hn : isNaN nan = true) (a b : F32) : isNaN (fadd nan a b) = faddInvalid a b := by
  rcases fadd_cases a b with ⟨h, e⟩ | ⟨h, r, hr, e⟩
  · rw [e, h, hn]
  · rw [e, h, hr]

/-! Non-finite operands give non-finite results (R116). -/

theorem isFinite_eq_false_iff (a : F32) : isFinite a = false ↔ isNaN a = true ∨ isInf a = true := by
  simp only [isFinite, isNaN_iff, isInf_iff, bne_eq_false_iff_eq]
  tauto

theorem isFinite_withSign_infBits (neg : Bool) : isFinite (withSign neg infBits) = false := by
  cases neg <;> decide

theorem isFinite_fmul {nan : F32} (hn : isNaN nan = true) {a b : F32} (h : isFinite a = false ∨ isFinite b = false) :
    isFinite (fmul nan a b) = false := by
  simp only [isFinite_eq_false_iff] at h
  simp only [fmul]
  split_ifs with h1 h2 h3
  · exact (isFinite_eq_false_iff _).2 (.inl hn)
  · exact isFinite_withSign_infBits _
  all_goals simp_all

theorem isFinite_fadd {nan : F32} (hn : isNaN nan = true) {a b : F32} (h : isFinite a = false ∨ isFinite b = false) :
    isFinite (fadd nan a b) = false := by
  have h' := h
  simp only [isFinite_eq_false_iff] at h
  simp only [fadd]
  split_ifs with h1 h2 h3
  · exact (isFinite_eq_false_iff _).2 (.inl hn)
  · exact (isFinite_eq_false_iff _).2 (.inr h2)
  · exact (isFinite_eq_false_iff _).2 (.inr h3)
  all_goals simp_all

/-! neg (R113). -/

theorem signBit_fneg (a : F32) : signBit (fneg a) = !signBit a := by
  simp [signBit, fneg]

theorem expField_fneg (a : F32) : expField (fneg a) = expField a := by
  simp only [expField, fneg]
  congr 1
  apply BitVec.eq_of_getLsbD_eq
  intro i hi
  have : 23 + i = 23 ∨ 23 + i = 24 ∨ 23 + i = 25 ∨ 23 + i = 26 ∨ 23 + i = 27 ∨ 23 + i = 28 ∨ 23 + i = 29 ∨
    23 + i = 30 := by omega
  simp only [BitVec.getLsbD_extractLsb', BitVec.getLsbD_xor]
  rcases this with h | h | h | h | h | h | h | h <;> rw [h] <;> simp

theorem fracField_fneg (a : F32) : fracField (fneg a) = fracField a := by
  have h : (fneg a).toNat % 2 ^ 31 = a.toNat % 2 ^ 31 := by
    simp only [fneg, BitVec.toNat_xor]
    rw [Nat.xor_mod_two_pow]
    simp
  rw [fracField_eq, fracField_eq]
  omega

theorem isNaN_fneg (a : F32) : isNaN (fneg a) = isNaN a := by simp [isNaN, expField_fneg, fracField_fneg]
theorem isFinite_fneg (a : F32) : isFinite (fneg a) = isFinite a := by simp [isFinite, expField_fneg]
theorem isInf_fneg (a : F32) : isInf (fneg a) = isInf a := by simp [isInf, expField_fneg, fracField_fneg]
theorem isZero_fneg (a : F32) : isZero (fneg a) = isZero a := by simp [isZero, expField_fneg, fracField_fneg]
theorem magnitude_fneg (a : F32) : magnitude (fneg a) = magnitude a := by
  simp [magnitude, expField_fneg, fracField_fneg]

/-! Exact results. -/

/-- A magnitude that is a whole number of units of its own last place is not changed by rounding. -/
theorem roundBits_of_dvd {num den e n : Nat} (hd : 0 < den) (he : (num / den).log2 - 23 = e)
    (hn : num = n * (den * 2 ^ e)) : roundBits num den = min (e * 2 ^ 23 + n) infBits := by
  have hu : 0 < den * 2 ^ e := by positivity
  have hdiv : num / (den * 2 ^ e) = n := by rw [hn, Nat.mul_div_cancel _ hu]
  have hmod : num % (den * 2 ^ e) = 0 := by rw [hn, Nat.mul_mod_left]
  simp only [roundBits]
  rw [he, hdiv, hmod, if_neg (by omega), Nat.add_zero]

/-- A magnitude below 2^23 units needs no rounding. -/
theorem roundBits_small {f den : Nat} (hf : f < 2 ^ 23) (hd : 0 < den) : roundBits (f * den) den = f := by
  have hl : (f * den / den).log2 - 23 = 0 := by
    rw [Nat.mul_div_cancel _ hd]
    by_cases hz : f = 0
    · simp [hz]
    · have := (Nat.log2_lt hz).2 hf
      omega
  rw [roundBits_of_dvd hd hl (by rw [pow_zero, Nat.mul_one])]
  simp only [infBits]
  omega

/-- A magnitude of 24 significant bits needs no rounding; from exponent 255 on it is an infinity. -/
theorem roundBits_normal {f e den : Nat} (hf : f < 2 ^ 23) (hd : 0 < den) :
    roundBits ((2 ^ 23 + f) * 2 ^ e * den) den = min (e * 2 ^ 23 + (2 ^ 23 + f)) infBits := by
  have hpos : (2 ^ 23 + f) * 2 ^ e ≠ 0 := by positivity
  have hlog : ((2 ^ 23 + f) * 2 ^ e).log2 = 23 + e := by
    rw [Nat.log2_eq_iff hpos]
    constructor
    · rw [pow_add]
      exact Nat.mul_le_mul_right _ (by omega)
    · rw [show 23 + e + 1 = 24 + e by omega, pow_add]
      exact Nat.mul_lt_mul_of_pos_right (by omega) (by positivity)
  refine roundBits_of_dvd hd ?_ (by ring)
  rw [Nat.mul_div_cancel _ hd, hlog]
  omega

/-- Rounding a magnitude that is a binary32 magnitude already gives its own 31 bits (R114). -/
theorem roundBits_exact {a : F32} (h : isFinite a = true) {den : Nat} (hd : 0 < den) :
    roundBits (magnitude a * den) den = expField a * 2 ^ 23 + fracField a := by
  rw [isFinite_iff] at h
  have hf := fracField_lt a
  have he := expField_lt a
  by_cases h0 : expField a = 0
  · rw [magnitude, if_pos h0, roundBits_small hf hd, h0]
    omega
  · rw [magnitude, if_neg h0, roundBits_normal hf hd]
    simp only [infBits]
    omega

end Sys2Proof.Machine
end

