-- ==== Sys2Proof/Laws/Agree.lean ====
section
/-! SUPPORT. The arithmetic respects agreement up to the payload of NaNs (R115, R118). -/

namespace Sys2Proof.Machine

/-- Words that agree are NaNs together. -/
theorem wordsAgree.nan {a b : F32} (h : wordsAgree a b) : isNaN a = isNaN b := by
  rcases h with rfl | ⟨h, h'⟩
  · rfl
  · rw [h, h']

/-- Words that agree and are no NaN are equal. -/
theorem wordsAgree.eq {a b : F32} (h : wordsAgree a b) (hn : isNaN a = false) : a = b := by
  rcases h with rfl | ⟨h, h'⟩
  · rfl
  · simp [hn] at h

theorem wordsAgree.symm {a b : F32} (h : wordsAgree a b) : wordsAgree b a := by
  rcases h with rfl | ⟨h, h'⟩
  · exact .inl rfl
  · exact .inr ⟨h', h⟩

theorem wordsAgree.trans {a b c : F32} (h : wordsAgree a b) (g : wordsAgree b c) : wordsAgree a c := by
  rcases h with rfl | ⟨h, h'⟩
  · exact g
  · exact .inr ⟨h, by rw [← g.nan, h']⟩

/-- Words that agree are finite together. -/
theorem wordsAgree.finite {a b : F32} (h : wordsAgree a b) : isFinite a = isFinite b := by
  rcases h with rfl | ⟨h, h'⟩
  · rfl
  · rw [(isFinite_eq_false_iff a).2 (.inl h), (isFinite_eq_false_iff b).2 (.inl h')]

/-- fmul respects agreement, whatever NaNs its two occurrences draw (R111, R115). -/
theorem fmul_agree {nan nan' a a' b b' : F32} (hn : isNaN nan = true) (hn' : isNaN nan' = true)
    (ha : wordsAgree a a') (hb : wordsAgree b b') :
    wordsAgree (fmul nan a b) (fmul nan' a' b') := by
  by_cases h : isNaN (fmul nan a b) = true
  · refine .inr ⟨h, ?_⟩
    rw [isNaN_fmul hn] at h
    rw [isNaN_fmul hn']
    by_cases h1 : isNaN a = true
    · have := ha.nan; simp [fmulInvalid, ← this, h1]
    by_cases h2 : isNaN b = true
    · have := hb.nan; simp [fmulInvalid, ← this, h2]
    rw [← ha.eq (by simpa using h1), ← hb.eq (by simpa using h2)]; exact h
  · left
    rw [isNaN_fmul hn] at h
    have h1 : isNaN a = false := by simp [fmulInvalid] at h; tauto
    have h2 : isNaN b = false := by simp [fmulInvalid] at h; tauto
    rw [← ha.eq h1, ← hb.eq h2]
    rcases fmul_cases a b with ⟨h', _⟩ | ⟨_, r, _, e⟩
    · exact absurd h' h
    · rw [e, e]

/-- fadd respects agreement, whatever NaNs its two occurrences draw (R112, R115). -/
theorem fadd_agree {nan nan' a a' b b' : F32} (hn : isNaN nan = true) (hn' : isNaN nan' = true)
    (ha : wordsAgree a a') (hb : wordsAgree b b') :
    wordsAgree (fadd nan a b) (fadd nan' a' b') := by
  by_cases h : isNaN (fadd nan a b) = true
  · refine .inr ⟨h, ?_⟩
    rw [isNaN_fadd hn] at h
    rw [isNaN_fadd hn']
    by_cases h1 : isNaN a = true
    · have := ha.nan; simp [faddInvalid, ← this, h1]
    by_cases h2 : isNaN b = true
    · have := hb.nan; simp [faddInvalid, ← this, h2]
    rw [← ha.eq (by simpa using h1), ← hb.eq (by simpa using h2)]; exact h
  · left
    rw [isNaN_fadd hn] at h
    have h1 : isNaN a = false := by simp [faddInvalid] at h; tauto
    have h2 : isNaN b = false := by simp [faddInvalid] at h; tauto
    rw [← ha.eq h1, ← hb.eq h2]
    rcases fadd_cases a b with ⟨h', _⟩ | ⟨_, r, _, e⟩
    · exact absurd h' h
    · rw [e, e]

theorem fneg_agree {b b' : F32} (hb : wordsAgree b b') : wordsAgree (fneg b) (fneg b') := by
  rcases hb with rfl | ⟨h, h'⟩
  · exact .inl rfl
  · exact .inr ⟨by rw [isNaN_fneg, h], by rw [isNaN_fneg, h']⟩

/-- A section step respects agreement, whatever NaNs it draws (R105, R115). -/
theorem sectionStep_agree {nan nan' : Nat → F32} (hn : ∀ j, isNaN (nan j) = true) (hn' : ∀ j, isNaN (nan' j) = true)
    (k : Five F32) {d d' : Delay} (hd : delaysAgree d d') {x x' : F32} (hx : wordsAgree x x') :
    wordsAgree (sectionStep nan k d x).1 (sectionStep nan' k d' x').1 ∧
    delaysAgree (sectionStep nan k d x).2 (sectionStep nan' k d' x').2 := by
  have r : ∀ a, wordsAgree a a := fun a => .inl rfl
  have hy := fadd_agree (hn 1) (hn' 1) (fmul_agree (hn 0) (hn' 0) (r k.b0) hx) hd.1
  refine ⟨hy, ?_, ?_⟩
  · exact fadd_agree (hn 5) (hn' 5)
      (fadd_agree (hn 4) (hn' 4) (fmul_agree (hn 2) (hn' 2) (r k.b1) hx)
        (fneg_agree (fmul_agree (hn 3) (hn' 3) (r k.a1) hy))) hd.2
  · exact fadd_agree (hn 8) (hn' 8) (fmul_agree (hn 6) (hn' 6) (r k.b2) hx)
      (fneg_agree (fmul_agree (hn 7) (hn' 7) (r k.a2) hy))

theorem isNaN_stepNaN (s : State) (j : Nat) : isNaN (s.stepNaN j) = true := isNaN_freshNaN _
theorem isNaN_someNaN : isNaN someNaN = true := isNaN_of_quiet (isQuietNaN_quietNaN _)

end Sys2Proof.Machine
end

