-- ==== Sys2Proof/Laws/Decode.lean ====
section
/-! SUPPORT. The fields of a packed word (R61), bytes of a word (R44), and masks on packed words (R65). -/

namespace Sys2Proof

@[simp] theorem fieldOp_packFields (op a : BitVec 8) (b : BitVec 16) (imm : BitVec 32) :
    fieldOp (packFields op a b imm) = op := by
  simp only [fieldOp, packFields]
  apply BitVec.eq_of_getLsbD_eq
  intro i hi
  simp only [BitVec.getLsbD_extractLsb', BitVec.getLsbD_append, Nat.sub_sub]
  have e : 56 + i - (32 + 16 + 8) = i := by omega
  rw [e]
  simp [hi, show ¬ 56 + i < 32 by omega, show ¬ 56 + i - 32 < 16 by omega, show ¬ 56 + i - 48 < 8 by omega]

@[simp] theorem fieldA_packFields (op a : BitVec 8) (b : BitVec 16) (imm : BitVec 32) :
    fieldA (packFields op a b imm) = a := by
  simp only [fieldA, packFields]
  apply BitVec.eq_of_getLsbD_eq
  intro i hi
  simp only [BitVec.getLsbD_extractLsb', BitVec.getLsbD_append, Nat.sub_sub]
  have e : 48 + i - (32 + 16) = i := by omega
  rw [e]
  simp [hi, show ¬ 48 + i < 32 by omega, show ¬ 48 + i - 32 < 16 by omega]

@[simp] theorem fieldB_packFields (op a : BitVec 8) (b : BitVec 16) (imm : BitVec 32) :
    fieldB (packFields op a b imm) = b := by
  simp only [fieldB, packFields]
  apply BitVec.eq_of_getLsbD_eq
  intro i hi
  simp only [BitVec.getLsbD_extractLsb', BitVec.getLsbD_append]
  simp [hi, show ¬ 32 + i < 32 by omega]

@[simp] theorem fieldImm_packFields (op a : BitVec 8) (b : BitVec 16) (imm : BitVec 32) :
    fieldImm (packFields op a b imm) = imm := by
  simp only [fieldImm, packFields]
  apply BitVec.eq_of_getLsbD_eq
  intro i hi
  simp only [BitVec.getLsbD_extractLsb', BitVec.getLsbD_append]
  simp [hi]

/-- A word is its four fields (R61). -/
theorem packFields_fields (w : CmdWord) : packFields (fieldOp w) (fieldA w) (fieldB w) (fieldImm w) = w := by
  simp only [fieldOp, fieldA, fieldB, fieldImm, packFields]
  apply BitVec.eq_of_getLsbD_eq
  intro i hi
  simp only [BitVec.getLsbD_extractLsb', BitVec.getLsbD_append]
  by_cases h32 : i < 32
  · simp [h32]
  by_cases h48 : i < 48
  · simp [h32, show i - 32 < 16 by omega, show 32 + (i - 32) = i by omega]
  by_cases h56 : i < 56
  · simp [h32, show ¬ i - 32 < 16 by omega, show i - 32 - 16 < 8 by omega, show 48 + (i - 32 - 16) = i by omega]
  · simp [h32, show ¬ i - 32 < 16 by omega, show ¬ i - 32 - 16 < 8 by omega, show i - 32 - 16 - 8 < 8 by omega,
      show 56 + (i - 32 - 16 - 8) = i by omega]

/-- The decoder on a packed word (R65). -/
theorem decode_packFields (op a : BitVec 8) (b : BitVec 16) (imm : BitVec 32) :
    decode (packFields op a b imm) =
      (let checked (mbz : Bool) (i : Instr) : Except DecodeError Instr :=
        if mbz then .ok i else .error (.fieldNotZero op)
      if op = 0x01#8 then checked (a == 0#8) (.prep b.toNat imm)
      else if op = 0x02#8 then checked (a == 0#8 && b == 0#16 && imm == 0#32) .rel
      else if op = 0x03#8 then checked (a == 0#8 && b == 0#16 && imm == 0#32) .rst
      else if op = 0x10#8 then .ok (.ldc a.toNat b.toNat imm)
      else if op = 0x11#8 then checked (a == 0#8 && b == 0#16 && imm == 0#32) .cmt
      else if op = 0x20#8 then checked (imm == 0#32) (.proc a.toNat b.toNat)
      else if op = 0x30#8 then .ok (.wrb a.toNat b.toNat imm)
      else if op = 0x31#8 then checked (imm == 0#32) (.rdb a.toNat b.toNat)
      else if op = 0x40#8 then checked (a == 0#8 && imm == 0#32) (.rds b.toNat)
      else .error (.unknownOpcode op)) := by
  simp only [decode, fieldOp_packFields, fieldA_packFields, fieldB_packFields, fieldImm_packFields]

/-- Two packed words are equal exactly when their fields are. -/
theorem packFields_inj {op op' a a' : BitVec 8} {b b' : BitVec 16} {imm imm' : BitVec 32} :
    packFields op a b imm = packFields op' a' b' imm' ↔ op = op' ∧ a = a' ∧ b = b' ∧ imm = imm' := by
  constructor
  · intro h
    refine ⟨?_, ?_, ?_, ?_⟩
    · simpa using congrArg fieldOp h
    · simpa using congrArg fieldA h
    · simpa using congrArg fieldB h
    · simpa using congrArg fieldImm h
  · rintro ⟨rfl, rfl, rfl, rfl⟩
    rfl

/-- A mask acts field by field (R65). -/
theorem packFields_and (op op' a a' : BitVec 8) (b b' : BitVec 16) (imm imm' : BitVec 32) :
    packFields op a b imm &&& packFields op' a' b' imm' =
      packFields (op &&& op') (a &&& a') (b &&& b') (imm &&& imm') := by
  simp only [packFields]
  apply BitVec.eq_of_getLsbD_eq
  intro i hi
  simp only [BitVec.getLsbD_and, BitVec.getLsbD_append]
  split_ifs <;> rfl

/-- The bytes of a word, put together again, are the word (R44). -/
theorem wordOfBytes_bytes (w : CmdWord) :
    wordOfBytes (w.extractLsb' 0 8) (w.extractLsb' 8 8) (w.extractLsb' 16 8) (w.extractLsb' 24 8)
      (w.extractLsb' 32 8) (w.extractLsb' 40 8) (w.extractLsb' 48 8) (w.extractLsb' 56 8) = w := by
  have key : ∀ (k i : Nat), k ≤ i → k + (i - k) = i := fun k i h => by omega
  simp only [wordOfBytes]
  apply BitVec.eq_of_getLsbD_eq
  intro i hi
  simp only [BitVec.getLsbD_extractLsb', BitVec.getLsbD_append, Nat.sub_sub]
  by_cases h8 : i < 8
  · simp [h8]
  by_cases h16 : i < 16
  · simp [h8, show i - 8 < 8 by omega, key 8 i (by omega)]
  by_cases h24 : i < 24
  · simp [h8, show ¬ i - 8 < 8 by omega, show i - 16 < 8 by omega, key 16 i (by omega)]
  by_cases h32 : i < 32
  · simp [h8, show ¬ i - 8 < 8 by omega, show ¬ i - 16 < 8 by omega, show i - 24 < 8 by omega, key 24 i (by omega)]
  by_cases h40 : i < 40
  · simp [h8, show ¬ i - 8 < 8 by omega, show ¬ i - 16 < 8 by omega, show ¬ i - 24 < 8 by omega,
      show i - 32 < 8 by omega, key 32 i (by omega)]
  by_cases h48 : i < 48
  · simp [h8, show ¬ i - 8 < 8 by omega, show ¬ i - 16 < 8 by omega, show ¬ i - 24 < 8 by omega,
      show ¬ i - 32 < 8 by omega, show i - 40 < 8 by omega, key 40 i (by omega)]
  by_cases h56 : i < 56
  · simp [h8, show ¬ i - 8 < 8 by omega, show ¬ i - 16 < 8 by omega, show ¬ i - 24 < 8 by omega,
      show ¬ i - 32 < 8 by omega, show ¬ i - 40 < 8 by omega, show i - 48 < 8 by omega, key 48 i (by omega)]
  · simp [h8, show ¬ i - 8 < 8 by omega, show ¬ i - 16 < 8 by omega, show ¬ i - 24 < 8 by omega,
      show ¬ i - 32 < 8 by omega, show ¬ i - 40 < 8 by omega, show ¬ i - 48 < 8 by omega, show i - 56 < 8 by omega,
      key 56 i (by omega)]

end Sys2Proof
end

