-- ==== Sys2Proof/Laws/State.lean ====
section
/-! SUPPORT. One lemma per field of State and per update of it, true by rfl, so that no proof unfolds an update. -/

namespace Sys2Proof.Machine

variable (s : State)

/-! The fields after `setBufWord`. -/

@[simp] theorem State.setBufWord_cfg (c n : Nat) (v : F32) : (State.setBufWord c n v s).cfg = s.cfg := rfl
@[simp] theorem State.setBufWord_st (c n : Nat) (v : F32) : (State.setBufWord c n v s).st = s.st := rfl
@[simp] theorem State.setBufWord_err (c n : Nat) (v : F32) : (State.setBufWord c n v s).err = s.err := rfl
@[simp] theorem State.setBufWord_fs (c n : Nat) (v : F32) : (State.setBufWord c n v s).fs = s.fs := rfl
@[simp] theorem State.setBufWord_maxblk (c n : Nat) (v : F32) : (State.setBufWord c n v s).maxblk = s.maxblk := rfl
@[simp] theorem State.setBufWord_shd (c n : Nat) (v : F32) : (State.setBufWord c n v s).shd = s.shd := rfl
@[simp] theorem State.setBufWord_shdv (c n : Nat) (v : F32) : (State.setBufWord c n v s).shdv = s.shdv := rfl
@[simp] theorem State.setBufWord_act (c n : Nat) (v : F32) : (State.setBufWord c n v s).act = s.act := rfl
@[simp] theorem State.setBufWord_av (c n : Nat) (v : F32) : (State.setBufWord c n v s).av = s.av := rfl
@[simp] theorem State.setBufWord_z (c n : Nat) (v : F32) : (State.setBufWord c n v s).z = s.z := rfl
@[simp] theorem State.setBufWord_buf (c n : Nat) (v : F32) :
    (State.setBufWord c n v s).buf =
    Memory.writeWord s.buf (wordAddr s.cfg c n) v := rfl
@[simp] theorem State.setBufWord_out (c n : Nat) (v : F32) : (State.setBufWord c n v s).out = s.out := rfl
@[simp] theorem State.setBufWord_busy (c n : Nat) (v : F32) : (State.setBufWord c n v s).busy = s.busy := rfl
@[simp] theorem State.setBufWord_port (c n : Nat) (v : F32) : (State.setBufWord c n v s).port = s.port := rfl
@[simp] theorem State.setBufWord_draws (c n : Nat) (v : F32) : (State.setBufWord c n v s).draws = s.draws := rfl
@[simp] theorem State.setBufWord_era (c n : Nat) (v : F32) : (State.setBufWord c n v s).era = s.era := rfl

/-! The fields after `setDelay`. -/

@[simp] theorem State.setDelay_cfg (sec c : Nat) (d : Delay) : (State.setDelay sec c d s).cfg = s.cfg := rfl
@[simp] theorem State.setDelay_st (sec c : Nat) (d : Delay) : (State.setDelay sec c d s).st = s.st := rfl
@[simp] theorem State.setDelay_err (sec c : Nat) (d : Delay) : (State.setDelay sec c d s).err = s.err := rfl
@[simp] theorem State.setDelay_fs (sec c : Nat) (d : Delay) : (State.setDelay sec c d s).fs = s.fs := rfl
@[simp] theorem State.setDelay_maxblk (sec c : Nat) (d : Delay) : (State.setDelay sec c d s).maxblk = s.maxblk := rfl
@[simp] theorem State.setDelay_shd (sec c : Nat) (d : Delay) : (State.setDelay sec c d s).shd = s.shd := rfl
@[simp] theorem State.setDelay_shdv (sec c : Nat) (d : Delay) : (State.setDelay sec c d s).shdv = s.shdv := rfl
@[simp] theorem State.setDelay_act (sec c : Nat) (d : Delay) : (State.setDelay sec c d s).act = s.act := rfl
@[simp] theorem State.setDelay_av (sec c : Nat) (d : Delay) : (State.setDelay sec c d s).av = s.av := rfl
@[simp] theorem State.setDelay_z (sec c : Nat) (d : Delay) :
    (State.setDelay sec c d s).z =
    s.z.modify sec fun row => row.set c d := rfl
@[simp] theorem State.setDelay_buf (sec c : Nat) (d : Delay) : (State.setDelay sec c d s).buf = s.buf := rfl
@[simp] theorem State.setDelay_out (sec c : Nat) (d : Delay) : (State.setDelay sec c d s).out = s.out := rfl
@[simp] theorem State.setDelay_busy (sec c : Nat) (d : Delay) : (State.setDelay sec c d s).busy = s.busy := rfl
@[simp] theorem State.setDelay_port (sec c : Nat) (d : Delay) : (State.setDelay sec c d s).port = s.port := rfl
@[simp] theorem State.setDelay_draws (sec c : Nat) (d : Delay) : (State.setDelay sec c d s).draws = s.draws := rfl
@[simp] theorem State.setDelay_era (sec c : Nat) (d : Delay) : (State.setDelay sec c d s).era = s.era := rfl

/-! The fields after `stage`. -/

@[simp] theorem State.stage_cfg (sec : Nat) (ix : CoefIx) (v : F32) : (State.stage sec ix v s).cfg = s.cfg := rfl
@[simp] theorem State.stage_st (sec : Nat) (ix : CoefIx) (v : F32) : (State.stage sec ix v s).st = s.st := rfl
@[simp] theorem State.stage_err (sec : Nat) (ix : CoefIx) (v : F32) : (State.stage sec ix v s).err = s.err := rfl
@[simp] theorem State.stage_fs (sec : Nat) (ix : CoefIx) (v : F32) : (State.stage sec ix v s).fs = s.fs := rfl
@[simp] theorem State.stage_maxblk (sec : Nat) (ix : CoefIx) (v : F32) :
    (State.stage sec ix v s).maxblk =
    s.maxblk := rfl
@[simp] theorem State.stage_shd (sec : Nat) (ix : CoefIx) (v : F32) :
    (State.stage sec ix v s).shd =
    s.shd.modify sec fun k => k.set ix v := rfl
@[simp] theorem State.stage_shdv (sec : Nat) (ix : CoefIx) (v : F32) :
    (State.stage sec ix v s).shdv =
    s.shdv.modify sec fun k => k.set ix true := rfl
@[simp] theorem State.stage_act (sec : Nat) (ix : CoefIx) (v : F32) : (State.stage sec ix v s).act = s.act := rfl
@[simp] theorem State.stage_av (sec : Nat) (ix : CoefIx) (v : F32) : (State.stage sec ix v s).av = s.av := rfl
@[simp] theorem State.stage_z (sec : Nat) (ix : CoefIx) (v : F32) : (State.stage sec ix v s).z = s.z := rfl
@[simp] theorem State.stage_buf (sec : Nat) (ix : CoefIx) (v : F32) : (State.stage sec ix v s).buf = s.buf := rfl
@[simp] theorem State.stage_out (sec : Nat) (ix : CoefIx) (v : F32) : (State.stage sec ix v s).out = s.out := rfl
@[simp] theorem State.stage_busy (sec : Nat) (ix : CoefIx) (v : F32) : (State.stage sec ix v s).busy = s.busy := rfl
@[simp] theorem State.stage_port (sec : Nat) (ix : CoefIx) (v : F32) : (State.stage sec ix v s).port = s.port := rfl
@[simp] theorem State.stage_draws (sec : Nat) (ix : CoefIx) (v : F32) :
    (State.stage sec ix v s).draws =
    s.draws := rfl
@[simp] theorem State.stage_era (sec : Nat) (ix : CoefIx) (v : F32) : (State.stage sec ix v s).era = s.era := rfl

/-! The fields after `commit`. -/

@[simp] theorem State.commit_cfg : (s.commit).cfg = s.cfg := rfl
@[simp] theorem State.commit_st : (s.commit).st = s.st := rfl
@[simp] theorem State.commit_err : (s.commit).err = s.err := rfl
@[simp] theorem State.commit_fs : (s.commit).fs = s.fs := rfl
@[simp] theorem State.commit_maxblk : (s.commit).maxblk = s.maxblk := rfl
@[simp] theorem State.commit_shd : (s.commit).shd = s.shd := rfl
@[simp] theorem State.commit_shdv : (s.commit).shdv = s.shdv := rfl
@[simp] theorem State.commit_act : (s.commit).act = s.shd := rfl
@[simp] theorem State.commit_av : (s.commit).av = true := rfl
@[simp] theorem State.commit_z : (s.commit).z = s.z := rfl
@[simp] theorem State.commit_buf : (s.commit).buf = s.buf := rfl
@[simp] theorem State.commit_out : (s.commit).out = s.out := rfl
@[simp] theorem State.commit_busy : (s.commit).busy = s.busy := rfl
@[simp] theorem State.commit_port : (s.commit).port = s.port := rfl
@[simp] theorem State.commit_draws : (s.commit).draws = s.draws := rfl
@[simp] theorem State.commit_era : (s.commit).era = s.era := rfl

/-! The fields after `clearDelays`. -/

@[simp] theorem State.clearDelays_cfg : (s.clearDelays).cfg = s.cfg := rfl
@[simp] theorem State.clearDelays_st : (s.clearDelays).st = s.st := rfl
@[simp] theorem State.clearDelays_err : (s.clearDelays).err = s.err := rfl
@[simp] theorem State.clearDelays_fs : (s.clearDelays).fs = s.fs := rfl
@[simp] theorem State.clearDelays_maxblk : (s.clearDelays).maxblk = s.maxblk := rfl
@[simp] theorem State.clearDelays_shd : (s.clearDelays).shd = s.shd := rfl
@[simp] theorem State.clearDelays_shdv : (s.clearDelays).shdv = s.shdv := rfl
@[simp] theorem State.clearDelays_act : (s.clearDelays).act = s.act := rfl
@[simp] theorem State.clearDelays_av : (s.clearDelays).av = s.av := rfl
@[simp] theorem State.clearDelays_z : (s.clearDelays).z = zeroDelays s.cfg := rfl
@[simp] theorem State.clearDelays_buf : (s.clearDelays).buf = s.buf := rfl
@[simp] theorem State.clearDelays_out : (s.clearDelays).out = s.out := rfl
@[simp] theorem State.clearDelays_busy : (s.clearDelays).busy = s.busy := rfl
@[simp] theorem State.clearDelays_port : (s.clearDelays).port = s.port := rfl
@[simp] theorem State.clearDelays_draws : (s.clearDelays).draws = s.draws := rfl
@[simp] theorem State.clearDelays_era : (s.clearDelays).era = s.era := rfl

/-! The fields after `forgetCoefs`. -/

@[simp] theorem State.forgetCoefs_cfg : (s.forgetCoefs).cfg = s.cfg := rfl
@[simp] theorem State.forgetCoefs_st : (s.forgetCoefs).st = s.st := rfl
@[simp] theorem State.forgetCoefs_err : (s.forgetCoefs).err = s.err := rfl
@[simp] theorem State.forgetCoefs_fs : (s.forgetCoefs).fs = s.fs := rfl
@[simp] theorem State.forgetCoefs_maxblk : (s.forgetCoefs).maxblk = s.maxblk := rfl
@[simp] theorem State.forgetCoefs_shd : (s.forgetCoefs).shd = freeBank s.cfg s.draws := rfl
@[simp] theorem State.forgetCoefs_shdv : (s.forgetCoefs).shdv = noneStaged s.cfg := rfl
@[simp] theorem State.forgetCoefs_act : (s.forgetCoefs).act = freeBank s.cfg (s.draws + 5 * s.cfg.nsec) := rfl
@[simp] theorem State.forgetCoefs_av : (s.forgetCoefs).av = false := rfl
@[simp] theorem State.forgetCoefs_z : (s.forgetCoefs).z = s.z := rfl
@[simp] theorem State.forgetCoefs_buf : (s.forgetCoefs).buf = s.buf := rfl
@[simp] theorem State.forgetCoefs_out : (s.forgetCoefs).out = s.out := rfl
@[simp] theorem State.forgetCoefs_busy : (s.forgetCoefs).busy = s.busy := rfl
@[simp] theorem State.forgetCoefs_port : (s.forgetCoefs).port = s.port := rfl
@[simp] theorem State.forgetCoefs_draws : (s.forgetCoefs).draws = s.draws + 10 * s.cfg.nsec := rfl
@[simp] theorem State.forgetCoefs_era : (s.forgetCoefs).era = s.era := rfl

/-! The fields after `forgetDelays`. -/

@[simp] theorem State.forgetDelays_cfg : (s.forgetDelays).cfg = s.cfg := rfl
@[simp] theorem State.forgetDelays_st : (s.forgetDelays).st = s.st := rfl
@[simp] theorem State.forgetDelays_err : (s.forgetDelays).err = s.err := rfl
@[simp] theorem State.forgetDelays_fs : (s.forgetDelays).fs = s.fs := rfl
@[simp] theorem State.forgetDelays_maxblk : (s.forgetDelays).maxblk = s.maxblk := rfl
@[simp] theorem State.forgetDelays_shd : (s.forgetDelays).shd = s.shd := rfl
@[simp] theorem State.forgetDelays_shdv : (s.forgetDelays).shdv = s.shdv := rfl
@[simp] theorem State.forgetDelays_act : (s.forgetDelays).act = s.act := rfl
@[simp] theorem State.forgetDelays_av : (s.forgetDelays).av = s.av := rfl
@[simp] theorem State.forgetDelays_z : (s.forgetDelays).z = freeDelays s.cfg s.draws := rfl
@[simp] theorem State.forgetDelays_buf : (s.forgetDelays).buf = s.buf := rfl
@[simp] theorem State.forgetDelays_out : (s.forgetDelays).out = s.out := rfl
@[simp] theorem State.forgetDelays_busy : (s.forgetDelays).busy = s.busy := rfl
@[simp] theorem State.forgetDelays_port : (s.forgetDelays).port = s.port := rfl
@[simp] theorem State.forgetDelays_draws : (s.forgetDelays).draws = s.draws + 2 * (s.cfg.nch * s.cfg.nsec) := rfl
@[simp] theorem State.forgetDelays_era : (s.forgetDelays).era = s.era := rfl

/-! The fields after `respond`. -/

@[simp] theorem State.respond_cfg (code : RespCode) (data : BitVec 32) :
    (State.respond code data s).cfg =
    s.cfg := rfl
@[simp] theorem State.respond_st (code : RespCode) (data : BitVec 32) : (State.respond code data s).st = s.st := rfl
@[simp] theorem State.respond_err (code : RespCode) (data : BitVec 32) :
    (State.respond code data s).err =
    s.err := rfl
@[simp] theorem State.respond_fs (code : RespCode) (data : BitVec 32) : (State.respond code data s).fs = s.fs := rfl
@[simp] theorem State.respond_maxblk (code : RespCode) (data : BitVec 32) :
    (State.respond code data s).maxblk =
    s.maxblk := rfl
@[simp] theorem State.respond_shd (code : RespCode) (data : BitVec 32) :
    (State.respond code data s).shd =
    s.shd := rfl
@[simp] theorem State.respond_shdv (code : RespCode) (data : BitVec 32) :
    (State.respond code data s).shdv =
    s.shdv := rfl
@[simp] theorem State.respond_act (code : RespCode) (data : BitVec 32) :
    (State.respond code data s).act =
    s.act := rfl
@[simp] theorem State.respond_av (code : RespCode) (data : BitVec 32) : (State.respond code data s).av = s.av := rfl
@[simp] theorem State.respond_z (code : RespCode) (data : BitVec 32) : (State.respond code data s).z = s.z := rfl
@[simp] theorem State.respond_buf (code : RespCode) (data : BitVec 32) :
    (State.respond code data s).buf =
    s.buf := rfl
@[simp] theorem State.respond_out (code : RespCode) (data : BitVec 32) :
    (State.respond code data s).out =
    some ⟨code, data⟩ := rfl
@[simp] theorem State.respond_busy (code : RespCode) (data : BitVec 32) :
    (State.respond code data s).busy =
    false := rfl
@[simp] theorem State.respond_port (code : RespCode) (data : BitVec 32) :
    (State.respond code data s).port =
    s.port := rfl
@[simp] theorem State.respond_draws (code : RespCode) (data : BitVec 32) :
    (State.respond code data s).draws =
    s.draws := rfl
@[simp] theorem State.respond_era (code : RespCode) (data : BitVec 32) :
    (State.respond code data s).era =
    s.era := rfl

/-! The fields after `fail`. -/

@[simp] theorem State.fail_cfg (code : RespCode) : (State.fail code s).cfg = s.cfg := rfl
@[simp] theorem State.fail_st (code : RespCode) : (State.fail code s).st = s.st := rfl
@[simp] theorem State.fail_err (code : RespCode) : (State.fail code s).err = errAfter s.err code := rfl
@[simp] theorem State.fail_fs (code : RespCode) : (State.fail code s).fs = s.fs := rfl
@[simp] theorem State.fail_maxblk (code : RespCode) : (State.fail code s).maxblk = s.maxblk := rfl
@[simp] theorem State.fail_shd (code : RespCode) : (State.fail code s).shd = s.shd := rfl
@[simp] theorem State.fail_shdv (code : RespCode) : (State.fail code s).shdv = s.shdv := rfl
@[simp] theorem State.fail_act (code : RespCode) : (State.fail code s).act = s.act := rfl
@[simp] theorem State.fail_av (code : RespCode) : (State.fail code s).av = s.av := rfl
@[simp] theorem State.fail_z (code : RespCode) : (State.fail code s).z = s.z := rfl
@[simp] theorem State.fail_buf (code : RespCode) : (State.fail code s).buf = s.buf := rfl
@[simp] theorem State.fail_out (code : RespCode) : (State.fail code s).out = some ⟨code, 0#32⟩ := rfl
@[simp] theorem State.fail_busy (code : RespCode) : (State.fail code s).busy = false := rfl
@[simp] theorem State.fail_port (code : RespCode) : (State.fail code s).port = s.port := rfl
@[simp] theorem State.fail_draws (code : RespCode) : (State.fail code s).draws = s.draws := rfl
@[simp] theorem State.fail_era (code : RespCode) : (State.fail code s).era = s.era := rfl

/-! The fields after `accept`. -/

@[simp] theorem State.accept_cfg : (s.accept).cfg = s.cfg := rfl
@[simp] theorem State.accept_st : (s.accept).st = s.st := rfl
@[simp] theorem State.accept_err : (s.accept).err = s.err := rfl
@[simp] theorem State.accept_fs : (s.accept).fs = s.fs := rfl
@[simp] theorem State.accept_maxblk : (s.accept).maxblk = s.maxblk := rfl
@[simp] theorem State.accept_shd : (s.accept).shd = s.shd := rfl
@[simp] theorem State.accept_shdv : (s.accept).shdv = s.shdv := rfl
@[simp] theorem State.accept_act : (s.accept).act = s.act := rfl
@[simp] theorem State.accept_av : (s.accept).av = s.av := rfl
@[simp] theorem State.accept_z : (s.accept).z = s.z := rfl
@[simp] theorem State.accept_buf : (s.accept).buf = s.buf := rfl
@[simp] theorem State.accept_out : (s.accept).out = s.out := rfl
@[simp] theorem State.accept_busy : (s.accept).busy = true := rfl
@[simp] theorem State.accept_port : (s.accept).port = s.port := rfl
@[simp] theorem State.accept_draws : (s.accept).draws = s.draws := rfl
@[simp] theorem State.accept_era : (s.accept).era = s.era := rfl

/-! The fields after `prepare`. -/

@[simp] theorem State.prepare_cfg (b : Nat) (fs : F32) : (State.prepare b fs s).cfg = s.cfg := rfl
@[simp] theorem State.prepare_st (b : Nat) (fs : F32) : (State.prepare b fs s).st = .prepared := rfl
@[simp] theorem State.prepare_err (b : Nat) (fs : F32) : (State.prepare b fs s).err = s.err := rfl
@[simp] theorem State.prepare_fs (b : Nat) (fs : F32) : (State.prepare b fs s).fs = fs := rfl
@[simp] theorem State.prepare_maxblk (b : Nat) (fs : F32) : (State.prepare b fs s).maxblk = BitVec.ofNat 16 b := rfl
@[simp] theorem State.prepare_shd (b : Nat) (fs : F32) : (State.prepare b fs s).shd = freeBank s.cfg s.draws := rfl
@[simp] theorem State.prepare_shdv (b : Nat) (fs : F32) : (State.prepare b fs s).shdv = noneStaged s.cfg := rfl
@[simp] theorem State.prepare_act (b : Nat) (fs : F32) :
    (State.prepare b fs s).act =
    freeBank s.cfg (s.draws + 5 * s.cfg.nsec) := rfl
@[simp] theorem State.prepare_av (b : Nat) (fs : F32) : (State.prepare b fs s).av = false := rfl
@[simp] theorem State.prepare_z (b : Nat) (fs : F32) : (State.prepare b fs s).z = zeroDelays s.cfg := rfl
@[simp] theorem State.prepare_buf (b : Nat) (fs : F32) : (State.prepare b fs s).buf = s.buf := rfl
@[simp] theorem State.prepare_out (b : Nat) (fs : F32) : (State.prepare b fs s).out = s.out := rfl
@[simp] theorem State.prepare_busy (b : Nat) (fs : F32) : (State.prepare b fs s).busy = s.busy := rfl
@[simp] theorem State.prepare_port (b : Nat) (fs : F32) : (State.prepare b fs s).port = s.port := rfl
@[simp] theorem State.prepare_draws (b : Nat) (fs : F32) :
    (State.prepare b fs s).draws =
    s.draws + 10 * s.cfg.nsec := rfl
@[simp] theorem State.prepare_era (b : Nat) (fs : F32) : (State.prepare b fs s).era = s.era := rfl

/-! The fields after `release`. -/

@[simp] theorem State.release_cfg : (s.release).cfg = s.cfg := rfl
@[simp] theorem State.release_st : (s.release).st = .released := rfl
@[simp] theorem State.release_err : (s.release).err = s.err := rfl
@[simp] theorem State.release_fs : (s.release).fs = 0#32 := rfl
@[simp] theorem State.release_maxblk : (s.release).maxblk = 0#16 := rfl
@[simp] theorem State.release_shd : (s.release).shd = freeBank s.cfg s.draws := rfl
@[simp] theorem State.release_shdv : (s.release).shdv = noneStaged s.cfg := rfl
@[simp] theorem State.release_act : (s.release).act = freeBank s.cfg (s.draws + 5 * s.cfg.nsec) := rfl
@[simp] theorem State.release_av : (s.release).av = false := rfl
@[simp] theorem State.release_z : (s.release).z = freeDelays s.cfg (s.draws + 10 * s.cfg.nsec) := rfl
@[simp] theorem State.release_buf : (s.release).buf = s.buf := rfl
@[simp] theorem State.release_out : (s.release).out = s.out := rfl
@[simp] theorem State.release_busy : (s.release).busy = s.busy := rfl
@[simp] theorem State.release_port : (s.release).port = s.port := rfl
@[simp] theorem State.release_draws :
    (s.release).draws =
    s.draws + 10 * s.cfg.nsec + 2 * (s.cfg.nch * s.cfg.nsec) := rfl
@[simp] theorem State.release_era : (s.release).era = s.era := rfl

/-! The fields after `procSample`. -/

@[simp] theorem State.procSample_cfg (sec c n : Nat) : (s.procSample sec c n).cfg = s.cfg := rfl
@[simp] theorem State.procSample_st (sec c n : Nat) : (s.procSample sec c n).st = s.st := rfl
@[simp] theorem State.procSample_err (sec c n : Nat) : (s.procSample sec c n).err = s.err := rfl
@[simp] theorem State.procSample_fs (sec c n : Nat) : (s.procSample sec c n).fs = s.fs := rfl
@[simp] theorem State.procSample_maxblk (sec c n : Nat) : (s.procSample sec c n).maxblk = s.maxblk := rfl
@[simp] theorem State.procSample_shd (sec c n : Nat) : (s.procSample sec c n).shd = s.shd := rfl
@[simp] theorem State.procSample_shdv (sec c n : Nat) : (s.procSample sec c n).shdv = s.shdv := rfl
@[simp] theorem State.procSample_act (sec c n : Nat) : (s.procSample sec c n).act = s.act := rfl
@[simp] theorem State.procSample_av (sec c n : Nat) : (s.procSample sec c n).av = s.av := rfl
@[simp] theorem State.procSample_z (sec c n : Nat) :
    (s.procSample sec c n).z =
    s.z.modify sec fun row => row.set c
      (sectionStep s.stepNaN (s.activeCoefs sec) (s.delay sec c) (s.bufWord c n)).2 := rfl
@[simp] theorem State.procSample_buf (sec c n : Nat) :
    (s.procSample sec c n).buf =
    Memory.writeWord s.buf (wordAddr s.cfg c n)
      (sectionStep s.stepNaN (s.activeCoefs sec) (s.delay sec c) (s.bufWord c n)).1 := rfl
@[simp] theorem State.procSample_out (sec c n : Nat) : (s.procSample sec c n).out = s.out := rfl
@[simp] theorem State.procSample_busy (sec c n : Nat) : (s.procSample sec c n).busy = s.busy := rfl
@[simp] theorem State.procSample_port (sec c n : Nat) : (s.procSample sec c n).port = s.port := rfl
@[simp] theorem State.procSample_draws (sec c n : Nat) : (s.procSample sec c n).draws = s.draws + 9 := rfl
@[simp] theorem State.procSample_era (sec c n : Nat) : (s.procSample sec c n).era = s.era := rfl

/-! The fields after `present`. -/

@[simp] theorem State.present_cfg (w : CmdWord) : (State.present w s).cfg = s.cfg := rfl
@[simp] theorem State.present_st (w : CmdWord) : (State.present w s).st = s.st := rfl
@[simp] theorem State.present_err (w : CmdWord) : (State.present w s).err = s.err := rfl
@[simp] theorem State.present_fs (w : CmdWord) : (State.present w s).fs = s.fs := rfl
@[simp] theorem State.present_maxblk (w : CmdWord) : (State.present w s).maxblk = s.maxblk := rfl
@[simp] theorem State.present_shd (w : CmdWord) : (State.present w s).shd = s.shd := rfl
@[simp] theorem State.present_shdv (w : CmdWord) : (State.present w s).shdv = s.shdv := rfl
@[simp] theorem State.present_act (w : CmdWord) : (State.present w s).act = s.act := rfl
@[simp] theorem State.present_av (w : CmdWord) : (State.present w s).av = s.av := rfl
@[simp] theorem State.present_z (w : CmdWord) : (State.present w s).z = s.z := rfl
@[simp] theorem State.present_buf (w : CmdWord) : (State.present w s).buf = s.buf := rfl
@[simp] theorem State.present_out (w : CmdWord) : (State.present w s).out = s.out := rfl
@[simp] theorem State.present_busy (w : CmdWord) : (State.present w s).busy = s.busy := rfl
@[simp] theorem State.present_port (w : CmdWord) : (State.present w s).port = .command w :: s.port := rfl
@[simp] theorem State.present_draws (w : CmdWord) : (State.present w s).draws = s.draws := rfl
@[simp] theorem State.present_era (w : CmdWord) : (State.present w s).era = s.era := rfl

/-! The fields after `hardReset`. -/

@[simp] theorem State.hardReset_cfg : (s.hardReset).cfg = s.cfg := rfl
@[simp] theorem State.hardReset_st : (s.hardReset).st = .unprepared := rfl
@[simp] theorem State.hardReset_err : (s.hardReset).err = 0#8 := rfl
@[simp] theorem State.hardReset_fs : (s.hardReset).fs = 0#32 := rfl
@[simp] theorem State.hardReset_maxblk : (s.hardReset).maxblk = 0#16 := rfl
@[simp] theorem State.hardReset_shd :
    (s.hardReset).shd =
    List.replicate s.cfg.nsec ⟨0#32, 0#32, 0#32, 0#32, 0#32⟩ := rfl
@[simp] theorem State.hardReset_shdv : (s.hardReset).shdv = noneStaged s.cfg := rfl
@[simp] theorem State.hardReset_act :
    (s.hardReset).act =
    List.replicate s.cfg.nsec ⟨0#32, 0#32, 0#32, 0#32, 0#32⟩ := rfl
@[simp] theorem State.hardReset_av : (s.hardReset).av = false := rfl
@[simp] theorem State.hardReset_z : (s.hardReset).z = zeroDelays s.cfg := rfl
@[simp] theorem State.hardReset_buf : (s.hardReset).buf = [] := rfl
@[simp] theorem State.hardReset_out : (s.hardReset).out = none := rfl
@[simp] theorem State.hardReset_busy : (s.hardReset).busy = false := rfl
@[simp] theorem State.hardReset_port : (s.hardReset).port = s.port := rfl
@[simp] theorem State.hardReset_draws : (s.hardReset).draws = s.draws := rfl
@[simp] theorem State.hardReset_era : (s.hardReset).era = s.era + 1 := rfl

end Sys2Proof.Machine
end

