-- ==== Sys2Proof/Laws/Memory.lean ====
section
/-! SUPPORT. BUF as memory: read after write, the canonical form, and whole words (R42). -/

namespace Sys2Proof.Machine

/-! Bytes. -/

theorem Memory.read_write (m : Memory) (a b : Nat) (v : Byte) :
    Memory.read (Memory.write m a v) b = if a = b then some v else Memory.read m b := by
  induction m with
  | nil => simp [Memory.write, Memory.read]
  | cons x rest ih =>
    obtain ⟨a', v'⟩ := x
    simp only [Memory.write]
    split_ifs <;> simp_all [Memory.read]

theorem Memory.read_write_same (m : Memory) (a : Nat) (v : Byte) :
    Memory.read (Memory.write m a v) a = some v := by
  simp [Memory.read_write]

theorem Memory.read_write_other (m : Memory) {a b : Nat} (v : Byte) (h : a ≠ b) :
    Memory.read (Memory.write m a v) b = Memory.read m b := by
  simp [Memory.read_write, h]

/-- The canonical form as a fact about every pair of neighbours. -/
theorem Memory.wf_cons (x : Host.Cell) (m : Memory) :
    Memory.wf (x :: m) = true ↔ (∀ y ∈ m.head?, x.1 < y.1) ∧ Memory.wf m = true := by
  cases m with
  | nil => simp [Memory.wf]
  | cons y rest => simp [Memory.wf]

theorem Memory.head_write (m : Memory) (a : Nat) (v : Byte) :
    ∀ y ∈ (Memory.write m a v).head?, y.1 = a ∨ ∃ x ∈ m.head?, y.1 = x.1 := by
  cases m with
  | nil => simp [Memory.write]
  | cons x rest =>
    simp only [Memory.write]
    split_ifs <;> simp

/-- A write keeps the canonical form. -/
theorem Memory.wf_write (m : Memory) (a : Nat) (v : Byte) (h : Memory.wf m = true) :
    Memory.wf (Memory.write m a v) = true := by
  induction m with
  | nil => rfl
  | cons x rest ih =>
    obtain ⟨hx, hrest⟩ := (Memory.wf_cons x rest).1 h
    simp only [Memory.write]
    split_ifs with h1 h2
    · exact (Memory.wf_cons _ _).2 ⟨by simpa using h1, h⟩
    · exact (Memory.wf_cons _ _).2 ⟨fun y hy => h2 ▸ hx y hy, hrest⟩
    · refine (Memory.wf_cons _ _).2 ⟨fun y hy => ?_, ih hrest⟩
      rcases Memory.head_write rest a v y hy with e | ⟨w, hw, e⟩
      · show x.1 < y.1
        omega
      · rw [e]
        exact hx w hw

theorem Memory.mem_write (m : Memory) (a : Nat) (v : Byte) (x : Host.Cell) (h : x ∈ Memory.write m a v) :
    x.1 = a ∨ x ∈ m := by
  induction m with
  | nil => simp_all [Memory.write]
  | cons y rest ih =>
    simp only [Memory.write] at h
    split_ifs at h <;> simp only [List.mem_cons] at h ⊢ <;> rcases h with h | h <;> simp_all
    all_goals tauto

/-! Words. -/

theorem Memory.wf_writeWord (m : Memory) (wa : Nat) (v : F32) (h : Memory.wf m = true) :
    Memory.wf (Memory.writeWord m wa v) = true := by
  simp only [Memory.writeWord]
  exact Memory.wf_write _ _ _ (Memory.wf_write _ _ _ (Memory.wf_write _ _ _ (Memory.wf_write _ _ _ h)))

theorem Memory.mem_writeWord (m : Memory) (wa : Nat) (v : F32) (x : Host.Cell)
    (h : x ∈ Memory.writeWord m wa v) : x.1 / 4 = wa ∨ x ∈ m := by
  simp only [Memory.writeWord] at h
  rcases Memory.mem_write _ _ _ _ h with e | h
  · omega
  rcases Memory.mem_write _ _ _ _ h with e | h
  · omega
  rcases Memory.mem_write _ _ _ _ h with e | h
  · omega
  rcases Memory.mem_write _ _ _ _ h with e | h
  · omega
  exact .inr h

/-- What a byte reads as after a word was written: the word's byte, or what it read as before. -/
theorem Memory.read_writeWord (m : Memory) (wa a : Nat) (v : F32) :
    Memory.read (Memory.writeWord m wa v) a =
      if a / 4 = wa then some (v.extractLsb' (8 * (a % 4)) 8) else Memory.read m a := by
  simp only [Memory.writeWord, Memory.read_write]
  have ha : a = 4 * (a / 4) + a % 4 := by omega
  have hlt : a % 4 < 4 := by omega
  split_ifs with h3 h2 h1 h0 h h h h <;> first | (exfalso; omega) | skip
  · have : a % 4 = 3 := by omega
    simp [this]
  · have : a % 4 = 2 := by omega
    simp [this]
  · have : a % 4 = 1 := by omega
    simp [this]
  · have : a % 4 = 0 := by omega
    simp [this]
  · rfl

/-- A byte of the state after `BUF[c][n] <- v` (R42, R130). -/
theorem State.bufByte_setBufWord (s : State) (c n a : Nat) (v : F32) :
    (State.setBufWord c n v s).bufByte a =
      if a / 4 = wordAddr s.cfg c n then v.extractLsb' (8 * (a % 4)) 8 else s.bufByte a := by
  simp only [State.bufByte, State.setBufWord_buf, State.setBufWord_era, Memory.read_writeWord]
  split_ifs <;> rfl

/-- The bytes of a word, put together again, are the word (R44). -/
theorem f32OfBytes_bytes (v : F32) :
    f32OfBytes (v.extractLsb' 0 8) (v.extractLsb' 8 8) (v.extractLsb' 16 8) (v.extractLsb' 24 8) = v := by
  apply BitVec.eq_of_getLsbD_eq
  intro i hi
  simp only [f32OfBytes, BitVec.getLsbD_append, BitVec.getLsbD_extractLsb']
  by_cases h8 : i < 8
  · simp [h8]
  by_cases h16 : i < 16
  · have e : 8 + (i - 8) = i := by omega
    simp [h8, show i - 8 < 8 by omega, e]
  by_cases h24 : i < 24
  · have e : 16 + (i - 8 - 8) = i := by omega
    simp [h8, show ¬ i - 8 < 8 by omega, show i - 8 - 8 < 8 by omega, e]
  · have e : 24 + (i - 8 - 8 - 8) = i := by omega
    simp [h8, show ¬ i - 8 < 8 by omega, show ¬ i - 8 - 8 < 8 by omega, show i - 8 - 8 - 8 < 8 by omega, e]

/-- The bytes of four bytes put together are those four (R44). -/
theorem bytesOfF32_f32OfBytes (b0 b1 b2 b3 : Byte) : bytesOfF32 (f32OfBytes b0 b1 b2 b3) = [b0, b1, b2, b3] := by
  have byte : ∀ (k : Nat) (b : Byte), (∀ i < 8, (f32OfBytes b0 b1 b2 b3).getLsbD (k + i) = b.getLsbD i) →
      (f32OfBytes b0 b1 b2 b3).extractLsb' k 8 = b := by
    intro k b h
    apply BitVec.eq_of_getLsbD_eq
    intro i hi
    rw [BitVec.getLsbD_extractLsb', h i hi]
    simp [hi]
  rw [bytesOfF32, byte 0 b0, byte 8 b1, byte 16 b2, byte 24 b3]
  all_goals
    intro i hi
    simp only [f32OfBytes, BitVec.getLsbD_append]
  · rw [if_neg (by omega), if_neg (by omega), if_neg (by omega)]
    congr 1
    omega
  · rw [if_neg (by omega), if_neg (by omega), if_pos (by omega)]
    congr 1
    omega
  · rw [if_neg (by omega), if_pos (by omega)]
    congr 1
    omega
  · rw [if_pos (by omega)]
    congr 1
    omega

/-- A word of the state after `BUF[c][n] <- v`, by word address. -/
theorem State.memRead_setBufWord (s : State) (c n wa : Nat) (v : F32) :
    (State.setBufWord c n v s).memRead wa = if wa = wordAddr s.cfg c n then v else s.memRead wa := by
  simp only [State.memRead, State.bufByte_setBufWord]
  have h0 : 4 * wa / 4 = wa := by omega
  have h1 : (4 * wa + 1) / 4 = wa := by omega
  have h2 : (4 * wa + 2) / 4 = wa := by omega
  have h3 : (4 * wa + 3) / 4 = wa := by omega
  have m0 : 4 * wa % 4 = 0 := by omega
  have m1 : (4 * wa + 1) % 4 = 1 := by omega
  have m2 : (4 * wa + 2) % 4 = 2 := by omega
  have m3 : (4 * wa + 3) % 4 = 3 := by omega
  simp only [h0, h1, h2, h3, m0, m1, m2, m3]
  split_ifs
  · exact f32OfBytes_bytes v
  · rfl

/-- Two words of BUF have different addresses (R40). -/
theorem wordAddr_inj (p : Params) {c n c' n' : Nat} (h : n < p.maxcap) (h' : n' < p.maxcap) :
    wordAddr p c n = wordAddr p c' n' ↔ c = c' ∧ n = n' := by
  simp only [wordAddr]
  constructor
  · intro e
    have hc : c = c' := by
      rcases Nat.lt_trichotomy c c' with hl | hl | hl
      · have := Nat.mul_le_mul_right p.maxcap (Nat.succ_le_of_lt hl)
        rw [Nat.succ_mul] at this
        omega
      · exact hl
      · have := Nat.mul_le_mul_right p.maxcap (Nat.succ_le_of_lt hl)
        rw [Nat.succ_mul] at this
        omega
    subst hc
    exact ⟨rfl, by omega⟩
  · rintro ⟨rfl, rfl⟩
    rfl

/-- A word inside BUF has an address inside BUF (R40, R119). -/
theorem wordAddr_lt (p : Params) {c n : Nat} (hc : c < p.nch) (hn : n < p.maxcap) :
    wordAddr p c n < p.nch * p.maxcap := by
  have := Nat.mul_le_mul_right p.maxcap (Nat.succ_le_of_lt hc)
  rw [Nat.succ_mul] at this
  simp only [wordAddr]
  omega

/-- BUF[c'][n'] after `BUF[c][n] <- v` (R49, R130). -/
theorem State.bufWord_setBufWord (s : State) {c n c' n' : Nat} (v : F32)
    (h : n < s.cfg.maxcap) (h' : n' < s.cfg.maxcap) :
    (State.setBufWord c n v s).bufWord c' n' = if c' = c ∧ n' = n then v else s.bufWord c' n' := by
  simp only [State.bufWord, State.memRead_setBufWord, State.setBufWord_cfg, wordAddr_inj s.cfg h' h]

/-- Reading bytes depends on BUF's contents and the reset count alone. -/
theorem State.bufByte_congr {s t : State} (hb : t.buf = s.buf) (he : t.era = s.era) (a : Nat) :
    t.bufByte a = s.bufByte a := by
  simp only [State.bufByte, hb, he]

theorem State.memRead_congr {s t : State} (h : ∀ a, t.bufByte a = s.bufByte a) (wa : Nat) :
    t.memRead wa = s.memRead wa := by
  simp only [State.memRead, h]

theorem State.bufWord_congr {s t : State} (hc : t.cfg = s.cfg) (h : ∀ a, t.bufByte a = s.bufByte a) (c n : Nat) :
    t.bufWord c n = s.bufWord c n := by
  simp only [State.bufWord, hc, State.memRead_congr h]

end Sys2Proof.Machine
end

