-- ==== Sys2Proof/Laws/Ops.lean ====
section
/-! SUPPORT. For each shared operation, once, what it does to what the claims read: bytes and words of BUF, delay
elements, coefficients. -/

namespace Sys2Proof.Machine

variable (s : State)

/-! BUF is read the same after an operation that does not write it. -/

@[simp] theorem State.bufByte_respond (code : RespCode) (data : BitVec 32) (a : Nat) :
    (State.respond code data s).bufByte a = s.bufByte a := rfl
@[simp] theorem State.bufByte_fail (code : RespCode) (a : Nat) : (State.fail code s).bufByte a = s.bufByte a := rfl
@[simp] theorem State.bufByte_accept (a : Nat) : s.accept.bufByte a = s.bufByte a := rfl
@[simp] theorem State.bufByte_stage (sec : Nat) (ix : CoefIx) (v : F32) (a : Nat) :
    (State.stage sec ix v s).bufByte a = s.bufByte a := rfl
@[simp] theorem State.bufByte_commit (a : Nat) : s.commit.bufByte a = s.bufByte a := rfl
@[simp] theorem State.bufByte_clearDelays (a : Nat) : s.clearDelays.bufByte a = s.bufByte a := rfl
@[simp] theorem State.bufByte_prepare (b : Nat) (fs : F32) (a : Nat) :
    (State.prepare b fs s).bufByte a = s.bufByte a := rfl
@[simp] theorem State.bufByte_release (a : Nat) : s.release.bufByte a = s.bufByte a := rfl
@[simp] theorem State.bufByte_setDelay (sec c : Nat) (d : Delay) (a : Nat) :
    (State.setDelay sec c d s).bufByte a = s.bufByte a := rfl

/-- After hardware reset every byte is any value, fixed until written (R171, U3). -/
theorem State.bufByte_hardReset (a : Nat) : s.hardReset.bufByte a = Config.unwrittenByte (s.era + 1) a := rfl

/-! Delay elements (R19). -/

theorem getD_modify {α : Type} (l : List α) (f : α → α) (i j : Nat) (d : α) :
    (l.modify i f).getD j d = if i = j ∧ j < l.length then f (l.getD j d) else l.getD j d := by
  simp only [List.getD_eq_getElem?_getD, List.getElem?_modify]
  by_cases hj : j < l.length
  · by_cases hi : i = j <;> simp [hi, hj]
  · simp [hj]

theorem getD_set {α : Type} (l : List α) (x : α) (i j : Nat) (d : α) :
    (l.set i x).getD j d = if i = j ∧ j < l.length then x else l.getD j d := by
  simp only [List.getD_eq_getElem?_getD, List.getElem?_set]
  by_cases hj : j < l.length
  · by_cases hi : i = j <;> simp [hi, hj]
  · by_cases hi : i = j <;> simp [hi, hj]

/-- The block has the delay elements of section `sec`, channel `c`. -/
def State.hasDelay (s : State) (sec c : Nat) : Prop := sec < s.z.length ∧ c < (s.z.getD sec []).length

theorem State.Good.hasDelay {s : State} (h : s.Good) {sec c : Nat} (hs : sec < s.cfg.nsec) (hc : c < s.cfg.nch) :
    s.hasDelay sec c := by
  have hl : sec < s.z.length := h.z_length ▸ hs
  refine ⟨hl, ?_⟩
  rw [List.getD_eq_getElem _ _ hl, h.z_rows _ (List.getElem_mem hl)]
  exact hc

/-- Z[sec'][c'] after `Z[sec][c] <- d` (R19). -/
theorem State.delay_setDelay {sec c sec' c' : Nat} (d : Delay) (h : s.hasDelay sec c) :
    (State.setDelay sec c d s).delay sec' c' = if sec' = sec ∧ c' = c then d else s.delay sec' c' := by
  simp only [State.delay, State.setDelay_z, getD_modify]
  by_cases hs : sec = sec'
  · subst hs
    simp only [h.1, and_self, if_true, getD_set, true_and]
    by_cases hc : c = c'
    · subst hc
      simp only [h.2, and_self, if_true]
    · simp only [hc, Ne.symm hc, false_and, if_false]
  · simp only [hs, Ne.symm hs, false_and, if_false]

/-- PREP and RST leave +0.0 in every delay element (R19 (b)). -/
theorem delay_zeroDelays (p : Params) (sec c : Nat) :
    ((zeroDelays p).getD sec []).getD c ⟨0#32, 0#32⟩ = ⟨0#32, 0#32⟩ := by
  simp only [zeroDelays, List.getD_eq_getElem?_getD, List.getElem?_replicate]
  split_ifs
  · simp only [Option.getD_some, List.getElem?_replicate]
    split_ifs <;> rfl
  · rfl

@[simp] theorem State.delay_clearDelays (sec c : Nat) : s.clearDelays.delay sec c = ⟨0#32, 0#32⟩ :=
  delay_zeroDelays s.cfg sec c

@[simp] theorem State.delay_prepare (b : Nat) (fs : F32) (sec c : Nat) :
    (State.prepare b fs s).delay sec c = ⟨0#32, 0#32⟩ :=
  delay_zeroDelays s.cfg sec c

/-! The staging bank (R17, R90). -/

theorem Five.get_set {α : Type} (f : Five α) (ix jx : CoefIx) (v : α) :
    (f.set ix v).get jx = if jx = ix then v else f.get jx := by
  cases ix <;> cases jx <;> rfl

theorem State.stagedWord_stage {sec : Nat} (ix : CoefIx) (v : F32) (h : sec < s.shd.length) (sec' : Nat) (jx : CoefIx) :
    (State.stage sec ix v s).stagedWord sec' jx = if sec' = sec ∧ jx = ix then some v else s.stagedWord sec' jx := by
  simp only [State.stagedWord, State.stage_shd, List.getElem?_modify]
  by_cases hs : sec = sec'
  · subst hs
    simp only [List.getElem?_eq_getElem h, Option.map_eq_map, Option.map_some, Five.get_set, true_and, if_true]
    split_ifs <;> rfl
  · simp [hs, Ne.symm hs]

theorem State.stagedValid_stage {sec : Nat} (ix : CoefIx) (v : F32) (h : sec < s.shdv.length) (sec' : Nat)
    (jx : CoefIx) :
    (State.stage sec ix v s).stagedValid sec' jx =
      if sec' = sec ∧ jx = ix then some true else s.stagedValid sec' jx := by
  simp only [State.stagedValid, State.stage_shdv, List.getElem?_modify]
  by_cases hs : sec = sec'
  · subst hs
    simp only [List.getElem?_eq_getElem h, Option.map_eq_map, Option.map_some, Five.get_set, true_and, if_true]
    split_ifs <;> rfl
  · simp [hs, Ne.symm hs]

/-- LDC's index operand names a coefficient exactly when it is that coefficient's index (R16, R90). -/
theorem coefOfIndex_eq_some {k : Nat} {ix : CoefIx} : coefOfIndex k = some ix ↔ k = ix.index := by
  simp only [coefOfIndex]
  constructor
  · intro h
    split_ifs at h <;> simp_all <;> subst h <;> rfl
  · rintro rfl
    cases ix <;> rfl

theorem coefOfIndex_eq_none {k : Nat} : coefOfIndex k = none ↔ 5 ≤ k := by
  simp only [coefOfIndex]
  constructor
  · intro h
    split_ifs at h
    omega
  · intro h
    have h0 : k ≠ 0 := by omega
    have h1 : k ≠ 1 := by omega
    have h2 : k ≠ 2 := by omega
    have h3 : k ≠ 3 := by omega
    have h4 : k ≠ 4 := by omega
    simp [h0, h1, h2, h3, h4]

/-! Lengths of the banks (R10). -/

@[simp] theorem length_noneStaged (p : Params) : (noneStaged p).length = p.nsec := by simp [noneStaged]
@[simp] theorem length_freeBank (p : Params) (d : Nat) : (freeBank p d).length = p.nsec := by simp [freeBank]
@[simp] theorem length_freeDelays (p : Params) (d : Nat) : (freeDelays p d).length = p.nsec := by simp [freeDelays]
@[simp] theorem length_zeroDelays (p : Params) : (zeroDelays p).length = p.nsec := by simp [zeroDelays]

theorem rows_freeDelays (p : Params) (d : Nat) : ∀ row ∈ freeDelays p d, row.length = p.nch := by
  simp [freeDelays]

theorem rows_zeroDelays (p : Params) : ∀ row ∈ zeroDelays p, row.length = p.nch := by
  simp [zeroDelays]

/-- The response record's bytes: the data's four, lowest first, then the code (R44, R66). -/
theorem Response.bytes_eq (r : Response) : r.bytes = bytesOfF32 r.data ++ [r.code.bits] := by
  have hd : ∀ k, k + 8 ≤ 32 → r.bits.extractLsb' k 8 = r.data.extractLsb' k 8 := by
    intro k hk
    apply BitVec.eq_of_getLsbD_eq
    intro i hi
    simp only [Response.bits, BitVec.getLsbD_extractLsb', BitVec.getLsbD_append]
    simp [show k + i < 32 by omega]
  have hc : r.bits.extractLsb' 32 8 = r.code.bits := by
    apply BitVec.eq_of_getLsbD_eq
    intro i hi
    simp only [Response.bits, BitVec.getLsbD_extractLsb', BitVec.getLsbD_append]
    simp [hi]
  rw [Response.bytes, hd 0 (by decide), hd 8 (by decide), hd 16 (by decide), hd 24 (by decide), hc]
  rfl

/-- The number a code stands for is at most 4 (R141, U8). -/
theorem RespCode.bits_le (code : RespCode) : code.bits.toNat ≤ 4 := by cases code <;> decide

theorem errAfter_le {old : BitVec 8} (code : RespCode) (h : old.toNat ≤ 4) : (errAfter old code).toNat ≤ 4 := by
  simp only [errAfter]
  split_ifs
  · exact code.bits_le
  · exact h

end Sys2Proof.Machine
end

