-- ==== Sys2Proof/Laws/Process.lean ====
section
/-! SUPPORT. PROC's loop nest: the one induction over it, and what it never writes (R101, R102 (e)). -/

namespace Sys2Proof.Machine

/-- A fold over a list keeps whatever each of its steps keeps. -/
theorem foldl_keeps {α β : Type} (P : β → Prop) (f : β → α → β) :
    ∀ (l : List α) (b : β), (∀ a ∈ l, ∀ b, P b → P (f b a)) → P b → P (l.foldl f b)
  | [], _, _, hb => hb
  | a :: l, b, h, hb =>
    foldl_keeps P f l (f b a) (fun a' ha' => h a' (List.mem_cons_of_mem _ ha'))
      (h a List.mem_cons_self b hb)

/-- Whatever each sample's step keeps, one channel's loop keeps. -/
theorem State.procChannel_keeps (P : State → Prop) (sec m c : Nat) (s : State)
    (h : ∀ n < m, ∀ t, P t → P (t.procSample sec c n)) (hs : P s) : P (s.procChannel sec m c) :=
  foldl_keeps P _ _ _ (fun n hn t ht => h n (List.mem_range.1 hn) t ht) hs

/-- Whatever each sample's step keeps, one section's loop keeps. -/
theorem State.procSection_keeps (P : State → Prop) (nch m sec : Nat) (s : State)
    (h : ∀ c < nch, ∀ n < m, ∀ t, P t → P (t.procSample sec c n)) (hs : P s) : P (s.procSection nch m sec) :=
  foldl_keeps P _ _ _
    (fun c hc t ht => State.procChannel_keeps P sec m c t (fun n hn => h c (List.mem_range.1 hc) n hn) ht) hs

/-- Whatever each sample's step keeps, the loop nest keeps (R101). -/
theorem State.procLoop_keeps (P : State → Prop) (nch m : Nat) (s : State)
    (h : ∀ sec < s.cfg.nsec, ∀ c < nch, ∀ n < m, ∀ t, P t → P (t.procSample sec c n)) (hs : P s) :
    P (s.procLoop nch m) :=
  foldl_keeps P _ _ _
    (fun sec hsec t ht => State.procSection_keeps P nch m sec t (h sec (List.mem_range.1 hsec)) ht) hs

/-- What a run of sample steps never writes (R102 (e)): everything but Z, BUF and the draw counter. -/
def State.sameButFiltered (s t : State) : Prop :=
  t = { s with z := t.z, buf := t.buf, draws := t.draws }

theorem State.sameButFiltered_procSample {s t : State} (h : s.sameButFiltered t) (sec c n : Nat) :
    s.sameButFiltered (t.procSample sec c n) := by
  simp only [State.sameButFiltered] at h ⊢
  rw [h]
  rfl

theorem State.procLoop_same (s : State) (nch m : Nat) : s.sameButFiltered (s.procLoop nch m) :=
  State.procLoop_keeps (State.sameButFiltered s) nch m s
    (fun sec _ c _ n _ _ ht => State.sameButFiltered_procSample ht sec c n) rfl

@[simp] theorem State.procLoop_cfg (s : State) (nch m : Nat) : (s.procLoop nch m).cfg = s.cfg := by
  rw [s.procLoop_same nch m]

/-- What a PROC that runs leaves alone (R102 (e)), as one equation: ST ends Prepared. -/
theorem State.process_same (s : State) (nch m : Nat) (h : s.st = .prepared) :
    s.sameButFiltered (s.process nch m) := by
  have h' := State.procLoop_same { s with st := .processing } nch m
  have e : s.process nch m = { State.procLoop nch m { s with st := .processing } with st := s.st } := by
    rw [h]
    rfl
  rw [State.sameButFiltered, e, h']

/-- An empty block runs nothing (R102 (a)). -/
theorem State.procLoop_zero (s : State) (nch : Nat) : s.procLoop nch 0 = s := by
  have hc : ∀ (l : List Nat) (sec : Nat) (t : State), l.foldl (fun t c => t.procChannel sec 0 c) t = t := by
    intro l
    induction l with
    | nil => intros; rfl
    | cons c l ih => intro sec t; exact ih sec t
  have hs : ∀ (l : List Nat) (t : State), l.foldl (fun t sec => t.procSection nch 0 sec) t = t := by
    intro l
    induction l with
    | nil => intros; rfl
    | cons sec l ih =>
      intro t
      rw [List.foldl_cons, State.procSection, hc]
      exact ih t
  exact hs _ _

end Sys2Proof.Machine
end

