-- ==== Sys2Proof/Laws/Exec.lean ====
section
/-! SUPPORT. Everything each meaning can answer, said once (R80 to R134): cite these instead of unfolding exec. -/

namespace Sys2Proof.Machine

variable {s t : State}

theorem execPrep_next {b : Nat} {fs : F32} (h : exec (.prep b fs) s = .next t) :
    (prepLegal s.cfg b fs = true ∧ t = (s.prepare b fs).respond .ok 0#32) ∨
    (prepLegal s.cfg b fs = false ∧ t = s.fail .range) := by
  simp only [exec, execPrep] at h
  split_ifs at h with hl <;> cases h
  · exact .inl ⟨hl, rfl⟩
  · exact .inr ⟨by simpa using hl, rfl⟩

theorem execRel_next (h : exec .rel s = .next t) : t = s.release.respond .ok 0#32 := by
  cases h
  rfl

theorem execRst_next (h : exec .rst s = .next t) :
    (s.st = .prepared ∧ t = s.clearDelays.respond .ok 0#32) ∨ (s.st ≠ .prepared ∧ t = s.fail .state) := by
  simp only [exec, execRst] at h
  split_ifs at h with hl <;> cases h
  · exact .inl ⟨hl, rfl⟩
  · exact .inr ⟨hl, rfl⟩

theorem execLdc_next {sec k : Nat} {v : F32} (h : exec (.ldc sec k v) s = .next t) :
    (s.st = .prepared ∧ ∃ ix, coefOperand s.cfg sec k = some ix ∧ t = (s.stage sec ix v).respond .ok 0#32) ∨
    (s.st = .prepared ∧ coefOperand s.cfg sec k = none ∧ t = s.fail .range) ∨
    (s.st ≠ .prepared ∧ t = s.fail .state) := by
  simp only [exec, execLdc] at h
  split_ifs at h with hl
  · cases hc : coefOperand s.cfg sec k with
    | some ix =>
      rw [hc] at h
      cases h
      exact .inl ⟨hl, ix, rfl, rfl⟩
    | none =>
      rw [hc] at h
      cases h
      exact .inr (.inl ⟨hl, rfl, rfl⟩)
  · cases h
    exact .inr (.inr ⟨hl, rfl⟩)

theorem execCmt_next (h : exec .cmt s = .next t) :
    (s.st = .prepared ∧ s.allStaged = true ∧ t = s.commit.respond .ok 0#32) ∨
    (s.st = .prepared ∧ s.allStaged = false ∧ t = s.fail .nocoef) ∨
    (s.st ≠ .prepared ∧ t = s.fail .state) := by
  simp only [exec, execCmt] at h
  split_ifs at h with hl ha <;> cases h
  · exact .inl ⟨hl, ha, rfl⟩
  · exact .inr (.inl ⟨hl, by simpa using ha, rfl⟩)
  · exact .inr (.inr ⟨hl, rfl⟩)

theorem execProc_next {nch m : Nat} (h : exec (.proc nch m) s = .next t) :
    (s.st = .prepared ∧ blockLegal s.cfg s.maxblk nch m = true ∧ s.av = true ∧ m ≤ s.cfg.maxcap ∧
      t = (s.process nch m).respond .ok 0#32) ∨
    (s.st = .prepared ∧ blockLegal s.cfg s.maxblk nch m = true ∧ s.av = false ∧ t = s.fail .nocoef) ∨
    (s.st = .prepared ∧ blockLegal s.cfg s.maxblk nch m = false ∧ t = s.fail .range) ∨
    (s.st ≠ .prepared ∧ t = s.fail .state) := by
  simp only [exec, execProc] at h
  split_ifs at h with hl hb ha hm <;> cases h
  · exact .inl ⟨hl, hb, ha, hm, rfl⟩
  · exact .inr (.inl ⟨hl, hb, by simpa using ha, rfl⟩)
  · exact .inr (.inr (.inl ⟨hl, by simpa using hb, rfl⟩))
  · exact .inr (.inr (.inr ⟨hl, rfl⟩))

theorem execWrb_next {c n : Nat} {v : F32} (h : exec (.wrb c n v) s = .next t) :
    (bufLegal s.cfg c n = true ∧ t = (s.setBufWord c n v).respond .ok 0#32) ∨
    (bufLegal s.cfg c n = false ∧ t = s.fail .range) := by
  simp only [exec, execWrb] at h
  split_ifs at h with hl <;> cases h
  · exact .inl ⟨hl, rfl⟩
  · exact .inr ⟨by simpa using hl, rfl⟩

theorem execRdb_next {c n : Nat} (h : exec (.rdb c n) s = .next t) :
    (bufLegal s.cfg c n = true ∧ t = s.respond .ok (s.bufWord c n)) ∨
    (bufLegal s.cfg c n = false ∧ t = s.fail .range) := by
  simp only [exec, execRdb] at h
  split_ifs at h with hl <;> cases h
  · exact .inl ⟨hl, rfl⟩
  · exact .inr ⟨by simpa using hl, rfl⟩

theorem execRds_next {idx : Nat} (h : exec (.rds idx) s = .next t) :
    (∃ v, statusWord s idx = some v ∧ t = s.respond .ok v) ∨ (statusWord s idx = none ∧ t = s.fail .range) := by
  simp only [exec, execRds] at h
  cases hv : statusWord s idx with
  | some v =>
    rw [hv] at h
    cases h
    exact .inl ⟨v, rfl, rfl⟩
  | none =>
    rw [hv] at h
    cases h
    exact .inr ⟨rfl, rfl⟩

/-! The legal ranges as inequalities (R119). -/

theorem prepLegal_iff {p : Params} {b : Nat} {fs : F32} :
    prepLegal p b fs = true ↔ 1 ≤ b ∧ b ≤ p.maxcap ∧ sampleRateLegal fs = true := by
  simp [prepLegal, and_assoc]

theorem blockLegal_iff {p : Params} {maxblk : BitVec 16} {nch m : Nat} :
    blockLegal p maxblk nch m = true ↔ 1 ≤ nch ∧ nch ≤ p.nch ∧ m ≤ maxblk.toNat := by
  simp [blockLegal, and_assoc]

theorem bufLegal_iff {p : Params} {c n : Nat} : bufLegal p c n = true ↔ c < p.nch ∧ n < p.maxcap := by
  simp [bufLegal]

/-- A PROC that passes its checks runs (R100, R101). -/
theorem execProc_of_readyFor {nch m : Nat} (hg : s.Good) (hr : s.readyFor nch m) :
    exec (.proc nch m) s = .next ((s.process nch m).respond .ok 0#32) := by
  obtain ⟨hst, h1, h2, h3, hav⟩ := hr
  have hm := (hg.prepared hst).2.1
  simp only [exec, execProc]
  rw [if_pos hst, if_pos (blockLegal_iff.2 ⟨h1, h2, h3⟩), if_pos hav, if_pos (by omega)]

/-! The command port. -/

theorem step_command {w : CmdWord} {rest : List HostEvent} (h : s.port = .command w :: rest) :
    step s = runWord w { s with port := rest } := by
  simp only [step, runPort, h, runEvent]

theorem runWord_ok {w : CmdWord} {i : Instr} (h : decode w = .ok i) : runWord w s = exec i s.accept := by
  simp only [runWord, h]

theorem runWord_error {w : CmdWord} {e : DecodeError} (h : decode w = .error e) :
    runWord w s = .next (s.accept.fail .opc) := by
  simp only [runWord, h]

end Sys2Proof.Machine
end

