-- ==== Sys2Proof/Laws/Good.lean ====
section
/-! SUPPORT. What the shared operations do to a good state (R10, R11, R40, R42). -/

namespace Sys2Proof.Machine

variable {s : State}

/-- Answering keeps a good state good. -/
theorem State.Good.respond (h : s.Good) (code : RespCode) (data : BitVec 32) : (State.respond code data s).Good :=
  { h with not_busy := rfl }

/-- Failing keeps a good state good: ERR holds one of the five codes (R12, R145). -/
theorem State.Good.fail (h : s.Good) (code : RespCode) : (State.fail code s).Good :=
  { h with err_code := errAfter_le code h.err_code, not_busy := rfl }

/-- Presenting an event keeps a good state good. -/
theorem State.Good.withPort (h : s.Good) (port : List HostEvent) : ({ s with port := port } : State).Good :=
  { h with }

/-- A whole word written inside BUF keeps a good state good (R40, R42). -/
theorem State.Good.setBufWord (h : s.Good) {c n : Nat} (v : F32) (hc : c < s.cfg.nch) (hn : n < s.cfg.maxcap) :
    (State.setBufWord c n v s).Good :=
  { h with
    buf_wf := Memory.wf_writeWord _ _ _ h.buf_wf
    buf_inside := by
      intro x hx
      rcases Memory.mem_writeWord _ _ _ _ hx with e | hx
      · have := wordAddr_lt s.cfg hc hn
        show x.1 < 4 * (s.cfg.nch * s.cfg.maxcap)
        omega
      · exact h.buf_inside x hx
    buf_whole := by
      intro a b hab
      simp only [State.setBufWord_buf, Memory.read_writeWord]
      rw [hab]
      split_ifs
      · rfl
      · exact h.buf_whole a b hab }

/-- A delay pair written keeps a good state good (R19). -/
theorem State.Good.setDelay (h : s.Good) (sec c : Nat) (d : Delay) : (State.setDelay sec c d s).Good :=
  { h with
    z_length := by simpa using h.z_length
    z_rows := by
      intro row hr
      simp only [State.setDelay_z] at hr
      obtain ⟨i, hi, rfl⟩ := List.mem_iff_getElem.1 hr
      have hi' : i < s.z.length := by simpa using hi
      rw [List.getElem_modify]
      split_ifs
      · simpa using h.z_rows _ (List.getElem_mem hi')
      · exact h.z_rows _ (List.getElem_mem hi') }

end Sys2Proof.Machine
end

