-- ==== Sys2Proof/Laws/Loop.lean ====
section
/-! SUPPORT. What PROC's loops compute, said once: each section's run on each channel (R101, R104). -/

namespace Sys2Proof.Machine

/-- What a run of sample steps leaves alone, as far as later steps read it. -/
structure Kept (s t : State) : Prop where
  cfg : t.cfg = s.cfg
  act : t.act = s.act
  shape : ∀ sec c, t.hasDelay sec c ↔ s.hasDelay sec c

theorem Kept.trans {s t u : State} (h : Kept s t) (g : Kept t u) : Kept s u :=
  ⟨g.cfg.trans h.cfg, g.act.trans h.act, fun a b => (g.shape a b).trans (h.shape a b)⟩

theorem hasDelay_setDelay (s : State) (a b : Nat) (d : Delay) (sec c : Nat) :
    (State.setDelay a b d s).hasDelay sec c ↔ s.hasDelay sec c := by
  simp only [State.hasDelay, State.setDelay_z, List.length_modify, getD_modify]
  split_ifs <;> simp

theorem kept_procSample (s : State) (sec c n : Nat) : Kept s (s.procSample sec c n) :=
  ⟨rfl, rfl, fun a b => hasDelay_setDelay s _ _ _ a b⟩

/-- The delay elements after one sample's step (R101). -/
theorem delay_procSample (s : State) {sec c n : Nat} (h : s.hasDelay sec c) (a b : Nat) :
    (s.procSample sec c n).delay a b =
      if a = sec ∧ b = c then
        (sectionStep s.stepNaN (s.activeCoefs sec) (s.delay sec c) (s.bufWord c n)).2
      else s.delay a b :=
  s.delay_setDelay _ h

/-- BUF's words after one sample's step (R101). -/
theorem bufWord_procSample (s : State) {sec c n : Nat} (h : n < s.cfg.maxcap) (a b : Nat) (hb : b < s.cfg.maxcap) :
    (s.procSample sec c n).bufWord a b =
      if a = c ∧ b = n then
        (sectionStep s.stepNaN (s.activeCoefs sec) (s.delay sec c) (s.bufWord c n)).1
      else s.bufWord a b :=
  State.bufWord_setBufWord (State.setDelay sec c _ s) _ h hb

/-- One section's run over the listed samples of one channel. -/
def chanFrom (sec c : Nat) (l : List Nat) (s : State) : State := l.foldl (fun t n => t.procSample sec c n) s

theorem chanFrom_spec (sec c : Nat) : ∀ (len start : Nat) (s : State),
    s.hasDelay sec c → start + len ≤ s.cfg.maxcap →
    Kept s (chanFrom sec c (List.range' start len) s) ∧
    (∀ a b, ¬ (a = sec ∧ b = c) → (chanFrom sec c (List.range' start len) s).delay a b = s.delay a b) ∧
    (∀ a b, b < s.cfg.maxcap → ¬ (a = c ∧ start ≤ b ∧ b < start + len) →
      (chanFrom sec c (List.range' start len) s).bufWord a b = s.bufWord a b) ∧
    (∀ d xs, delaysAgree (s.delay sec c) d → listsAgree ((List.range' start len).map (s.bufWord c)) xs →
      listsAgree ((List.range' start len).map ((chanFrom sec c (List.range' start len) s).bufWord c))
        (sectionRun (s.activeCoefs sec) d xs).1 ∧
      delaysAgree ((chanFrom sec c (List.range' start len) s).delay sec c)
        (sectionRun (s.activeCoefs sec) d xs).2) := by
  intro len
  induction len with
  | zero =>
    intro start s hd hm
    refine ⟨⟨rfl, rfl, fun _ _ => Iff.rfl⟩, fun _ _ _ => rfl, fun _ _ _ _ => rfl, ?_⟩
    intro d xs h1 h2
    simp only [List.range'_zero, List.map_nil, listsAgree, List.forall₂_nil_left_iff] at h2
    subst h2
    exact ⟨List.Forall₂.nil, h1⟩
  | succ len ih =>
    intro start s hd hm
    rw [List.range'_succ]
    simp only [chanFrom, List.foldl_cons]
    obtain ⟨i1, i2, i3, i4⟩ := ih (start + 1) (s.procSample sec c start)
      ((kept_procSample s sec c start).shape sec c |>.2 hd) (by simp; omega)
    refine ⟨(kept_procSample s sec c start).trans i1, ?_, ?_, ?_⟩
    · intro a b hab
      refine (i2 a b hab).trans ?_
      rw [delay_procSample _ hd, if_neg hab]
    · intro a b hb hab
      refine (i3 a b hb (by omega)).trans ?_
      rw [bufWord_procSample _ (by omega) _ _ hb, if_neg (by omega)]
    · intro d xs h1 h2
      rw [List.map_cons, listsAgree, List.forall₂_cons_left_iff] at h2
      obtain ⟨x, xs', hx, hxs, rfl⟩ := h2
      have st := sectionStep_agree (isNaN_stepNaN s) (fun _ => isNaN_someNaN) (s.activeCoefs sec) h1 hx
      have := i4 (sectionStep (fun _ => someNaN) (s.activeCoefs sec) d x).2 xs' (by
        rw [delay_procSample _ hd, if_pos ⟨rfl, rfl⟩]; exact st.2) (by
        have e : (List.range' (start + 1) len).map ((s.procSample sec c start).bufWord c) =
            (List.range' (start + 1) len).map (s.bufWord c) := by
          apply List.map_congr_left
          intro n hn
          rw [List.mem_range'_1] at hn
          rw [bufWord_procSample _ (by omega) _ _ (by omega), if_neg (by omega)]
        rw [e]; exact hxs)
      have hact : (s.procSample sec c start).activeCoefs sec = s.activeCoefs sec := rfl
      rw [hact] at this
      refine ⟨?_, this.2⟩
      rw [List.map_cons]
      refine List.Forall₂.cons ?_ this.1
      have e3 := i3 c start (by simp; omega) (by omega)
      have : (chanFrom sec c (List.range' (start + 1) len) (s.procSample sec c start)).bufWord c start =
          (sectionStep s.stepNaN (s.activeCoefs sec) (s.delay sec c) (s.bufWord c start)).1 := by
        rw [e3, bufWord_procSample _ (by omega) _ _ (by omega), if_pos ⟨rfl, rfl⟩]
      rw [show List.foldl (fun t n => State.procSample sec c n t) (State.procSample sec c start s)
          (List.range' (start + 1) len) =
        chanFrom sec c (List.range' (start + 1) len) (s.procSample sec c start) from rfl, this]
      exact st.1

/-- What the innermost loop does: `F_s` of R104 on one channel, up to the payload of NaNs, and nothing else. -/
theorem procChannel_spec (s : State) {sec m c : Nat} (hd : s.hasDelay sec c) (hm : m ≤ s.cfg.maxcap) :
    Kept s (s.procChannel sec m c) ∧
    (∀ a b, ¬ (a = sec ∧ b = c) → (s.procChannel sec m c).delay a b = s.delay a b) ∧
    (∀ a b, b < s.cfg.maxcap → ¬ (a = c ∧ b < m) → (s.procChannel sec m c).bufWord a b = s.bufWord a b) ∧
    (∀ d xs, delaysAgree (s.delay sec c) d → listsAgree (s.channelSamples c m) xs →
      listsAgree ((s.procChannel sec m c).channelSamples c m) (sectionRun (s.activeCoefs sec) d xs).1 ∧
      delaysAgree ((s.procChannel sec m c).delay sec c) (sectionRun (s.activeCoefs sec) d xs).2) := by
  have := chanFrom_spec sec c m 0 s hd (by omega)
  simp only [State.procChannel, State.channelSamples, List.range_eq_range']
  obtain ⟨a, b, c', d⟩ := this
  exact ⟨a, b, fun x y h1 h2 => c' x y h1 (by omega), d⟩

theorem channelSamples_congr {s t : State} {c m : Nat} (h : ∀ n < m, t.bufWord c n = s.bufWord c n) :
    t.channelSamples c m = s.channelSamples c m := by
  apply List.map_congr_left
  intro n hn
  exact h n (List.mem_range.1 hn)

/-- What the middle loop does: `F_s` on every listed channel, and nothing else. -/
theorem procSection_spec (sec m : Nat) : ∀ (l : List Nat) (s : State),
    l.Nodup → (∀ c ∈ l, s.hasDelay sec c) → m ≤ s.cfg.maxcap →
    let t := l.foldl (fun t c => t.procChannel sec m c) s
    Kept s t ∧
    (∀ a b, ¬ (a = sec ∧ b ∈ l) → t.delay a b = s.delay a b) ∧
    (∀ a b, b < s.cfg.maxcap → ¬ (a ∈ l ∧ b < m) → t.bufWord a b = s.bufWord a b) ∧
    (∀ c ∈ l, ∀ d xs, delaysAgree (s.delay sec c) d → listsAgree (s.channelSamples c m) xs →
      listsAgree (t.channelSamples c m) (sectionRun (s.activeCoefs sec) d xs).1 ∧
      delaysAgree (t.delay sec c) (sectionRun (s.activeCoefs sec) d xs).2) := by
  intro l
  induction l with
  | nil =>
    intro s _ _ _
    exact ⟨⟨rfl, rfl, fun _ _ => Iff.rfl⟩, fun _ _ _ => rfl, fun _ _ _ _ => rfl, by simp⟩
  | cons c l ih =>
    intro s hnd hd hm
    rw [List.nodup_cons] at hnd
    obtain ⟨c1, c2, c3, c4⟩ := procChannel_spec s (hd c (by simp)) hm
    obtain ⟨i1, i2, i3, i4⟩ := ih (s.procChannel sec m c) hnd.2
      (fun c' hc' => (c1.shape _ _).2 (hd c' (by simp [hc']))) (by rw [c1.cfg]; exact hm)
    simp only [List.foldl_cons]
    refine ⟨c1.trans i1, ?_, ?_, ?_⟩
    · intro a b hab
      simp only [List.mem_cons, not_and, not_or] at hab
      rw [i2 a b (by tauto), c2 a b (by tauto)]
    · intro a b hb hab
      simp only [List.mem_cons, not_and] at hab
      rw [i3 a b (by rw [c1.cfg]; exact hb) (by tauto), c3 a b hb (by tauto)]
    · intro c' hc' d xs h1 h2
      have hac : (s.procChannel sec m c).activeCoefs sec = s.activeCoefs sec := by
        simp only [State.activeCoefs, c1.act]
      rcases List.mem_cons.1 hc' with rfl | hc'
      · have := c4 d xs h1 h2
        rw [i2 _ _ (by tauto), channelSamples_congr (fun n hn => i3 c' n (by rw [c1.cfg]; omega) (by tauto))]
        exact this
      · have hne : c' ≠ c := fun e => hnd.1 (e ▸ hc')
        rw [← hac]
        refine i4 c' hc' d xs ?_ ?_
        · rw [c2 _ _ (by tauto)]; exact h1
        · rw [channelSamples_congr (fun n hn => c3 c' n (by omega) (by tauto))]; exact h2

/-- What the outer loop does: on every channel below `nch` the cascade of the listed sections, up to the payload of
NaNs, and nothing else (R101, R104, R107). -/
theorem procSections_spec (nch m : Nat) : ∀ (len start : Nat) (s : State),
    (∀ sec, start ≤ sec → sec < start + len → ∀ c < nch, s.hasDelay sec c) → m ≤ s.cfg.maxcap →
    let t := (List.range' start len).foldl (fun t sec => t.procSection nch m sec) s
    Kept s t ∧
    (∀ a b, ¬ (start ≤ a ∧ a < start + len ∧ b < nch) → t.delay a b = s.delay a b) ∧
    (∀ a b, b < s.cfg.maxcap → ¬ (a < nch ∧ b < m) → t.bufWord a b = s.bufWord a b) ∧
    (∀ c < nch, ∀ xs, listsAgree (s.channelSamples c m) xs →
      listsAgree (t.channelSamples c m)
        (cascadeRun ((List.range' start len).map fun sec => (s.activeCoefs sec, s.delay sec c)) xs).1 ∧
      List.Forall₂ delaysAgree ((List.range' start len).map fun sec => t.delay sec c)
        (cascadeRun ((List.range' start len).map fun sec => (s.activeCoefs sec, s.delay sec c)) xs).2) := by
  intro len
  induction len with
  | zero =>
    intro start s _ _
    exact ⟨⟨rfl, rfl, fun _ _ => Iff.rfl⟩, fun _ _ _ => rfl, fun _ _ _ _ => rfl,
      fun c _ xs h => ⟨h, List.Forall₂.nil⟩⟩
  | succ len ih =>
    intro start s hd hm
    have S := procSection_spec start m (List.range nch) s List.nodup_range
      (fun c hc => hd start (by omega) (by omega) c (List.mem_range.1 hc)) hm
    change _ ∧ _ ∧ _ ∧ _ at S
    rw [show List.foldl (fun t c => t.procChannel start m c) s (List.range nch) =
      s.procSection nch m start from rfl] at S
    obtain ⟨c1, c2, c3, c4⟩ := S
    simp only [List.mem_range] at c2 c3 c4
    have I := ih (start + 1) (s.procSection nch m start)
      (fun sec h1 h2 c hc => (c1.shape _ _).2 (hd sec (by omega) (by omega) c hc)) (by rw [c1.cfg]; exact hm)
    obtain ⟨i1, i2, i3, i4⟩ := I
    rw [List.range'_succ]
    simp only [List.foldl_cons, List.map_cons, cascadeRun]
    refine ⟨c1.trans i1, ?_, ?_, ?_⟩
    · intro a b hab
      rw [i2 a b (by omega), c2 a b (by omega)]
    · intro a b hb hab
      rw [i3 a b (by rw [c1.cfg]; exact hb) (by tauto), c3 a b hb (by tauto)]
    · intro c hc xs h
      have r := c4 c hc (s.delay start c) xs ⟨.inl rfl, .inl rfl⟩ h
      have q := i4 c hc _ r.1
      have e : (List.range' (start + 1) len).map (fun sec =>
            ((s.procSection nch m start).activeCoefs sec, (s.procSection nch m start).delay sec c)) =
          (List.range' (start + 1) len).map (fun sec => (s.activeCoefs sec, s.delay sec c)) := by
        apply List.map_congr_left
        intro sec hsec
        rw [List.mem_range'_1] at hsec
        rw [c2 sec c (by omega)]
        simp only [State.activeCoefs, c1.act]
      rw [e] at q
      refine ⟨q.1, List.Forall₂.cons ?_ q.2⟩
      rw [i2 _ _ (by omega)]
      exact r.2

end Sys2Proof.Machine
end

