-- ==== Sys2Proof/Laws/PerInstr.lean ====
section
/-! SUPPORT. The per-instruction family EncodeMatchesRow: the word the encoder gives a command passes the mask test of
its own row of the opcode table (R65). -/

namespace Sys2Proof.Laws.EncodeMatchesRow

/-- The row of the command's mnemonic is in the table and matches the command's word. -/
def Statement (i : Instr) : Prop := ∃ r ∈ opcodeTable, r.mnemonic = mnemonicOf i ∧ r.matchesWord (encode i) = true

/-- A packed word under a mask that covers whole fields. -/
theorem matches_packed (mn : String) (op a op' a' mop ma : BitVec 8) (b b' mb : BitVec 16) (imm imm' mimm : BitVec 32)
    (hop : op &&& mop = op') (ha : a &&& ma = a') (hb : b &&& mb = b') (himm : imm &&& mimm = imm') :
    (OpRow.mk mn (packFields op' a' b' imm') (packFields mop ma mb mimm)).matchesWord (packFields op a b imm) =
      true := by
  simp [OpRow.matchesWord, packFields_and, hop, ha, hb, himm]

theorem prep (maxblk : Nat) (fs : F32) : Statement (.prep maxblk fs) :=
  ⟨⟨"PREP", packFields 0x01#8 0#8 0#16 0#32, packFields 0xFF#8 0xFF#8 0#16 0#32⟩, by decide, rfl,
    matches_packed _ _ _ _ _ _ _ _ _ _ _ _ _ (by decide) (by decide) (by simp) (by simp)⟩

theorem rel : Statement .rel := by unfold Statement; decide

theorem rst : Statement .rst := by unfold Statement; decide

theorem ldc (sec k : Nat) (value : F32) : Statement (.ldc sec k value) :=
  ⟨⟨"LDC", packFields 0x10#8 0#8 0#16 0#32, packFields 0xFF#8 0#8 0#16 0#32⟩, by decide, rfl,
    matches_packed _ _ _ _ _ _ _ _ _ _ _ _ _ (by decide) (by simp) (by simp) (by simp)⟩

theorem cmt : Statement .cmt := by unfold Statement; decide

theorem proc (nch m : Nat) : Statement (.proc nch m) :=
  ⟨⟨"PROC", packFields 0x20#8 0#8 0#16 0#32, packFields 0xFF#8 0#8 0#16 0xFFFFFFFF#32⟩, by decide, rfl,
    matches_packed _ _ _ _ _ _ _ _ _ _ _ _ _ (by decide) (by simp) (by simp) (by decide)⟩

theorem wrb (c n : Nat) (value : F32) : Statement (.wrb c n value) :=
  ⟨⟨"WRB", packFields 0x30#8 0#8 0#16 0#32, packFields 0xFF#8 0#8 0#16 0#32⟩, by decide, rfl,
    matches_packed _ _ _ _ _ _ _ _ _ _ _ _ _ (by decide) (by simp) (by simp) (by simp)⟩

theorem rdb (c n : Nat) : Statement (.rdb c n) :=
  ⟨⟨"RDB", packFields 0x31#8 0#8 0#16 0#32, packFields 0xFF#8 0#8 0#16 0xFFFFFFFF#32⟩, by decide, rfl,
    matches_packed _ _ _ _ _ _ _ _ _ _ _ _ _ (by decide) (by simp) (by simp) (by decide)⟩

theorem rds (idx : Nat) : Statement (.rds idx) :=
  ⟨⟨"RDS", packFields 0x40#8 0#8 0#16 0#32, packFields 0xFF#8 0xFF#8 0#16 0xFFFFFFFF#32⟩, by decide, rfl,
    matches_packed _ _ _ _ _ _ _ _ _ _ _ _ _ (by decide) (by decide) (by simp) (by decide)⟩

end Sys2Proof.Laws.EncodeMatchesRow
end

