-- ==== Sys2Proof/Tests/Slice0.lean ====
section
/-! SUPPORT. Small tests, their expected results taken from spec/95_test_vectors.md and the rules (named in each
docstring), and one witness per statement that has hypotheses. -/

namespace Sys2Proof.Tests

open Sys2Proof Sys2Proof.Machine

/-! ## Well-formedness: an ill-formed term per check (R61) -/

/-- R61: `b` has 16 bits. -/
theorem test_wf_prep_maxblk : (Instr.prep 65536 0x472C4400#32).wellFormed = false := by decide
/-- R61: `a` has 8 bits. -/
theorem test_wf_ldc_section : (Instr.ldc 256 0 0#32).wellFormed = false := by decide
/-- R61: `b` has 16 bits. -/
theorem test_wf_ldc_index : (Instr.ldc 0 65536 0#32).wellFormed = false := by decide
/-- R61: `a` has 8 bits. -/
theorem test_wf_proc_channels : (Instr.proc 256 1).wellFormed = false := by decide
/-- R61: `b` has 16 bits. -/
theorem test_wf_proc_samples : (Instr.proc 1 65536).wellFormed = false := by decide
/-- R61: `a` has 8 bits. -/
theorem test_wf_wrb_channel : (Instr.wrb 256 0 0#32).wellFormed = false := by decide
/-- R61: `b` has 16 bits. -/
theorem test_wf_wrb_index : (Instr.wrb 0 65536 0#32).wellFormed = false := by decide
/-- R61: `a` has 8 bits. -/
theorem test_wf_rdb_channel : (Instr.rdb 256 0).wellFormed = false := by decide
/-- R61: `b` has 16 bits. -/
theorem test_wf_rdb_index : (Instr.rdb 0 65536).wellFormed = false := by decide
/-- R61: `b` has 16 bits. -/
theorem test_wf_rds_index : (Instr.rds 65536).wellFormed = false := by decide

/-! ## Decoding: words written out field by field, op, a, b, imm (R61, R63) -/

/-- R63: op 0x01, a 0, b = 513, imm = 44100.0. -/
theorem test_decode_prep :
    decode (0b00000001#8 ++ 0b00000000#8 ++ 0b0000001000000001#16 ++ 0b01000111001011000100010000000000#32) =
      .ok (.prep 513 0x472C4400#32) := by decide
/-- R82: the only legal word. -/
theorem test_decode_rel : decode (0b00000010#8 ++ 0#56) = .ok .rel := by decide
/-- R84: the only legal word. -/
theorem test_decode_rst : decode (0b00000011#8 ++ 0#56) = .ok .rst := by decide
/-- R67: LDC 2, 3, -0.5. -/
theorem test_decode_ldc :
    decode (0b00010000#8 ++ 0b00000010#8 ++ 0b0000000000000011#16 ++ 0b10111111000000000000000000000000#32) =
      .ok (.ldc 2 3 0xBF000000#32) := by decide
/-- R92: the only legal word. -/
theorem test_decode_cmt : decode (0b00010001#8 ++ 0#56) = .ok .cmt := by decide
/-- R63: op 0x20, a = 129, b = 32769, imm 0. -/
theorem test_decode_proc :
    decode (0b00100000#8 ++ 0b10000001#8 ++ 0b1000000000000001#16 ++ 0#32) = .ok (.proc 129 32769) := by decide
/-- R130: WRB 0, 3, 1.0. -/
theorem test_decode_wrb :
    decode (0b00110000#8 ++ 0b00000000#8 ++ 0b0000000000000011#16 ++ 0b00111111100000000000000000000000#32) =
      .ok (.wrb 0 3 0x3F800000#32) := by decide
/-- R132: RDB 0, 3. -/
theorem test_decode_rdb :
    decode (0b00110001#8 ++ 0b00000000#8 ++ 0b0000000000000011#16 ++ 0#32) = .ok (.rdb 0 3) := by decide
/-- V0: RDS 5. -/
theorem test_decode_rds :
    decode (0b01000000#8 ++ 0b00000000#8 ++ 0b0000000000000101#16 ++ 0#32) = .ok (.rds 5) := by decide
/-- R64 (b): a must-be-zero field of each of the seven commands that has one. -/
theorem test_decode_must_be_zero :
    decode 0x0101000000000000#64 = .error (.fieldNotZero 0x01#8) ∧
    decode 0x0200000000000001#64 = .error (.fieldNotZero 0x02#8) ∧
    decode 0x0300000100000000#64 = .error (.fieldNotZero 0x03#8) ∧
    decode 0x1101000000000000#64 = .error (.fieldNotZero 0x11#8) ∧
    decode 0x2001000180000000#64 = .error (.fieldNotZero 0x20#8) ∧
    decode 0x3100000000000001#64 = .error (.fieldNotZero 0x31#8) ∧
    decode 0x4001000000000000#64 = .error (.fieldNotZero 0x40#8) ∧
    decode 0x4000000000000001#64 = .error (.fieldNotZero 0x40#8) := by decide
/-- R64 (a): the values next to the nine. -/
theorem test_decode_unknown_opcode :
    ∀ op ∈ [0x00#8, 0x04#8, 0x0F#8, 0x12#8, 0x1F#8, 0x21#8, 0x2F#8, 0x32#8, 0x3F#8, 0x41#8, 0xFF#8],
      decode (op ++ 0#56) = .error (.unknownOpcode op) := by decide
/-- R44: the byte holding bits [7:0] goes first. -/
theorem test_decode_bytes :
    decodeBytes [0x00#8, 0x00#8, 0x00#8, 0xBF#8, 0x03#8, 0x00#8, 0x02#8, 0x10#8, 0x77#8] =
      .ok (.ldc 2 3 0xBF000000#32, [0x77#8]) := by decide
/-- R63: the table's rows name the nine opcodes, one row each. -/
theorem test_table_rows :
    opcodeTable.map (fun r => (r.mnemonic, fieldOp r.pattern)) =
      [("PREP", 0x01#8), ("REL", 0x02#8), ("RST", 0x03#8), ("LDC", 0x10#8), ("CMT", 0x11#8), ("PROC", 0x20#8),
       ("WRB", 0x30#8), ("RDB", 0x31#8), ("RDS", 0x40#8)] := by decide
/-- The host's table word reaches the decoder. -/
theorem test_table_word : decodeTableWord 64 0x30010FFF3F800000 = some (.wrb 1 4095 0x3F800000#32) := by decide
/-- R67, R114: decimal literals, with a point or an exponent, nearest and ties to even. -/
theorem test_literals :
    readF32 "0.1".toList = some 0x3DCCCCCD#32 ∧ readF32 "-0.3".toList = some 0xBE99999A#32 ∧
      readF32 "1e-3".toList = some 0x3A83126F#32 ∧ readF32 "44100.0".toList = some 0x472C4400#32 ∧
      readF32 "1".toList = none := by decide +kernel
/-- R68: LDSEC and WRBLK as their commands. -/
theorem test_pseudo :
    expandPseudo (.ldsec 1 1#32 2#32 3#32 4#32 5#32) =
        [.ldc 1 0 1#32, .ldc 1 1 2#32, .ldc 1 2 3#32, .ldc 1 3 4#32, .ldc 1 4 5#32] ∧
      expandPseudo (.wrblk 1 7 [8#32, 9#32]) = [.wrb 1 7 8#32, .wrb 1 8 9#32] := by decide

/-! ## The states the tests start from -/

/-- A small block: three sections, two channels, two samples. -/
def smallParams : Params where
  nsec := 3
  nch := 2
  maxcap := 2
  nsec_legal := by decide
  nch_legal := by decide
  maxcap_legal := by decide

/-- The pass-through set (R109). -/
def passThrough : Five F32 := ⟨0x3F800000#32, 0#32, 0#32, 0#32, 0#32⟩

/-- The small block, prepared at 48000.0 with two samples at most, the pass-through set committed in every section. -/
def readyState : State :=
  { State.resetWith smallParams with
    st := .prepared
    fs := 0x473B8000#32
    maxblk := 2#16
    shd := [passThrough, passThrough, passThrough]
    shdv := List.replicate 3 ⟨true, true, true, true, true⟩
    act := [passThrough, passThrough, passThrough]
    av := true }

/-- `readyState` with one sample of each channel in BUF. -/
def loadedState : State :=
  State.setBufWord 1 0 0xC0000000#32 (State.setBufWord 0 1 0x3F000000#32
    (State.setBufWord 0 0 0x3F800000#32 readyState))

/-- The state after the command, where there is one and `p` holds of it. -/
def answers (i : Instr) (s : State) (p : State → Bool) : Bool :=
  match exec i s with
  | .next t => p t
  | _ => false

/-- As `answers`, for one step. -/
def steps (s : State) (p : State → Bool) : Bool :=
  match step s with
  | .next t => p t
  | _ => false

theorem readyState_good : readyState.Good where
  shd_length := by decide
  shdv_length := by decide
  act_length := by decide
  z_length := by decide
  z_rows := by decide
  err_code := by decide
  not_processing := by decide
  prepared := by decide
  unprepared := by decide
  committed := by decide
  buf_wf := by decide
  buf_inside := by decide
  buf_whole := by simp [readyState, State.resetWith, Memory.read]
  not_busy := by decide

theorem resetWith_small_good : (State.resetWith smallParams).Good where
  shd_length := by decide
  shdv_length := by decide
  act_length := by decide
  z_length := by decide
  z_rows := by decide
  err_code := by decide
  not_processing := by decide
  prepared := by decide
  unprepared := by decide
  committed := by decide
  buf_wf := by decide
  buf_inside := by decide
  buf_whole := by simp [State.resetWith, Memory.read]
  not_busy := by decide

theorem loadedState_good : loadedState.Good :=
  ((readyState_good.setBufWord _ (by decide) (by decide)).setBufWord _ (by decide) (by decide)).setBufWord _
    (by decide) (by decide)

theorem loadedState_ready : loadedState.readyFor 1 2 := by decide

/-! ## Two small tests per command at most, one step each -/

/-- V12: PREP 512, 44100.0 from Unprepared. -/
theorem test_prep_configures : answers (.prep 512 0x472C4400#32) State.reset (fun t =>
    t.st == .prepared && t.fs == 0x472C4400#32 && t.maxblk == 512#16 && !t.av && !t.allStaged &&
      t.delay 3 1 == ⟨0#32, 0#32⟩ && t.out == some ⟨.ok, 0#32⟩) = true := by decide +kernel
/-- P4: PREP 16 with the rate -44100.0 answers E_RANGE, and ERR takes the code. -/
theorem test_prep_negative_rate : answers (.prep 16 0xC72C4400#32) State.reset (fun t =>
    t.st == .unprepared && t.err == 3#8 && t.out == some ⟨.range, 0#32⟩) = true := by decide +kernel
/-- V12: REL from Prepared. -/
theorem test_rel_tears_down : answers .rel readyState (fun t =>
    t.st == .released && t.fs == 0#32 && t.maxblk == 0#16 && !t.av && t.out == some ⟨.ok, 0#32⟩) = true := by
  decide +kernel
/-- V8: RST clears Z[0][0] and keeps the coefficients. -/
theorem test_rst_clears : answers .rst (State.setDelay 0 0 ⟨0x3F000000#32, 0#32⟩ readyState) (fun t =>
    t.delay 0 0 == ⟨0#32, 0#32⟩ && t.av && t.out == some ⟨.ok, 0#32⟩) = true := by decide +kernel
/-- V12: RST in Unprepared answers E_STATE. -/
theorem test_rst_unprepared : answers .rst State.reset (fun t => t.out == some ⟨.state, 0#32⟩) = true := by
  decide +kernel
/-- V12: LDC stores a NaN without complaint, at the last index of the last section. -/
theorem test_ldc_nan : answers (.ldc 2 4 0x7FC00000#32) readyState (fun t =>
    t.stagedWord 2 .a2 == some 0x7FC00000#32 && (t.activeCoefs 2).a2 == 0#32 &&
      t.out == some ⟨.ok, 0#32⟩) = true := by decide +kernel
/-- V14: the state check comes before the range check. -/
theorem test_ldc_state_first : answers (.ldc 4 0 0x3F800000#32) State.reset (fun t =>
    t.out == some ⟨.state, 0#32⟩) = true := by decide +kernel
/-- V12: CMT with one word not staged answers E_NOCOEF. -/
theorem test_cmt_incomplete :
    answers .cmt { readyState with av := false, shdv := readyState.shdv.set 1 ⟨true, true, true, true, false⟩ }
      (fun t => !t.av && t.out == some ⟨.nocoef, 0#32⟩) = true := by decide +kernel
/-- R92: CMT takes the staged word. -/
theorem test_cmt_commits : answers .cmt (State.stage 0 .b0 0x40000000#32 readyState) (fun t =>
    (t.activeCoefs 0).b0 == 0x40000000#32 && t.out == some ⟨.ok, 0#32⟩) = true := by decide +kernel
/-- V3: the one-pole section on the impulse's first two samples, through two pass-through sections. -/
theorem test_proc_one_pole :
    answers (.proc 1 2)
      (State.setBufWord 0 1 0#32 { loadedState with
        act := [⟨0x3F800000#32, 0#32, 0#32, 0xBF000000#32, 0#32⟩, passThrough, passThrough] })
      (fun t => t.bufWord 0 0 == 0x3F800000#32 && t.bufWord 0 1 == 0x3F000000#32 &&
        t.delay 0 0 == ⟨0x3E800000#32, 0#32⟩ && t.bufWord 1 0 == 0xC0000000#32 && t.st == .prepared &&
        t.out == some ⟨.ok, 0#32⟩) = true := by decide +kernel
/-- V14: PROC 0, 0 in Prepared without coefficients answers E_RANGE. -/
theorem test_proc_range_first : answers (.proc 0 0) { readyState with av := false } (fun t =>
    t.out == some ⟨.range, 0#32⟩) = true := by decide +kernel
/-- V13: WRB stores a NaN bit for bit, before any PREP. -/
theorem test_wrb_bits : answers (.wrb 0 0 0xFFC12345#32) State.reset (fun t =>
    t.bufWord 0 0 == 0xFFC12345#32 && t.out == some ⟨.ok, 0#32⟩) = true := by decide +kernel
/-- V13: index MAXCAP is out of range. -/
theorem test_wrb_maxcap : answers (.wrb 1 4096 0x3F800000#32) State.reset (fun t =>
    t.buf == [] && t.out == some ⟨.range, 0#32⟩) = true := by decide +kernel
/-- V13: RDB 1, 4095 after WRB 1, 4095, 1.0. -/
theorem test_rdb_last_word : answers (.rdb 1 4095) (State.setBufWord 1 4095 0x3F800000#32 State.reset) (fun t =>
    t.out == some ⟨.ok, 0x3F800000#32⟩) = true := by decide +kernel
/-- V13: RDS 0 after reset in the reference configuration. -/
theorem test_rds_cap : answers (.rds 0) State.reset (fun t => t.out == some ⟨.ok, 0x10000024#32⟩) = true := by
  decide +kernel
/-- V13: RDS 6 answers E_RANGE. -/
theorem test_rds_reserved : answers (.rds 6) State.reset (fun t => t.err == 3#8 && t.out == some ⟨.range, 0#32⟩) =
    true := by decide +kernel
/-- P4: the all-zero word answers E_OPC and ERR becomes 1. -/
theorem test_step_illegal_word : steps (State.reset.withFetchWord 64 0) (fun t =>
    t.err == 1#8 && t.out == some ⟨.opc, 0#32⟩ && t.port == []) = true := by decide +kernel
/-- V14: decode comes before the lifecycle state. -/
theorem test_step_decode_first : steps (State.reset.withFetchWord 64 0x2000000000000001) (fun t =>
    t.out == some ⟨.opc, 0#32⟩) = true := by decide +kernel
/-- P1's first line, as the first step after reset. -/
theorem test_step_first_instruction : steps (State.reset.withFetchWord 64 0x01000008473B8000) (fun t =>
    t.st == .prepared && t.maxblk == 8#16 && t.fs == 0x473B8000#32) = true := by decide +kernel
/-- R141, R66: the record of E_NOCOEF, and ST's numbers of R11. -/
theorem test_numbers : (Response.bits ⟨.nocoef, 0x12345678#32⟩ = 0x0412345678#40) ∧
    [Lifecycle.unprepared, .prepared, .processing, .released].map Lifecycle.bits = [0#2, 1#2, 2#2, 3#2] := by decide

/-- R44, R66: the bytes of E_NOCOEF's record, and of a BUF word, bits [7:0] first. -/
theorem test_response_bytes : (Response.bytes ⟨.nocoef, 0x12345678#32⟩ = [0x78#8, 0x56#8, 0x34#8, 0x12#8, 0x04#8]) ∧
    bytesOfF32 0x3F800001#32 = [0x01#8, 0x00#8, 0x80#8, 0x3F#8] := by decide

/-! ## The arithmetic vectors -/

/-- V1: the pass-through section, all nine rows in a row. -/
theorem test_vector_v1 :
    sectionRun passThrough ⟨0#32, 0#32⟩ [0x3F800000#32, 0xC0200000#32, 0#32, 0x80000000#32, 0x80000000#32,
      0x80000000#32, 0x40400000#32, 0x00000001#32, 0x7F7FFFFF#32] =
    ([0x3F800000#32, 0xC0200000#32, 0#32, 0#32, 0#32, 0x80000000#32, 0x40400000#32, 0x00000001#32,
      0x7F7FFFFF#32], ⟨0#32, 0#32⟩) := by decide +kernel
/-- V4: two poles. -/
theorem test_vector_v4 :
    sectionRun ⟨0x3F800000#32, 0#32, 0#32, 0xBF800000#32, 0x3F000000#32⟩ ⟨0#32, 0#32⟩
      [0x3F800000#32, 0#32, 0#32, 0#32, 0#32, 0#32, 0#32, 0#32, 0#32] =
    ([0x3F800000#32, 0x3F800000#32, 0x3F000000#32, 0#32, 0xBE800000#32, 0xBE800000#32, 0xBE000000#32, 0#32,
      0x3D800000#32], ⟨0x3D800000#32, 0xBD000000#32⟩) := by decide +kernel
/-- V7: subnormals. -/
theorem test_vector_v7 :
    sectionRun ⟨0x3F000000#32, 0x3F000000#32, 0#32, 0#32, 0#32⟩ ⟨0#32, 0#32⟩ [0x00000001#32, 0x00000003#32, 0#32] =
    ([0#32, 0x00000002#32, 0x00000002#32], ⟨0#32, 0#32⟩) := by decide +kernel
/-- V11: the multiplications that are no NaN. -/
theorem test_vector_v11_fmul :
    [(0x3DCCCCCD#32, 0x3DCCCCCD#32), (0x40400000#32, 0xBF000000#32), (0x7F7FFFFF#32, 0x40000000#32),
     (0x00800000#32, 0x3F000000#32), (0x00000001#32, 0x3F000000#32), (0x00000003#32, 0x3F000000#32),
     (0x80000000#32, 0x40A00000#32), (0xFF800000#32, 0xBF800000#32)].map (fun p => fmul someNaN p.1 p.2) =
    [0x3C23D70B#32, 0xBFC00000#32, 0x7F800000#32, 0x00400000#32, 0#32, 0x00000002#32, 0x80000000#32,
     0x7F800000#32] := by decide +kernel
/-- V11: the additions that are no NaN. -/
theorem test_vector_v11_fadd :
    [(0x3F800000#32, 0x33800000#32), (0x3F800000#32, 0x34000000#32), (0x3F800000#32, 0x33800001#32),
     (0x3DCCCCCD#32, 0x3E4CCCCD#32), (0x7F7FFFFF#32, 0x73000000#32), (0x7F7FFFFF#32, 0x72FFFFFF#32),
     (0x80000000#32, 0x80000000#32), (0x80000000#32, 0#32), (0x3FC00000#32, 0xBFC00000#32),
     (0x00000001#32, 0x00000001#32)].map (fun p => fadd someNaN p.1 p.2) =
    [0x3F800000#32, 0x3F800001#32, 0x3F800001#32, 0x3E99999A#32, 0x7F800000#32, 0x7F7FFFFF#32, 0x80000000#32,
     0#32, 0#32, 0x00000002#32] := by decide +kernel
/-- V11: the subtractions that are no NaN. -/
theorem test_vector_v11_fsub :
    [(0x3F800000#32, 0x3F800000#32), (0x80000000#32, 0#32), (0#32, 0x80000000#32), (0x80000000#32, 0x80000000#32),
     (0x3E99999A#32, 0x3D4CCCCD#32), (0x00800000#32, 0x00000001#32)].map (fun p => fsub someNaN p.1 p.2) =
    [0#32, 0x80000000#32, 0#32, 0#32, 0x3E800000#32, 0x007FFFFF#32] := by decide +kernel
/-- V11: the three NaN rows. -/
theorem test_vector_v11_nan :
    isNaN (fmul someNaN 0#32 0x7F800000#32) = true ∧ isNaN (fadd someNaN 0x7F800000#32 0xFF800000#32) = true ∧
      isNaN (fsub someNaN 0x7F800000#32 0x7F800000#32) = true := by decide +kernel

/-! ## Witnesses: for each statement with hypotheses, a case that meets them -/

theorem witness_DecodeUndoesEncode :
    (Instr.prep 65535 0#32).wellFormed = true ∧ (Instr.ldc 255 65535 0#32).wellFormed = true ∧
      (Instr.proc 255 65535).wellFormed = true ∧ (Instr.wrb 255 65535 0#32).wellFormed = true ∧
      (Instr.rdb 255 65535).wellFormed = true ∧ (Instr.rds 65535).wellFormed = true := by decide

theorem witness_EncodeUndoesDecode : ∃ w i, decode w = .ok i :=
  ⟨0x2002020000000000#64, .proc 2 512, by decide⟩

theorem witness_DecodeFollowsTheOpcodeTable :
    (∃ r ∈ opcodeTable, r.matchesWord 0x4000000500000000#64 = true) ∧
      (∀ r ∈ opcodeTable, r.matchesWord 0#64 = false) := by decide

theorem witness_ByteChannelIsLittleEndian :
    (∃ w i, decode w = .ok i) ∧ (∃ w e, decode w = .error e) ∧
      ([0#8, 0#8, 0#8, 0#8, 0#8, 0#8, 0#8] : List Byte).length < 8 :=
  ⟨⟨0x0200000000000000#64, .rel, by decide⟩, ⟨0#64, .unknownOpcode 0#8, by decide⟩, by decide⟩

theorem witness_StepRunsTheDecodedCommand :
    (readyState.present 0x0200000000000000#64).port = .command 0x0200000000000000#64 :: [] ∧
      decode 0x0200000000000000#64 = .ok .rel := by decide

theorem witness_StepWaitsOrServesTheDirectPort :
    State.reset.port = [] ∧
      ({ State.reset with port := [.directWrite 0 0 1#32] } : State).port = .directWrite 0 0 1#32 :: [] ∧
      ({ State.reset with port := [.directRead 0 0] } : State).port = .directRead 0 0 :: [] := by decide

theorem witness_IllegalWordAnswersEOpc :
    (readyState.present 0#64).port = .command 0#64 :: [] ∧ illegalWord 0#64 ∧
      (readyState.present 0x0200000000000000#64).Good ∧ ¬ illegalWord 0x0200000000000000#64 := by
  refine ⟨rfl, .inl (by decide), readyState_good.withPort _, ?_⟩
  simp only [illegalWord]
  decide

/-- For HardwareResetGivesTheResetValues and HardwareResetSendsNoResponse. -/
theorem witness_HardwareReset :
    ({ readyState with port := [.hardReset] } : State).port = .hardReset :: [] ∧
      ({ readyState with port := [.cutShort 0x2001000100000000#64] } : State).port =
        .cutShort 0x2001000100000000#64 :: [] := by decide

theorem witness_BuildParametersNeverChange : ∃ s t : State, step s = .next t := ⟨State.reset, State.reset, rfl⟩

theorem witness_StepKeepsGoodStates : ∃ s t : State, s.Good ∧ step s = .next t :=
  ⟨readyState.present 0x0200000000000000#64, _, readyState_good.withPort _, rfl⟩

theorem witness_GoodStatesNeverStop :
    ∃ (s : State) (w : CmdWord) (rest : List HostEvent), s.Good ∧ s.port = .command w :: rest :=
  ⟨readyState.present 0x0200000000000000#64, _, _, readyState_good.withPort _, rfl⟩

theorem witness_FailedCommandChangesOnlyErr :
    ∃ (s t : State) (w : CmdWord) (rest : List HostEvent) (r : Response),
      s.port = .command w :: rest ∧ step s = .next t ∧ t.out = some r ∧ r.code ≠ .ok :=
  ⟨State.reset.present 0#64, _, _, _, ⟨.opc, 0#32⟩, rfl, rfl, rfl, by decide⟩

theorem witness_ErrHoldsTheFirstFailure :
    (∃ (s t : State) (w : CmdWord) (rest : List HostEvent) (r : Response),
      s.port = .command w :: rest ∧ step s = .next t ∧ t.out = some r) ∧
    (∃ s t : State, step s = .next t ∧ s.err ≠ 0#8 ∧ t.err ≠ s.err) :=
  ⟨⟨State.reset.present 0#64, _, _, _, ⟨.opc, 0#32⟩, rfl, rfl, rfl⟩,
    ⟨{ State.reset with err := 1#8, port := [.hardReset] }, _, rfl, by decide, by decide⟩⟩

theorem witness_ResponseDataIsTheWordRead :
    (∃ (s t : State) (w : CmdWord) (r : Response) (c n : Nat), s.port = .command w :: [] ∧ step s = .next t ∧
      t.out = some r ∧ decode w = .ok (.rdb c n) ∧ r.code = .ok) ∧
    (∃ (s t : State) (w : CmdWord) (r : Response) (idx : Nat), s.port = .command w :: [] ∧ step s = .next t ∧
      t.out = some r ∧ decode w = .ok (.rds idx) ∧ r.code = .ok) ∧
    (∃ (s t : State) (w : CmdWord) (r : Response), s.port = .command w :: [] ∧ step s = .next t ∧
      t.out = some r ∧ r.code ≠ .ok) :=
  ⟨⟨State.reset.present 0x3100000000000000#64, _, _, ⟨.ok, State.reset.bufWord 0 0⟩, 0, 0, rfl, rfl, rfl, by decide,
      rfl⟩,
    ⟨State.reset.present 0x4000000000000000#64, _, _, ⟨.ok, 0x10000024#32⟩, 0, rfl, rfl, by decide, by decide, rfl⟩,
    ⟨State.reset.present 0#64, _, _, ⟨.opc, 0#32⟩, rfl, rfl, rfl, by decide⟩⟩

theorem witness_LifecycleFollowsTheTable :
    readyState.Good ∧ (State.resetWith smallParams).Good ∧
      (1 ≤ readyState.cfg.maxcap ∧ readyState.cfg.maxcap ≤ readyState.cfg.maxcap) ∧
      (0x00000001 ≤ (0x00000001#32).toNat ∧ (0x7F7FFFFF#32).toNat ≤ 0x7F7FFFFF) :=
  ⟨readyState_good, resetWith_small_good, by decide, by decide⟩

theorem witness_FirstFailingCheckDecidesTheCode :
    (readyState.present 0#64).Good ∧ (∃ e, decode 0#64 = .error e) ∧
      decode 0x0200000000000000#64 = .ok .rel :=
  ⟨readyState_good.withPort _, ⟨.unknownOpcode 0#8, by decide⟩, by decide⟩

theorem witness_BufWordsHaveTheirOwnAddresses :
    254 < (⟨5, 255, 65535, by decide, by decide, by decide⟩ : Params).nch ∧
      65534 < (⟨5, 255, 65535, by decide, by decide, by decide⟩ : Params).maxcap := by decide

theorem witness_OnlyWrbAndProcWriteBuf :
    (∃ t, exec (.wrb 0 0 1#32) readyState = .next t) ∧ (∃ t, exec (.proc 1 2) loadedState = .next t) ∧
      (∃ t, exec .rel readyState = .next t) ∧
      (1 < readyState.cfg.nch ∧ readyState.cfg.maxcap - 1 < readyState.cfg.maxcap) :=
  ⟨⟨_, rfl⟩, ⟨_, execProc_of_readyFor loadedState_good loadedState_ready⟩, ⟨_, rfl⟩, by decide⟩

theorem witness_OnlyCmtChangesTheActiveBank :
    ∃ t, exec .cmt readyState = .next t ∧ readyState.av = true ∧ t.av = true := ⟨_, rfl, rfl, rfl⟩

theorem witness_PrepConfiguresTheBlock :
    (1 ≤ State.reset.cfg.maxcap ∧ 0x00000001 ≤ (0x7F7FFFFF#32).toNat ∧ (0x7F7FFFFF#32).toNat ≤ 0x7F7FFFFF) ∧
      ¬ (1 ≤ 0 ∧ 0 ≤ State.reset.cfg.maxcap ∧ 0x00000001 ≤ (1#32).toNat ∧ (1#32).toNat ≤ 0x7F7FFFFF) ∧
      ¬ (1 ≤ 1 ∧ 1 ≤ State.reset.cfg.maxcap ∧ 0x00000001 ≤ (0x7F800000#32).toNat ∧
        (0x7F800000#32).toNat ≤ 0x7F7FFFFF) := by decide

theorem witness_RstClearsTheDelayElements : readyState.st = .prepared ∧ State.reset.st ≠ .prepared := by decide

theorem witness_LdcStagesOneCoefficient :
    (readyState.Good ∧ readyState.st = .prepared ∧ 2 < readyState.cfg.nsec) ∧ 3 ≥ readyState.cfg.nsec ∧
      State.reset.st ≠ .prepared :=
  ⟨⟨readyState_good, rfl, by decide⟩, by decide, by decide⟩

theorem witness_CmtCommitsTheWholeBank :
    (readyState.st = .prepared ∧
      ∀ v ∈ readyState.shdv, v.b0 = true ∧ v.b1 = true ∧ v.b2 = true ∧ v.a1 = true ∧ v.a2 = true) ∧
    (∃ v ∈ ({ readyState with shdv := noneStaged smallParams } : State).shdv,
      v.b0 = false ∨ v.b1 = false ∨ v.b2 = false ∨ v.a1 = false ∨ v.a2 = false) ∧
    State.reset.st ≠ .prepared := by decide

theorem witness_StagedCoefficientsAreInert :
    ∃ s' t t', loadedState.Good ∧ exec (.ldc 0 0 0x40000000#32) loadedState = .next s' ∧
      exec (.proc 1 2) loadedState = .next t ∧ exec (.proc 1 2) s' = .next t' := by
  have g : (State.stage 0 .b0 0x40000000#32 loadedState).Good :=
    { loadedState_good with
      shd_length := by decide
      shdv_length := by decide
      unprepared := by decide
      committed := by decide }
  exact ⟨_, _, _, loadedState_good, rfl, execProc_of_readyFor loadedState_good loadedState_ready,
    execProc_of_readyFor (g.respond .ok 0#32) (by decide)⟩

theorem witness_PrepForgetsTheCoefficients :
    ∃ t, exec (.prep 2 0x473B8000#32) readyState = .next t ∧ t.lastCode = some .ok := ⟨_, rfl, rfl⟩

/-- A CMT that raises AV, and an LDC that sets a valid bit. -/
theorem witness_CoefficientsComeOnlyByLdcAndCmt :
    (∃ s t : State, step s = .next t ∧ s.av = false ∧ t.av = true) ∧
    (∃ s t : State, step s = .next t ∧ s.stagedValid 2 .a2 = some false ∧ t.stagedValid 2 .a2 = some true) :=
  ⟨⟨{ readyState with av := false, port := [.command 0x1100000000000000#64] }, _, rfl, rfl, rfl⟩,
    ⟨{ readyState with av := false, shdv := noneStaged smallParams, port := [.command 0x1002000400000000#64] }, _, rfl,
      by decide, by decide⟩⟩

theorem witness_ProcFiltersEveryChannel : loadedState.Good ∧ loadedState.readyFor 1 2 :=
  ⟨loadedState_good, loadedState_ready⟩

theorem witness_ProcChecksBeforeItRuns :
    (State.resetWith smallParams).Good ∧ (State.resetWith smallParams).st ≠ .prepared ∧
      readyState.Good ∧ readyState.st = .prepared ∧ 3 > readyState.maxblk.toNat ∧ 3 > readyState.cfg.nch ∧
      readyState.readyFor 2 2 ∧ ({ readyState with av := false } : State).Good := by
  refine ⟨resetWith_small_good, by decide, readyState_good, rfl, by decide, by decide, by decide, ?_⟩
  exact { readyState_good with
    committed := by decide
    unprepared := by decide }

theorem witness_ProcLeavesTheRestAlone :
    ∃ t, loadedState.Good ∧ exec (.proc 1 2) loadedState = .next t ∧ t.lastCode = some .ok :=
  ⟨_, loadedState_good, execProc_of_readyFor loadedState_good loadedState_ready, rfl⟩

theorem witness_ProcOfAnEmptyBlockChangesNothing : readyState.readyFor 2 0 := by decide

/-- Two states that differ in channel 1 only. -/
theorem witness_ChannelsAreIndependent :
    ∃ s s' t t' : State, s.Good ∧ s'.Good ∧ s'.cfg = s.cfg ∧ s'.act = s.act ∧ s.readyFor 2 1 ∧ s'.readyFor 1 1 ∧
      (∀ n < 1, wordsAgree (s.bufWord 0 n) (s'.bufWord 0 n)) ∧
      (∀ sec < s.cfg.nsec, delaysAgree (s.delay sec 0) (s'.delay sec 0)) ∧
      s.bufWord 1 0 ≠ s'.bufWord 1 0 ∧
      exec (.proc 2 1) s = .next t ∧ exec (.proc 1 1) s' = .next t' := by
  have g' : (State.setBufWord 1 0 0x40400000#32 loadedState).Good :=
    loadedState_good.setBufWord _ (by decide) (by decide)
  refine ⟨loadedState, State.setBufWord 1 0 0x40400000#32 loadedState, _, _, loadedState_good, g', rfl, rfl,
    by decide, by decide, ?_, ?_, by decide +kernel, execProc_of_readyFor loadedState_good (by decide),
    execProc_of_readyFor g' (by decide)⟩
  · have h : ∀ n < 1, loadedState.bufWord 0 n = (State.setBufWord 1 0 0x40400000#32 loadedState).bufWord 0 n := by
      decide +kernel
    exact fun n hn => .inl (h n hn)
  · exact fun sec _ => ⟨.inl rfl, .inl rfl⟩

/-- Blocks of one and of two samples that agree on the first. -/
theorem witness_OutputsDependOnEarlierSamplesOnly :
    ∃ s s' t t' : State, s.Good ∧ s'.Good ∧ s'.cfg = s.cfg ∧ s'.act = s.act ∧ s.readyFor 1 2 ∧ s'.readyFor 1 1 ∧
      (∀ n < 1, wordsAgree (s.bufWord 0 n) (s'.bufWord 0 n)) ∧
      (∀ sec < s.cfg.nsec, delaysAgree (s.delay sec 0) (s'.delay sec 0)) ∧
      exec (.proc 1 2) s = .next t ∧ exec (.proc 1 1) s' = .next t' :=
  ⟨loadedState, loadedState, _, _, loadedState_good, loadedState_good, rfl, rfl, loadedState_ready, by decide,
    fun _ _ => .inl rfl, fun _ _ => ⟨.inl rfl, .inl rfl⟩, execProc_of_readyFor loadedState_good loadedState_ready,
    execProc_of_readyFor loadedState_good (by decide)⟩

/-- A block of two samples, and the same two samples as two blocks of one. -/
theorem witness_BlockBoundariesAreInvisible :
    ∃ s t t1 u t2 : State, s.Good ∧ s.readyFor 1 2 ∧ exec (.proc 1 2) s = .next t ∧ exec (.proc 1 1) s = .next t1 ∧
      u.Good ∧ u.cfg = t1.cfg ∧ u.st = t1.st ∧ u.maxblk = t1.maxblk ∧ u.av = t1.av ∧ u.act = t1.act ∧ u.z = t1.z ∧
      (∀ c < 1, ∀ n < 1, u.bufWord c n = s.bufWord c (1 + n)) ∧ exec (.proc 1 1) u = .next t2 := by
  let z1 := (loadedState.process 1 1).z
  let u : State := State.setBufWord 0 0 0x3F000000#32 { loadedState with z := z1 }
  have gz : ({ loadedState with z := z1 } : State).Good :=
    { loadedState_good with
      z_length := by decide +kernel
      z_rows := by decide +kernel }
  have gu : u.Good := gz.setBufWord _ (by decide) (by decide)
  have same := loadedState.process_same 1 1 rfl
  rw [State.sameButFiltered] at same
  refine ⟨loadedState, _, _, u, _, loadedState_good, loadedState_ready,
    execProc_of_readyFor loadedState_good (by decide), execProc_of_readyFor loadedState_good (by decide), gu,
    ?_, ?_, ?_, ?_, ?_, rfl, by decide +kernel, execProc_of_readyFor gu ⟨rfl, by decide, by decide, by decide, rfl⟩⟩
  all_goals
    rw [same]
    rfl

/-- A NaN and an infinity as input, and each in the first delay element; an infinite output. -/
theorem witness_NonFiniteOutputEntersTheState :
    isNaN 0x7F800001#32 = true ∧ isFinite 0xFF800000#32 = false ∧
      isFinite (sectionStep (fun j => freshNaN (0 + j)) passThrough ⟨0#32, 0#32⟩ 0x7F800000#32).1 = false ∧
      isNaN (sectionStep (fun j => freshNaN (0 + j)) passThrough ⟨0x7F800001#32, 0#32⟩ 0#32).1 = true := by
  refine ⟨by decide, by decide, by decide +kernel, ?_⟩
  simp only [sectionStep]
  rw [isNaN_fadd (isNaN_freshNaN _)]
  decide +kernel

/-- A NaN, then an infinity, in each place the statement names. -/
theorem witness_NonFiniteStatePersists :
    ∀ x ∈ [0x7FC00000#32, 0xFF800000#32], isFinite x = false ∧
      (∃ s t : State, s.Good ∧ s.readyFor 1 2 ∧ exec (.proc 1 2) s = .next t ∧ (s.delay 2 0).z1 = x) ∧
      (∃ s t : State, s.Good ∧ s.readyFor 1 2 ∧ exec (.proc 1 2) s = .next t ∧ (s.delay 0 0).z2 = x) ∧
      (∃ s t : State, s.Good ∧ s.readyFor 1 2 ∧ exec (.proc 1 2) s = .next t ∧ s.bufWord 0 1 = x) := by
  intro x hx
  have hd : ∀ (sec : Nat) (d : Delay), (State.setDelay sec 0 d loadedState).readyFor 1 2 :=
    fun _ _ => loadedState_ready
  have hf : isFinite x = false := by
    simp only [List.mem_cons, List.not_mem_nil, or_false] at hx
    rcases hx with rfl | rfl <;> decide
  refine ⟨hf, ⟨_, _, loadedState_good.setDelay 2 0 ⟨x, 0#32⟩, hd _ _,
      execProc_of_readyFor (loadedState_good.setDelay 2 0 ⟨x, 0#32⟩) (hd _ _), ?_⟩,
    ⟨_, _, loadedState_good.setDelay 0 0 ⟨0#32, x⟩, hd _ _,
      execProc_of_readyFor (loadedState_good.setDelay 0 0 ⟨0#32, x⟩) (hd _ _), ?_⟩,
    ⟨_, _, loadedState_good.setBufWord (c := 0) (n := 1) x (by decide) (by decide), loadedState_ready,
      execProc_of_readyFor (loadedState_good.setBufWord (c := 0) (n := 1) x (by decide) (by decide))
        loadedState_ready, ?_⟩⟩
  · rfl
  · rfl
  · simpa using State.bufWord_setBufWord loadedState (c := 0) (n := 1) (c' := 0) (n' := 1) x (by decide) (by decide)

theorem witness_NonFiniteStateLeavesOnlyByReset :
    ∃ s t : State, s.Good ∧ step s = .next t ∧ isNaN (s.delay 2 0).z1 = true ∧ isNaN (t.delay 2 0).z1 = false ∧
      isFinite (s.delay 2 0).z1 = false ∧ isFinite (t.delay 2 0).z1 = true := by
  have g := (loadedState_good.setDelay 2 0 ⟨0x7FC00000#32, 0#32⟩).withPort [.command 0x0300000000000000#64]
  exact ⟨_, _, g, rfl, by decide, by decide, by decide, by decide⟩

/-- BUF[0][0] = -0 for the first clause, +0 for the second; the pass-through set has no sign bit set. -/
theorem witness_SilenceGivesSilence :
    ∀ x ∈ [0x80000000#32, 0x00000000#32],
      (State.setBufWord 0 0 x readyState).Good ∧ (State.setBufWord 0 0 x readyState).readyFor 1 1 ∧
      (∀ sec < 3, ∀ ix, isFinite (((State.setBufWord 0 0 x readyState).activeCoefs sec).get ix) = true ∧
        signBit (((State.setBufWord 0 0 x readyState).activeCoefs sec).get ix) = false) ∧
      (∀ c < 1, ∀ n < 1, (State.setBufWord 0 0 x readyState).bufWord c n = x ∧ isZero x = true) ∧
      (∀ sec < 3, ∀ c < 1, (State.setBufWord 0 0 x readyState).delay sec c = ⟨0#32, 0#32⟩) := by
  intro x hx
  refine ⟨readyState_good.setBufWord _ (by decide) (by decide), ⟨rfl, ?_⟩, ?_, ?_, ?_⟩
  · have h : 1 ≤ 1 ∧ 1 ≤ readyState.cfg.nch ∧ 1 ≤ readyState.maxblk.toNat ∧ readyState.av = true := by decide
    exact h
  · intro sec hs ix
    simp only [State.activeCoefs, State.setBufWord_act]
    revert sec
    cases ix <;> decide
  · simp only [List.mem_cons, List.not_mem_nil, or_false] at hx
    rcases hx with rfl | rfl <;> decide +kernel
  · have h : ∀ sec < 3, ∀ c < 1, readyState.delay sec c = ⟨0#32, 0#32⟩ := by decide
    exact h

theorem witness_WrbWritesOneWord :
    (1 < State.reset.cfg.nch ∧ 4095 < State.reset.cfg.maxcap) ∧ (2 ≥ State.reset.cfg.nch) ∧
      4096 ≥ State.reset.cfg.maxcap := by decide

theorem witness_RdbAnswersTheWord :
    (0 < State.reset.cfg.nch ∧ 0 < State.reset.cfg.maxcap) ∧ (255 ≥ State.reset.cfg.nch) ∧
      65535 ≥ State.reset.cfg.maxcap := by decide

theorem witness_WrittenWordIsReadBack :
    ∃ t u, 1 < readyState.cfg.nch ∧ 1 < readyState.cfg.maxcap ∧ exec (.wrb 1 1 0xFFC12345#32) readyState = .next t ∧
      exec (.rdb 0 1) t = .next u := ⟨_, _, by decide, by decide, rfl, rfl⟩

theorem witness_RdsAnswersTheStatusWord : (6 : Nat) > 5 := by decide

theorem witness_RoundingIsToNearestTiesToEven :
    0 < 3 ∧ 0 < 2 ∧ isFinite (withSign true (roundBits 3 2)) = true ∧ isFinite 0x00000001#32 = true := by decide

/-- A case for each clause: NaN operand, infinity, zero, product. -/
theorem witness_FmulFollowsItsCases :
    isNaN 0x7F800001#32 = true ∧ (isZero 0x80000000#32 = true ∧ isInf 0xFF800000#32 = true) ∧
      (isNaN 0x3F800000#32 = false ∧ isFinite 0x3F800000#32 = true ∧ isZero 0x3F800000#32 = false) := by decide

/-- A case for each clause: NaN, opposite infinities, an infinity, zeros, exact cancellation, sum, a zero added. -/
theorem witness_FaddFollowsItsCases :
    isNaN 0xFFC00000#32 = true ∧ (isInf 0x7F800000#32 = true ∧ isInf 0xFF800000#32 = true ∧
      signBit 0x7F800000#32 ≠ signBit 0xFF800000#32) ∧
      (isNaN 0x3F800000#32 = false ∧ isInf 0x3F800000#32 = false) ∧ isZero 0x80000000#32 = true ∧
      scaledValue 0x3FC00000#32 + scaledValue 0xBFC00000#32 = 0 ∧
      scaledValue 0x00000001#32 + scaledValue 0x80000000#32 ≠ 0 := by decide +kernel

theorem witness_FsubAddsTheNegative : isFinite 0x7F7FFFFF#32 = true ∧ isNaN 0x7FFFFFFF#32 = true := by decide

theorem witness_PassThroughSectionPassesSamples :
    (isFinite 0x00000001#32 = true ∧ isZero 0x00000001#32 = false) ∧ isFinite 0x7F800000#32 = false ∧
      isFinite 0x7FC00000#32 = false := by decide

end Sys2Proof.Tests
end

section
/-! SUPPORT. Everything one step can do, said once (R48, R60, R171, R172): cite these instead of unfolding step. -/

namespace Sys2Proof.Machine

variable {s t : State}

/-- What one event can do to the block (R46, R60, R170, R172). -/
theorem runEvent_next {e : HostEvent} (h : runEvent e s = .next t) :
    (∃ w i, e = .command w ∧ decode w = .ok i ∧ exec i s.accept = .next t) ∨
    (∃ w err, e = .command w ∧ decode w = .error err ∧ t = s.accept.fail .opc) ∨
    (e = .hardReset ∧ t = s.hardReset) ∨
    (∃ w, e = .cutShort w ∧ t = s.accept.hardReset) ∨
    (∃ c n v, e = .directWrite c n v ∧ exec (.wrb c n v) s.accept = .next t) ∨
    (∃ c n, e = .directRead c n ∧ exec (.rdb c n) s.accept = .next t) := by
  cases e with
  | command w =>
    change runWord w s = .next t at h
    cases hd : decode w with
    | ok i => exact .inl ⟨w, i, rfl, hd, (runWord_ok hd).symm.trans h⟩
    | error err =>
      cases (runWord_error hd).symm.trans h
      exact .inr (.inl ⟨w, err, rfl, hd, rfl⟩)
  | hardReset =>
    cases h
    exact .inr (.inr (.inl ⟨rfl, rfl⟩))
  | cutShort w =>
    cases h
    exact .inr (.inr (.inr (.inl ⟨w, rfl, rfl⟩)))
  | directWrite c n v => exact .inr (.inr (.inr (.inr (.inl ⟨c, n, v, rfl, h⟩))))
  | directRead c n => exact .inr (.inr (.inr (.inr (.inr ⟨c, n, rfl, h⟩))))

/-- A step waits, or takes the oldest event off the port (R48, R171). -/
theorem step_next (h : step s = .next t) :
    (s.port = [] ∧ t = s) ∨
    (∃ e rest, s.port = e :: rest ∧ runEvent e { s with port := rest } = .next t) := by
  rw [step, runPort] at h
  split at h
  case h_1 hp =>
    cases h
    exact .inl ⟨hp, rfl⟩
  case h_2 e rest hp => exact .inr ⟨e, rest, hp, h⟩

end Sys2Proof.Machine
end

section
/-! The build parameters are fixed when the block is built (R6). -/

namespace Sys2Proof.Machine

variable {s t : State}

@[simp] theorem State.process_cfg (s : State) (nch m : Nat) : (s.process nch m).cfg = s.cfg :=
  State.procLoop_cfg { s with st := .processing } nch m

/-- No command's meaning writes the build parameters. -/
theorem exec_cfg {i : Instr} (h : exec i s = .next t) : t.cfg = s.cfg := by
  cases i with
  | prep => obtain ⟨-, rfl⟩ | ⟨-, rfl⟩ := execPrep_next h <;> simp
  | rel => simp [execRel_next h]
  | rst => obtain ⟨-, rfl⟩ | ⟨-, rfl⟩ := execRst_next h <;> simp
  | ldc => obtain ⟨-, ix, -, rfl⟩ | ⟨-, -, rfl⟩ | ⟨-, rfl⟩ := execLdc_next h <;> simp
  | cmt => obtain ⟨-, -, rfl⟩ | ⟨-, -, rfl⟩ | ⟨-, rfl⟩ := execCmt_next h <;> simp
  | proc =>
    obtain ⟨-, -, -, -, rfl⟩ | ⟨-, -, -, rfl⟩ | ⟨-, -, rfl⟩ | ⟨-, rfl⟩ := execProc_next h <;> simp
  | wrb => obtain ⟨-, rfl⟩ | ⟨-, rfl⟩ := execWrb_next h <;> simp
  | rdb => obtain ⟨-, rfl⟩ | ⟨-, rfl⟩ := execRdb_next h <;> simp
  | rds => obtain ⟨v, -, rfl⟩ | ⟨-, rfl⟩ := execRds_next h <;> simp

/-- No event changes the build parameters, hardware reset included. -/
theorem runEvent_cfg {e : HostEvent} (h : runEvent e s = .next t) : t.cfg = s.cfg := by
  obtain ⟨w, i, -, -, hx⟩ | ⟨w, err, -, -, rfl⟩ | ⟨-, rfl⟩ | ⟨w, -, rfl⟩ | ⟨c, n, v, -, hx⟩ | ⟨c, n, -, hx⟩ :=
    runEvent_next h
  · exact (exec_cfg hx).trans s.accept_cfg
  · rw [State.fail_cfg, State.accept_cfg]
  · exact s.hardReset_cfg
  · rw [State.hardReset_cfg, State.accept_cfg]
  · exact (exec_cfg hx).trans s.accept_cfg
  · exact (exec_cfg hx).trans s.accept_cfg

theorem step_cfg (h : step s = .next t) : t.cfg = s.cfg := by
  obtain ⟨-, rfl⟩ | ⟨e, rest, -, hx⟩ := step_next h
  · rfl
  · exact runEvent_cfg (s := { s with port := rest }) hx

/-- Settles O13: every event's meaning keeps cfg, and its fields' ranges are the proofs it carries. -/
theorem buildParametersNeverChange : Obligations.BuildParametersNeverChange :=
  ⟨fun _ _ => step_cfg,
    fun s => ⟨s.cfg.nsec_legal, s.cfg.nch_legal, s.cfg.maxcap_legal⟩,
    ⟨rfl, rfl, rfl⟩⟩

end Sys2Proof.Machine
end

section
/-! ERR holds the first failure's code until hardware reset (R12, R145). -/

namespace Sys2Proof.Machine

variable {s t : State}

@[simp] theorem State.process_err (s : State) (nch m : Nat) : (s.process nch m).err = s.err := by
  rw [State.process, State.procLoop_same { s with st := .processing } nch m]

@[simp] theorem errAfter_ok (old : BitVec 8) : errAfter old .ok = old := by
  by_cases h : old = 0#8 <;> simp [errAfter, RespCode.bits, h]

theorem errAfter_of_ne_zero {old : BitVec 8} (code : RespCode) (h : old ≠ 0#8) : errAfter old code = old := if_neg h

/-- R12's condition as the obligation writes it: OK never counts as the first failure. -/
theorem errAfter_eq_ite (old : BitVec 8) (code : RespCode) :
    errAfter old code = if old = 0#8 ∧ code ≠ .ok then code.bits else old := by
  by_cases hc : code = .ok
  · simp [hc]
  · simp [errAfter, hc]

/-- A command completes, answers OK and leaves ERR, or it fails and performs nothing but `raise` (R8, R145). -/
theorem exec_completes_or_fails {i : Instr} (h : exec i s = .next t) :
    (∃ u d, u.err = s.err ∧ t = State.respond .ok d u) ∨ (∃ code, code ≠ .ok ∧ t = s.fail code) := by
  cases i with
  | prep b fs =>
    obtain ⟨-, rfl⟩ | ⟨-, rfl⟩ := execPrep_next h
    · exact .inl ⟨_, _, s.prepare_err b fs, rfl⟩
    · exact .inr ⟨.range, nofun, rfl⟩
  | rel => exact .inl ⟨_, _, s.release_err, execRel_next h⟩
  | rst =>
    obtain ⟨-, rfl⟩ | ⟨-, rfl⟩ := execRst_next h
    · exact .inl ⟨_, _, s.clearDelays_err, rfl⟩
    · exact .inr ⟨.state, nofun, rfl⟩
  | ldc sec k v =>
    obtain ⟨-, ix, -, rfl⟩ | ⟨-, -, rfl⟩ | ⟨-, rfl⟩ := execLdc_next h
    · exact .inl ⟨_, _, s.stage_err sec ix v, rfl⟩
    · exact .inr ⟨.range, nofun, rfl⟩
    · exact .inr ⟨.state, nofun, rfl⟩
  | cmt =>
    obtain ⟨-, -, rfl⟩ | ⟨-, -, rfl⟩ | ⟨-, rfl⟩ := execCmt_next h
    · exact .inl ⟨_, _, s.commit_err, rfl⟩
    · exact .inr ⟨.nocoef, nofun, rfl⟩
    · exact .inr ⟨.state, nofun, rfl⟩
  | proc nch m =>
    obtain ⟨-, -, -, -, rfl⟩ | ⟨-, -, -, rfl⟩ | ⟨-, -, rfl⟩ | ⟨-, rfl⟩ := execProc_next h
    · exact .inl ⟨_, _, s.process_err nch m, rfl⟩
    · exact .inr ⟨.nocoef, nofun, rfl⟩
    · exact .inr ⟨.range, nofun, rfl⟩
    · exact .inr ⟨.state, nofun, rfl⟩
  | wrb c n v =>
    obtain ⟨-, rfl⟩ | ⟨-, rfl⟩ := execWrb_next h
    · exact .inl ⟨_, _, s.setBufWord_err c n v, rfl⟩
    · exact .inr ⟨.range, nofun, rfl⟩
  | rdb =>
    obtain ⟨-, rfl⟩ | ⟨-, rfl⟩ := execRdb_next h
    · exact .inl ⟨s, _, rfl, rfl⟩
    · exact .inr ⟨.range, nofun, rfl⟩
  | rds =>
    obtain ⟨v, -, rfl⟩ | ⟨-, rfl⟩ := execRds_next h
    · exact .inl ⟨s, v, rfl, rfl⟩
    · exact .inr ⟨.range, nofun, rfl⟩

/-- Every command answers, and ERR follows the code of its answer (R12). -/
theorem exec_err {i : Instr} (h : exec i s = .next t) : ∃ r, t.out = some r ∧ t.err = errAfter s.err r.code := by
  obtain ⟨u, d, hu, rfl⟩ | ⟨code, -, rfl⟩ := exec_completes_or_fails h
  · exact ⟨⟨.ok, d⟩, rfl, by simp [hu]⟩
  · exact ⟨⟨code, 0#32⟩, rfl, rfl⟩

/-- An event answers and ERR follows the answer's code, or it is a hardware reset and clears ERR (R12, R171, R172). -/
theorem runEvent_err {e : HostEvent} (h : runEvent e s = .next t) :
    (∃ r, t.out = some r ∧ t.err = errAfter s.err r.code) ∨
    (t.err = 0#8 ∧ (e = .hardReset ∨ ∃ w, e = .cutShort w)) := by
  obtain ⟨w, i, -, -, hx⟩ | ⟨w, err, -, -, rfl⟩ | ⟨rfl, rfl⟩ | ⟨w, rfl, rfl⟩ | ⟨c, n, v, -, hx⟩ | ⟨c, n, -, hx⟩ :=
    runEvent_next h
  · exact .inl (exec_err (s := s.accept) hx)
  · exact .inl ⟨⟨.opc, 0#32⟩, rfl, rfl⟩
  · exact .inr ⟨rfl, .inl rfl⟩
  · exact .inr ⟨rfl, .inr ⟨w, rfl⟩⟩
  · exact .inl (exec_err (s := s.accept) hx)
  · exact .inl (exec_err (s := s.accept) hx)

theorem step_command_err {w : CmdWord} {rest : List HostEvent} {r : Response} (hp : s.port = .command w :: rest)
    (h : step s = .next t) (hr : t.out = some r) : t.err = errAfter s.err r.code := by
  rw [step_command hp] at h
  obtain ⟨r', hr', he⟩ | ⟨-, hc | ⟨w', hc⟩⟩ := runEvent_err (e := .command w) h
  · cases hr.symm.trans hr'
    exact he
  · cases hc
  · cases hc

theorem step_changes_nonzero_err (h : step s = .next t) (h0 : s.err ≠ 0#8) (hne : t.err ≠ s.err) :
    t.err = 0#8 ∧ ∃ rest, s.port = .hardReset :: rest ∨ ∃ w, s.port = .cutShort w :: rest := by
  obtain ⟨-, rfl⟩ | ⟨e, rest, hp, hx⟩ := step_next h
  · exact absurd rfl hne
  · obtain ⟨r, -, he⟩ | ⟨he, rfl | ⟨w, rfl⟩⟩ := runEvent_err hx
    · exact absurd (he.trans (errAfter_of_ne_zero r.code h0)) hne
    · exact ⟨he, rest, .inl hp⟩
    · exact ⟨he, rest, .inr ⟨w, hp⟩⟩

/-- Settles O17: every answered event moves ERR by `errAfter` of its code, which keeps a nonzero ERR; the only other
events are hardware resets, which clear it. -/
theorem errHoldsTheFirstFailure : Obligations.ErrHoldsTheFirstFailure :=
  ⟨fun s _ _ _ r hp h hr => (step_command_err hp h hr).trans (errAfter_eq_ite s.err r.code),
    fun _ _ => step_changes_nonzero_err,
    rfl⟩

end Sys2Proof.Machine
end

section
/-! BUF's word addresses are exactly the numbers below NCH × MAXCAP (R40); Laws/Memory.lean has that they lie there and
are distinct. -/

namespace Sys2Proof.Machine

/-- The greatest BUF, 255 × 65535 words, is short of 2^24 (R6, R40). -/
theorem nch_mul_maxcap_lt (p : Params) : p.nch * p.maxcap < 2 ^ 24 :=
  calc p.nch * p.maxcap ≤ 255 * 65535 := Nat.mul_le_mul p.nch_legal.2 p.maxcap_legal.2
    _ < 2 ^ 24 := by decide

/-- Dividing an address by MAXCAP recovers its word: the quotient is the channel, the remainder the sample index. -/
theorem wordAddr_div_mod (p : Params) (wa : Nat) : wordAddr p (wa / p.maxcap) (wa % p.maxcap) = wa :=
  Nat.div_add_mod' wa p.maxcap

theorem exists_wordAddr_eq {p : Params} {wa : Nat} (h : wa < p.nch * p.maxcap) :
    ∃ c n, c < p.nch ∧ n < p.maxcap ∧ wordAddr p c n = wa :=
  ⟨wa / p.maxcap, wa % p.maxcap, Nat.div_lt_of_lt_mul (Nat.mul_comm p.nch p.maxcap ▸ h),
    Nat.mod_lt wa p.maxcap_legal.1, wordAddr_div_mod p wa⟩

/-- Settles O21: an address is its channel and sample index written in base MAXCAP, so it determines both, and every
number below NCH × MAXCAP has such digits. -/
theorem bufWordsHaveTheirOwnAddresses : Obligations.BufWordsHaveTheirOwnAddresses :=
  fun p _ _ _ _ hc hn _ hn' =>
    ⟨rfl, wordAddr_lt p hc hn, nch_mul_maxcap_lt p, (wordAddr_inj p hn hn').mp, fun _ => exists_wordAddr_eq⟩

end Sys2Proof.Machine
end

section
/-! The fields of a command's word (R61 to R63), and the decoder, encoder, opcode table and R64's illegal words told
by them. -/

namespace Sys2Proof

open Sys2Proof.Machine

variable {w : CmdWord} {i : Instr} {r : OpRow}

/-- The fields of `w` are those R63's row gives the command: its `op`, its operands, and zero where the row says so.
`carries_of_decode` and `decode_of_carries` tie this to the decoder, `encode_of_carries` and `carries_encode` to the
encoder. -/
def carries (w : CmdWord) : Instr → Prop
  | .prep maxblk fs => fieldOp w = 0x01#8 ∧ fieldA w = 0#8 ∧ maxblk = (fieldB w).toNat ∧ fs = fieldImm w
  | .rel => fieldOp w = 0x02#8 ∧ fieldA w = 0#8 ∧ fieldB w = 0#16 ∧ fieldImm w = 0#32
  | .rst => fieldOp w = 0x03#8 ∧ fieldA w = 0#8 ∧ fieldB w = 0#16 ∧ fieldImm w = 0#32
  | .ldc sec k value =>
    fieldOp w = 0x10#8 ∧ sec = (fieldA w).toNat ∧ k = (fieldB w).toNat ∧ value = fieldImm w
  | .cmt => fieldOp w = 0x11#8 ∧ fieldA w = 0#8 ∧ fieldB w = 0#16 ∧ fieldImm w = 0#32
  | .proc nch m => fieldOp w = 0x20#8 ∧ nch = (fieldA w).toNat ∧ m = (fieldB w).toNat ∧ fieldImm w = 0#32
  | .wrb c n value =>
    fieldOp w = 0x30#8 ∧ c = (fieldA w).toNat ∧ n = (fieldB w).toNat ∧ value = fieldImm w
  | .rdb c n => fieldOp w = 0x31#8 ∧ c = (fieldA w).toNat ∧ n = (fieldB w).toNat ∧ fieldImm w = 0#32
  | .rds idx => fieldOp w = 0x40#8 ∧ fieldA w = 0#8 ∧ idx = (fieldB w).toNat ∧ fieldImm w = 0#32

/-! The decoder reads exactly the commands whose fields the word carries. -/

/-- Each branch of the decoder that answers a command has compared the fields of its row. -/
theorem carries_of_decode (h : decode w = .ok i) : carries w i := by
  simp only [decode] at h
  split_ifs at h <;> cases h <;> simp_all [carries]

theorem decode_of_carries (h : carries w i) : decode w = .ok i := by
  cases i <;> obtain ⟨hop, ha, hb, himm⟩ := h <;> simp [decode, *]

/-! The encoder writes exactly the word that carries the command. -/

@[simp] theorem fitsA_toNat (a : BitVec 8) : fitsA a.toNat = true := decide_eq_true a.isLt

@[simp] theorem fitsB_toNat (b : BitVec 16) : fitsB b.toNat = true := decide_eq_true b.isLt

theorem wellFormed_of_carries (h : carries w i) : i.wellFormed = true := by
  cases i <;> obtain ⟨hop, ha, hb, himm⟩ := h <;> simp [Instr.wellFormed, *]

theorem encode_of_carries (h : carries w i) : encode i = w := by
  rw [← packFields_fields w]
  cases i <;> obtain ⟨hop, ha, hb, himm⟩ := h <;> simp [encode, *]

theorem carries_encode (h : i.wellFormed = true) : carries (encode i) i := by
  cases i <;> simp_all [carries, encode, Instr.wellFormed, fitsA, fitsB, Nat.mod_eq_of_lt]

/-! A word is illegal exactly when no row of R63 fits its fields. -/

theorem not_illegalWord_of_carries (h : carries w i) : ¬ illegalWord w := by
  cases i <;> obtain ⟨hop, ha, hb, himm⟩ := h <;> simp [illegalWord, *]

/-- Each branch of the decoder that answers an error has found one of R64's two reasons. -/
theorem illegalWord_of_decode {e : DecodeError} (h : decode w = .error e) : illegalWord w := by
  simp only [decode] at h
  split_ifs at h <;> simp_all [illegalWord] <;> tauto

theorem illegalWord_iff : illegalWord w ↔ ∃ e, decode w = .error e := by
  constructor
  · intro hw
    cases hd : decode w with
    | ok i => exact absurd hw (not_illegalWord_of_carries (carries_of_decode hd))
    | error e => exact ⟨e, rfl⟩
  · rintro ⟨e, he⟩
    exact illegalWord_of_decode he

theorem exists_decode_of_not_illegalWord (h : ¬ illegalWord w) : ∃ i, decode w = .ok i := by
  cases hd : decode w with
  | ok i => exact ⟨i, rfl⟩
  | error e => exact absurd (illegalWord_of_decode hd) h

/-! The opcode table (R65). -/

/-- A row whose mask and pattern are written as fields tests the word field by field. -/
theorem matchesWord_packFields {mn : String} {op mop a ma : BitVec 8} {b mb : BitVec 16} {imm mimm : BitVec 32} :
    (OpRow.mk mn (packFields op a b imm) (packFields mop ma mb mimm)).matchesWord w = true ↔
      fieldOp w &&& mop = op ∧ fieldA w &&& ma = a ∧ fieldB w &&& mb = b ∧ fieldImm w &&& mimm = imm := by
  rw [OpRow.matchesWord, beq_iff_eq, ← packFields_inj, ← packFields_and, packFields_fields]

/-- The table's masks and patterns, written as fields: a mask covers `op` and the must-be-zero fields (R65). -/
theorem opcodeTable_eq_packFields : opcodeTable =
    [⟨"PREP", packFields 0x01#8 0#8 0#16 0#32, packFields (.allOnes 8) (.allOnes 8) 0#16 0#32⟩,
     ⟨"REL", packFields 0x02#8 0#8 0#16 0#32, packFields (.allOnes 8) (.allOnes 8) (.allOnes 16) (.allOnes 32)⟩,
     ⟨"RST", packFields 0x03#8 0#8 0#16 0#32, packFields (.allOnes 8) (.allOnes 8) (.allOnes 16) (.allOnes 32)⟩,
     ⟨"LDC", packFields 0x10#8 0#8 0#16 0#32, packFields (.allOnes 8) 0#8 0#16 0#32⟩,
     ⟨"CMT", packFields 0x11#8 0#8 0#16 0#32, packFields (.allOnes 8) (.allOnes 8) (.allOnes 16) (.allOnes 32)⟩,
     ⟨"PROC", packFields 0x20#8 0#8 0#16 0#32, packFields (.allOnes 8) 0#8 0#16 (.allOnes 32)⟩,
     ⟨"WRB", packFields 0x30#8 0#8 0#16 0#32, packFields (.allOnes 8) 0#8 0#16 0#32⟩,
     ⟨"RDB", packFields 0x31#8 0#8 0#16 0#32, packFields (.allOnes 8) 0#8 0#16 (.allOnes 32)⟩,
     ⟨"RDS", packFields 0x40#8 0#8 0#16 0#32, packFields (.allOnes 8) (.allOnes 8) 0#16 (.allOnes 32)⟩] := by
  decide

/-- A word that matches a row carries a command of that row's mnemonic. -/
theorem exists_carries_of_matchesWord (hr : r ∈ opcodeTable) (h : r.matchesWord w = true) :
    ∃ i, carries w i ∧ mnemonicOf i = r.mnemonic := by
  simp only [opcodeTable_eq_packFields, List.mem_cons, List.not_mem_nil, or_false] at hr
  obtain rfl | rfl | rfl | rfl | rfl | rfl | rfl | rfl | rfl := hr <;>
    rw [matchesWord_packFields] at h <;>
    simp only [BitVec.and_allOnes, BitVec.and_zero, true_and, and_true] at h
  · obtain ⟨hop, ha⟩ := h
    exact ⟨.prep (fieldB w).toNat (fieldImm w), ⟨hop, ha, rfl, rfl⟩, rfl⟩
  · exact ⟨.rel, h, rfl⟩
  · exact ⟨.rst, h, rfl⟩
  · exact ⟨.ldc (fieldA w).toNat (fieldB w).toNat (fieldImm w), ⟨h, rfl, rfl, rfl⟩, rfl⟩
  · exact ⟨.cmt, h, rfl⟩
  · obtain ⟨hop, himm⟩ := h
    exact ⟨.proc (fieldA w).toNat (fieldB w).toNat, ⟨hop, rfl, rfl, himm⟩, rfl⟩
  · exact ⟨.wrb (fieldA w).toNat (fieldB w).toNat (fieldImm w), ⟨h, rfl, rfl, rfl⟩, rfl⟩
  · obtain ⟨hop, himm⟩ := h
    exact ⟨.rdb (fieldA w).toNat (fieldB w).toNat, ⟨hop, rfl, rfl, himm⟩, rfl⟩
  · obtain ⟨hop, ha, himm⟩ := h
    exact ⟨.rds (fieldB w).toNat, ⟨hop, ha, rfl, himm⟩, rfl⟩

/-- Every command's word matches the row of its mnemonic. -/
theorem encode_matches_row (i : Instr) : Laws.EncodeMatchesRow.Statement i := by
  cases i with
  | prep maxblk fs => exact Laws.EncodeMatchesRow.prep maxblk fs
  | rel => exact Laws.EncodeMatchesRow.rel
  | rst => exact Laws.EncodeMatchesRow.rst
  | ldc sec k value => exact Laws.EncodeMatchesRow.ldc sec k value
  | cmt => exact Laws.EncodeMatchesRow.cmt
  | proc nch m => exact Laws.EncodeMatchesRow.proc nch m
  | wrb c n value => exact Laws.EncodeMatchesRow.wrb c n value
  | rdb c n => exact Laws.EncodeMatchesRow.rdb c n
  | rds idx => exact Laws.EncodeMatchesRow.rds idx

/-- The mnemonic names the row. -/
theorem row_eq_of_mnemonic : ∀ r ∈ opcodeTable, ∀ r' ∈ opcodeTable, r.mnemonic = r'.mnemonic → r = r' := by decide

/-- A word is a row's command exactly when it passes the row's test (R65). -/
theorem matchesWord_iff (hr : r ∈ opcodeTable) :
    r.matchesWord w = true ↔ ∃ i, carries w i ∧ mnemonicOf i = r.mnemonic := by
  refine ⟨exists_carries_of_matchesWord hr, ?_⟩
  rintro ⟨i, hi, hm⟩
  obtain ⟨r', hr', hm', hw⟩ := encode_matches_row i
  rw [row_eq_of_mnemonic r hr r' hr' (hm.symm.trans hm'.symm), ← encode_of_carries hi]
  exact hw

/-- A word carries at most one command, so at most one row matches it (R65). -/
theorem row_eq_of_matchesWord {r' : OpRow} (hr : r ∈ opcodeTable) (hr' : r' ∈ opcodeTable)
    (h : r.matchesWord w = true) (h' : r'.matchesWord w = true) : r = r' := by
  obtain ⟨i, hi, hm⟩ := (matchesWord_iff hr).1 h
  obtain ⟨j, hj, hm'⟩ := (matchesWord_iff hr').1 h'
  have hij : i = j := Except.ok.inj ((decode_of_carries hi).symm.trans (decode_of_carries hj))
  exact row_eq_of_mnemonic r hr r' hr' (hm.symm.trans (hij ▸ hm'))

theorem no_row_matchesWord_iff :
    (∀ r ∈ opcodeTable, r.matchesWord w = false) ↔ ∃ e, decode w = .error e := by
  constructor
  · intro h
    cases hd : decode w with
    | error e => exact ⟨e, rfl⟩
    | ok i =>
      obtain ⟨r, hr, -, hw⟩ := encode_matches_row i
      rw [encode_of_carries (carries_of_decode hd), h r hr] at hw
      cases hw
  · rintro ⟨e, he⟩ r hr
    by_contra hw
    obtain ⟨i, hi, -⟩ := (matchesWord_iff hr).1 (by simpa using hw)
    cases he.symm.trans (decode_of_carries hi)

/-- Settles O1: the encoder's word carries the command, and the decoder reads what a word carries. -/
theorem decodeUndoesEncode : Obligations.DecodeUndoesEncode :=
  fun _ hi => decode_of_carries (carries_encode hi)

/-- Settles O2: the word carries the command the decoder reads, and the encoder packs a carried command's fields into
that word again. -/
theorem encodeUndoesDecode : Obligations.EncodeUndoesDecode :=
  fun _ _ h => ⟨wellFormed_of_carries (carries_of_decode h), encode_of_carries (carries_of_decode h)⟩

/-- Settles O3: a row's mask and match pin exactly the fields that a command of its mnemonic has in common. -/
theorem decodeFollowsTheOpcodeTable : Obligations.DecodeFollowsTheOpcodeTable := by
  refine ⟨fun r hr r' hr' w => row_eq_of_matchesWord hr hr', fun w r hr => ?_, fun w => no_row_matchesWord_iff⟩
  rw [matchesWord_iff hr]
  exact exists_congr fun i =>
    ⟨fun ⟨hi, hm⟩ => ⟨decode_of_carries hi, hm, encode_of_carries hi⟩,
      fun ⟨hd, hm, _⟩ => ⟨carries_of_decode hd, hm⟩⟩

end Sys2Proof
end

section
/-! What every command answers: the code of R144's first failing check and the data of R66. -/

namespace Sys2Proof.Machine

variable {s t : State} {i : Instr}

/-! The checks of `firstFailure` in the terms of the commands' meanings. -/

/-- A sample rate is legal exactly when its pattern lies between the smallest positive value's and the largest finite
value's (R80, R110). -/
theorem sampleRateLegal_iff {fs : F32} :
    sampleRateLegal fs = true ↔ 0x00000001 ≤ fs.toNat ∧ fs.toNat ≤ 0x7F7FFFFF := by
  have he := expField_lt fs
  have hf := fracField_lt fs
  have hn := toNat_eq fs
  cases hs : signBit fs <;> simp [hs] at hn <;> simp [sampleRateLegal, isNaN, isInf, isZero, hs] <;> omega

theorem allStaged_eq_false_iff : s.allStaged = false ↔
    ∃ v ∈ s.shdv, v.b0 = false ∨ v.b1 = false ∨ v.b2 = false ∨ v.a1 = false ∨ v.a2 = false := by
  simp only [State.allStaged, sectionStaged, List.all_eq_false, Bool.not_eq_true, Bool.and_eq_false_iff, or_assoc]

theorem coefOperand_eq_none_iff {p : Params} {sec k : Nat} :
    coefOperand p sec k = none ↔ sec ≥ p.nsec ∨ k ≥ 5 := by
  rw [coefOperand]
  split_ifs with h
  · rw [coefOfIndex_eq_none, or_iff_right (Nat.not_le.2 h)]
  · simp only [Nat.not_lt.1 h, true_or]

theorem statusWord_eq_none_iff {idx : Nat} : statusWord s idx = none ↔ idx > 5 := by
  simp only [statusWord]
  split_ifs <;> simp <;> omega

theorem firstFailure_prep (s : State) (b : Nat) (fs : F32) :
    firstFailure s (.prep b fs) = if prepLegal s.cfg b fs then .ok else .range := by
  simp only [firstFailure, prepLegal_iff, sampleRateLegal_iff]

theorem firstFailure_ldc (s : State) (sec k : Nat) (v : F32) :
    firstFailure s (.ldc sec k v) =
      if s.st ≠ .prepared then .state else if coefOperand s.cfg sec k = none then .range else .ok := by
  simp only [firstFailure, coefOperand_eq_none_iff]

theorem firstFailure_cmt (s : State) :
    firstFailure s .cmt =
      if s.st ≠ .prepared then .state else if s.allStaged = false then .nocoef else .ok := by
  simp only [firstFailure, allStaged_eq_false_iff]

theorem firstFailure_proc (s : State) (nch m : Nat) :
    firstFailure s (.proc nch m) =
      if s.st ≠ .prepared then .state
      else if blockLegal s.cfg s.maxblk nch m = false then .range
      else if s.av = false then .nocoef
      else .ok := by
  have hb : blockLegal s.cfg s.maxblk nch m = false ↔ nch = 0 ∨ nch > s.cfg.nch ∨ m > s.maxblk.toNat := by
    rw [← Bool.not_eq_true, blockLegal_iff]
    omega
  simp only [firstFailure, hb]

theorem bufLegal_eq_false_iff {p : Params} {c n : Nat} : bufLegal p c n = false ↔ c ≥ p.nch ∨ n ≥ p.maxcap := by
  rw [← Bool.not_eq_true, bufLegal_iff]
  omega

theorem firstFailure_wrb (s : State) (c n : Nat) (v : F32) :
    firstFailure s (.wrb c n v) = if bufLegal s.cfg c n = false then .range else .ok := by
  simp only [firstFailure, bufLegal_eq_false_iff]

theorem firstFailure_rdb (s : State) (c n : Nat) :
    firstFailure s (.rdb c n) = if bufLegal s.cfg c n = false then .range else .ok := by
  simp only [firstFailure, bufLegal_eq_false_iff]

theorem firstFailure_rds (s : State) (idx : Nat) :
    firstFailure s (.rds idx) = if statusWord s idx = none then .range else .ok := by
  simp only [firstFailure, statusWord_eq_none_iff]

/-- Decoding is over before these checks: none of them answers E_OPC (R64, R144). -/
theorem firstFailure_ne_opc (s : State) (i : Instr) : firstFailure s i ≠ .opc := by
  cases i
  case rel => nofun
  all_goals
    simp only [firstFailure]
    split_ifs <;> nofun

/-! The answer of a command that ends. -/

/-- The data of a command's answer: the word read by RDB or RDS, zero otherwise (R66). `exec_out` ties it to the
commands' meanings. -/
def responseData (s : State) : Instr → BitVec 32
  | .rdb c n => if bufLegal s.cfg c n then s.bufWord c n else 0#32
  | .rds idx => (statusWord s idx).getD 0#32
  | _ => 0#32

/-- Every command answers with the code of its first failing check and the word it read (R66, R144). -/
theorem exec_out (h : exec i s = .next t) : t.out = some ⟨firstFailure s i, responseData s i⟩ := by
  cases i with
  | prep b fs =>
    obtain ⟨hl, rfl⟩ | ⟨hl, rfl⟩ := execPrep_next h <;> simp [firstFailure_prep, responseData, hl]
  | rel => rw [execRel_next h]; rfl
  | rst =>
    obtain ⟨hst, rfl⟩ | ⟨hst, rfl⟩ := execRst_next h <;> simp [firstFailure, responseData, hst]
  | ldc sec k v =>
    obtain ⟨hst, ix, hc, rfl⟩ | ⟨hst, hc, rfl⟩ | ⟨hst, rfl⟩ := execLdc_next h <;>
      simp [firstFailure_ldc, responseData, *]
  | cmt =>
    obtain ⟨hst, ha, rfl⟩ | ⟨hst, ha, rfl⟩ | ⟨hst, rfl⟩ := execCmt_next h <;>
      simp [firstFailure_cmt, responseData, *]
  | proc nch m =>
    obtain ⟨hst, hb, ha, -, rfl⟩ | ⟨hst, hb, ha, rfl⟩ | ⟨hst, hb, rfl⟩ | ⟨hst, rfl⟩ := execProc_next h <;>
      simp [firstFailure_proc, responseData, *]
  | wrb c n v =>
    obtain ⟨hl, rfl⟩ | ⟨hl, rfl⟩ := execWrb_next h <;> simp [firstFailure_wrb, responseData, hl]
  | rdb c n =>
    obtain ⟨hl, rfl⟩ | ⟨hl, rfl⟩ := execRdb_next h <;> simp [firstFailure_rdb, responseData, hl]
  | rds idx =>
    obtain ⟨v, hv, rfl⟩ | ⟨hv, rfl⟩ := execRds_next h <;> simp [firstFailure_rds, responseData, hv]

/-- A command always ends when MAXBLK is within BUF, as every good state has it (log 13). -/
theorem exec_ends (hm : s.st = .prepared → s.maxblk.toNat ≤ s.cfg.maxcap) (i : Instr) : ∃ t, exec i s = .next t := by
  cases i with
  | proc nch m =>
    simp only [exec, execProc]
    split_ifs with hst hb ha hc
    case neg =>
      have := hm hst
      have := (blockLegal_iff.1 hb).2.2
      omega
    all_goals exact ⟨_, rfl⟩
  | rel => exact ⟨_, rfl⟩
  | prep | rst | cmt | wrb | rdb =>
    simp only [exec, execPrep, execRst, execCmt, execWrb, execRdb]
    split_ifs <;> exact ⟨_, rfl⟩
  | ldc =>
    simp only [exec, execLdc]
    split_ifs
    · split <;> exact ⟨_, rfl⟩
    · exact ⟨_, rfl⟩
  | rds =>
    simp only [exec, execRds]
    split <;> exact ⟨_, rfl⟩

/-! The answer of a step that takes a command word. -/

variable {w : CmdWord} {rest : List HostEvent}

theorem step_of_decode_ok (hp : s.port = .command w :: rest) (hd : decode w = .ok i) :
    step s = exec i (State.accept { s with port := rest }) :=
  (step_command hp).trans (runWord_ok hd)

theorem step_of_decode_error {e : DecodeError} (hp : s.port = .command w :: rest) (hd : decode w = .error e) :
    step s = .next (State.fail .opc (State.accept { s with port := rest })) :=
  (step_command hp).trans (runWord_error hd)

/-- Taking the word off the port changes nothing the checks or the reads look at. -/
theorem step_out (hp : s.port = .command w :: rest) (hd : decode w = .ok i) (h : step s = .next t) :
    t.out = some ⟨firstFailure s i, responseData s i⟩ := by
  have ht := exec_out ((step_of_decode_ok hp hd).symm.trans h)
  cases i <;> exact ht

theorem State.Good.step_ends (hg : s.Good) (hp : s.port = .command w :: rest) : ∃ t, step s = .next t := by
  cases hd : decode w with
  | ok i =>
    rw [step_of_decode_ok hp hd]
    exact exec_ends (s := State.accept { s with port := rest }) (fun hst => (hg.prepared hst).2.1) i
  | error e => exact ⟨_, step_of_decode_error hp hd⟩

/-! R66's record. -/

theorem Response.bits_code (r : Response) : r.bits.extractLsb' 32 8 = r.code.bits :=
  BitVec.extractLsb'_append_eq_left

theorem Response.bits_data (r : Response) : r.bits.extractLsb' 0 32 = r.data :=
  BitVec.extractLsb'_append_eq_right

theorem responseData_rdb {c n : Nat} (h : firstFailure s (.rdb c n) = .ok) :
    responseData s (.rdb c n) = s.bufWord c n := by
  have hl : bufLegal s.cfg c n = true := by simpa [firstFailure_rdb] using h
  exact if_pos hl

theorem responseData_rds {idx : Nat} (h : firstFailure s (.rds idx) = .ok) :
    some (responseData s (.rds idx)) = statusWord s idx := by
  have hv : statusWord s idx ≠ none := by simpa [firstFailure_rds] using h
  exact Option.getD_of_ne_none hv _

theorem responseData_of_fails (h : firstFailure s i ≠ .ok) : responseData s i = 0#32 := by
  cases i with
  | rdb c n =>
    have hl : bufLegal s.cfg c n = false := by simpa [firstFailure_rdb] using h
    simp [responseData, hl]
  | rds idx =>
    have hv : statusWord s idx = none := by simpa [firstFailure_rds] using h
    simp [responseData, hv]
  | _ => rfl

theorem responseData_of_not_read (hb : ∀ c n, i ≠ .rdb c n) (hs : ∀ idx, i ≠ .rds idx) : responseData s i = 0#32 := by
  cases i with
  | rdb c n => exact absurd rfl (hb c n)
  | rds idx => exact absurd rfl (hs idx)
  | _ => rfl

/-- Settles O9: the illegal words are exactly those that do not decode, and a decoded command answers its first failing
check, which is never the decoder's. -/
theorem illegalWordAnswersEOpc : Obligations.IllegalWordAnswersEOpc := by
  intro s w rest hp
  constructor
  · intro hw
    obtain ⟨e, he⟩ := illegalWord_iff.1 hw
    rw [step_of_decode_error hp he]
    rfl
  · intro hw hg
    obtain ⟨t, ht⟩ := hg.step_ends hp
    obtain ⟨i, hi⟩ := exists_decode_of_not_illegalWord hw
    have hc : t.lastCode = some (firstFailure s i) := by rw [State.lastCode, step_out hp hi ht, Option.map_some]
    refine ⟨i, t, hi, ht, hc, ?_⟩
    rw [hc, Ne, Option.some_inj]
    exact firstFailure_ne_opc s i

/-- Settles O18: an illegal word answers zero data, a command the data of `responseData`. -/
theorem responseDataIsTheWordRead : Obligations.ResponseDataIsTheWordRead := by
  intro s t w rest r hp ht hr
  refine ⟨?rdb, ?rds, ?other, r.bits_code, r.bits_data⟩
  case rdb =>
    intro c n hd hok
    cases hr.symm.trans (step_out hp hd ht)
    exact responseData_rdb hok
  case rds =>
    intro idx hd hok
    cases hr.symm.trans (step_out hp hd ht)
    exact responseData_rds hok
  case other =>
    intro hz
    cases hd : decode w with
    | error e =>
      cases ht.symm.trans (step_of_decode_error hp hd)
      cases hr
      rfl
    | ok i =>
      cases hr.symm.trans (step_out hp hd ht)
      obtain hf | ⟨hb, hs⟩ := hz
      · exact responseData_of_fails hf
      · exact responseData_of_not_read (fun c n hi => hb c n (hi ▸ hd)) (fun idx hi => hs idx (hi ▸ hd))

end Sys2Proof.Machine
end

section
/-! The lifecycle commands PREP, REL and RST (R80 to R85), and the lifecycle table (R86). -/

namespace Sys2Proof.Machine

variable {s t : State} {i : Instr}

/-! Each meaning at the outcome of its check; `execRel` has none. -/

theorem prepLegal_iff_toNat {p : Params} {b : Nat} {fs : F32} :
    prepLegal p b fs = true ↔ 1 ≤ b ∧ b ≤ p.maxcap ∧ 0x00000001 ≤ fs.toNat ∧ fs.toNat ≤ 0x7F7FFFFF := by
  rw [prepLegal_iff, sampleRateLegal_iff]

theorem execPrep_of_legal {b : Nat} {fs : F32} (h : prepLegal s.cfg b fs = true) :
    exec (.prep b fs) s = .next ((s.prepare b fs).respond .ok 0#32) := if_pos h

theorem execPrep_of_illegal {b : Nat} {fs : F32} (h : ¬ prepLegal s.cfg b fs = true) :
    exec (.prep b fs) s = .next (s.fail .range) := if_neg h

theorem execRst_of_prepared (h : s.st = .prepared) : exec .rst s = .next (s.clearDelays.respond .ok 0#32) := if_pos h

theorem execRst_of_not_prepared (h : s.st ≠ .prepared) : exec .rst s = .next (s.fail .state) := if_neg h

/-! The words of a command (R61 to R65). -/

/-- A command whose operands fit has exactly one word. -/
theorem decode_eq_ok_iff {w : CmdWord} (hi : i.wellFormed = true) : decode w = .ok i ↔ w = encode i := by
  constructor
  · intro h
    exact (encode_of_carries (carries_of_decode h)).symm
  · rintro rfl
    exact decode_of_carries (carries_encode hi)

theorem decode_packFields_prep (a : BitVec 8) (b : BitVec 16) (imm : BitVec 32) :
    decode (packFields 0x01#8 a b imm) =
      if a = 0#8 then .ok (.prep b.toNat imm) else .error (.fieldNotZero 0x01#8) := by
  simp [decode_packFields]

/-! The lifecycle table's two questions: where a command leaves ST, and when it answers E_STATE. -/

/-- The commands R86's table admits in Prepared only. `firstFailure_eq_state_iff` ties it to what they answer. -/
def needsPrepared : Instr → Prop
  | .rst | .ldc _ _ _ | .cmt | .proc _ _ => True
  | .prep _ _ | .rel | .wrb _ _ _ | .rdb _ _ | .rds _ => False

/-- E_STATE is the answer of a command that needs Prepared and does not find it, and of no other (R142). -/
theorem firstFailure_eq_state_iff : firstFailure s i = .state ↔ needsPrepared i ∧ s.st ≠ .prepared := by
  cases i
  case rel | rst => simp [firstFailure, needsPrepared]
  case ldc | cmt | proc =>
    by_cases hst : s.st = .prepared
    · simp only [firstFailure, hst, ne_eq, not_true, if_false, and_false, iff_false]
      split_ifs <;> nofun
    · simp [firstFailure, needsPrepared, hst]
  case prep | wrb | rdb | rds =>
    simp only [firstFailure, needsPrepared, false_and, iff_false]
    split_ifs <;> nofun

/-- Only PREP and REL move ST; a PROC that runs starts in Prepared and ends there (R86). -/
theorem exec_st (h : exec i s = .next t) (hprep : ∀ b fs, i ≠ .prep b fs) (hrel : i ≠ .rel) : t.st = s.st := by
  cases i with
  | prep b fs => exact absurd rfl (hprep b fs)
  | rel => exact absurd rfl hrel
  | rst => obtain ⟨-, rfl⟩ | ⟨-, rfl⟩ := execRst_next h <;> rfl
  | ldc => obtain ⟨-, ix, -, rfl⟩ | ⟨-, -, rfl⟩ | ⟨-, rfl⟩ := execLdc_next h <;> rfl
  | cmt => obtain ⟨-, -, rfl⟩ | ⟨-, -, rfl⟩ | ⟨-, rfl⟩ := execCmt_next h <;> rfl
  | proc =>
    obtain ⟨hst, -, -, -, rfl⟩ | ⟨-, -, -, rfl⟩ | ⟨-, -, rfl⟩ | ⟨-, rfl⟩ := execProc_next h
    · exact hst.symm
    all_goals rfl
  | wrb => obtain ⟨-, rfl⟩ | ⟨-, rfl⟩ := execWrb_next h <;> rfl
  | rdb => obtain ⟨-, rfl⟩ | ⟨-, rfl⟩ := execRdb_next h <;> rfl
  | rds => obtain ⟨v, -, rfl⟩ | ⟨-, rfl⟩ := execRds_next h <;> rfl

/-- From a good state every command but PREP and REL ends, leaves ST, and answers its first failing check. -/
theorem State.Good.exec_keeps_st (hg : s.Good) (hprep : ∀ b fs, i ≠ .prep b fs) (hrel : i ≠ .rel) :
    ∃ t, exec i s = .next t ∧ t.st = s.st ∧ t.lastCode = some (firstFailure s i) := by
  obtain ⟨t, ht⟩ := exec_ends (fun hst => (hg.prepared hst).2.1) i
  exact ⟨t, ht, exec_st ht hprep hrel, by rw [State.lastCode, exec_out ht, Option.map_some]⟩

/-- Settles O19: only PREP and REL move ST, and E_STATE answers exactly a command that needs Prepared and does not
find it. -/
theorem lifecycleFollowsTheTable : Obligations.LifecycleFollowsTheTable := by
  intro s hg
  refine ⟨?prep, ?rel, ?guarded, ?free⟩
  case prep =>
    intro b fs h1 h2 h3 h4
    exact ⟨_, execPrep_of_legal (prepLegal_iff_toNat.2 ⟨h1, h2, h3, h4⟩), rfl, rfl⟩
  case rel => exact ⟨_, rfl, rfl, rfl⟩
  case guarded =>
    intro i hi
    have hn : needsPrepared i := by obtain rfl | rfl | ⟨_, _, _, rfl⟩ | ⟨_, _, rfl⟩ := hi <;> trivial
    obtain ⟨t, ht, hst, hc⟩ := hg.exec_keeps_st (i := i) (by rintro b fs rfl; exact hn) (by rintro rfl; exact hn)
    refine ⟨t, ht, hst, ?_⟩
    rw [hc, Option.some_inj, firstFailure_eq_state_iff, and_iff_right hn]
  case free =>
    intro i hi
    have hn : ¬ needsPrepared i := by obtain ⟨_, _, _, rfl⟩ | ⟨_, _, rfl⟩ | ⟨_, rfl⟩ := hi <;> exact id
    obtain ⟨t, ht, hst, hc⟩ :=
      hg.exec_keeps_st (i := i) (by rintro b fs rfl; simp at hi) (by rintro rfl; simp at hi)
    refine ⟨t, ht, hst, ?_⟩
    rw [hc, Ne, Option.some_inj, firstFailure_eq_state_iff]
    exact fun h => hn h.1

/-- Settles O24: PREP's check is the stated range, `State.prepare` writes what R80 lists, and a block size up to MAXCAP
fits MAXBLK's 16 bits. -/
theorem prepConfiguresTheBlock : Obligations.PrepConfiguresTheBlock := by
  refine ⟨?legal, ?illegal, decode_packFields_prep⟩
  case legal =>
    intro s b fs h1 h2 h3 h4
    have hb : b < 2 ^ 16 := Nat.lt_of_le_of_lt (h2.trans s.cfg.maxcap_legal.2) (by decide)
    exact ⟨_, execPrep_of_legal (prepLegal_iff_toNat.2 ⟨h1, h2, h3, h4⟩), rfl, Nat.mod_eq_of_lt hb,
      s.delay_prepare b fs, s.bufByte_prepare b fs⟩
  case illegal =>
    intro s b fs h
    exact execPrep_of_illegal (mt prepLegal_iff_toNat.1 h)

/-- Settles O25: `State.release` writes what R82 lists and leaves BUF; a command without operands has one word. -/
theorem relTearsTheBlockDown : Obligations.RelTearsTheBlockDown :=
  ⟨fun s => ⟨_, rfl, rfl, s.bufByte_release⟩, fun _ => decode_eq_ok_iff (i := .rel) rfl⟩

/-- Settles O26: outside Prepared RST only fails; in it `State.clearDelays` writes Z alone. -/
theorem rstClearsTheDelayElements : Obligations.RstClearsTheDelayElements :=
  ⟨fun s hst => ⟨_, execRst_of_prepared hst, rfl, s.delay_clearDelays, s.bufByte_clearDelays⟩,
    fun _ => execRst_of_not_prepared,
    fun _ => decode_eq_ok_iff (i := .rst) rfl⟩

end Sys2Proof.Machine
end

section
/-! The coefficient commands LDC and CMT (R90 to R93). -/

namespace Sys2Proof.Machine

variable {s : State}

/-! LDC's and CMT's checks, and each meaning at their outcome. -/

theorem coefOperand_eq_some_iff {p : Params} {sec k : Nat} {ix : CoefIx} :
    coefOperand p sec k = some ix ↔ sec < p.nsec ∧ k = ix.index := by
  rw [coefOperand, Option.ite_none_right_eq_some, coefOfIndex_eq_some]

theorem allStaged_iff : s.allStaged = true ↔
    ∀ v ∈ s.shdv, v.b0 = true ∧ v.b1 = true ∧ v.b2 = true ∧ v.a1 = true ∧ v.a2 = true := by
  simp only [State.allStaged, sectionStaged, List.all_eq_true, Bool.and_eq_true, and_assoc]

theorem execLdc_of_legal {sec k : Nat} {ix : CoefIx} {v : F32} (hst : s.st = .prepared)
    (hc : coefOperand s.cfg sec k = some ix) :
    exec (.ldc sec k v) s = .next ((s.stage sec ix v).respond .ok 0#32) := by
  simp only [exec, execLdc, if_pos hst, hc]

theorem execLdc_of_illegal {sec k : Nat} {v : F32} (hst : s.st = .prepared) (hc : coefOperand s.cfg sec k = none) :
    exec (.ldc sec k v) s = .next (s.fail .range) := by
  simp only [exec, execLdc, if_pos hst, hc]

theorem execLdc_of_not_prepared {sec k : Nat} {v : F32} (hst : s.st ≠ .prepared) :
    exec (.ldc sec k v) s = .next (s.fail .state) := if_neg hst

theorem execCmt_of_allStaged (hst : s.st = .prepared) (ha : s.allStaged = true) :
    exec .cmt s = .next (s.commit.respond .ok 0#32) := (if_pos hst).trans (if_pos ha)

theorem execCmt_of_not_allStaged (hst : s.st = .prepared) (ha : s.allStaged = false) :
    exec .cmt s = .next (s.fail .nocoef) := (if_pos hst).trans (if_neg (ne_true_of_eq_false ha))

theorem execCmt_of_not_prepared (hst : s.st ≠ .prepared) : exec .cmt s = .next (s.fail .state) := if_neg hst

theorem decode_packFields_ldc (a : BitVec 8) (b : BitVec 16) (imm : BitVec 32) :
    decode (packFields 0x10#8 a b imm) = .ok (.ldc a.toNat b.toNat imm) := by
  simp [decode_packFields]

/-- Settles O27: in a good state the bank has every section below NSEC, so `State.stage` reaches the named word and its
valid bit and no other; outside the range or outside Prepared LDC only fails. -/
theorem ldcStagesOneCoefficient : Obligations.LdcStagesOneCoefficient := by
  refine ⟨?staged, ?range, fun _ _ _ _ => execLdc_of_not_prepared, decode_packFields_ldc⟩
  case staged =>
    intro s sec ix v hg hst hsec
    have hw := s.stagedWord_stage ix v (hg.shd_length ▸ hsec)
    have hv := s.stagedValid_stage ix v (hg.shdv_length ▸ hsec)
    refine ⟨_, execLdc_of_legal hst (coefOperand_eq_some_iff.2 ⟨hsec, rfl⟩), rfl,
      (hw sec ix).trans (if_pos ⟨rfl, rfl⟩), (hv sec ix).trans (if_pos ⟨rfl, rfl⟩), ?_, s.bufByte_stage sec ix v⟩
    intro sec' ix' hne
    have hother : ¬ (sec' = sec ∧ ix' = ix) := not_and_or.2 hne
    exact ⟨(hw sec' ix').trans (if_neg hother), (hv sec' ix').trans (if_neg hother)⟩
  case range =>
    intro s sec k v hst hout
    exact execLdc_of_illegal hst (coefOperand_eq_none_iff.2 hout)

/-- Settles O28: CMT's check is that every valid bit of the bank is set, and `State.commit` writes ACT and AV alone. -/
theorem cmtCommitsTheWholeBank : Obligations.CmtCommitsTheWholeBank :=
  ⟨fun _ hst hall => execCmt_of_allStaged hst (allStaged_iff.2 hall),
    fun _ hst hmissing => execCmt_of_not_allStaged hst (allStaged_eq_false_iff.2 hmissing),
    fun _ => execCmt_of_not_prepared,
    fun _ => decode_eq_ok_iff (i := .cmt) rfl⟩

end Sys2Proof.Machine
end

section
/-! Rounding to nearest, ties to even (R114). -/

namespace Sys2Proof.Machine

variable {num den e k : Nat}

/-- `k` units of `2 ^ e` are num / den rounded to nearest, ties to even, with at most 24 significant bits, and with
exactly 24 where an exponent is left to lower: `roundBits_eq` ties it to the model. -/
structure Rounded (num den e k : Nat) : Prop where
  near : 2 * |(k * (den * 2 ^ e) : ℤ) - num| ≤ den * 2 ^ e
  tie : 2 * |(k * (den * 2 ^ e) : ℤ) - num| = den * 2 ^ e → k % 2 = 0
  sig_le : k ≤ 2 ^ 24
  num_lt : num < 2 ^ 24 * (den * 2 ^ e)
  normal : 0 < e → 2 ^ 23 ≤ k ∧ 2 ^ 23 * (den * 2 ^ e) ≤ num

/-- The exponent `roundBits` takes leaves at most 24 significant bits. -/
theorem num_lt_of_log2 (hd : 0 < den) (he : (num / den).log2 - 23 = e) : num < 2 ^ 24 * (den * 2 ^ e) := by
  have hq : num / den < 2 ^ (24 + e) :=
    Nat.lt_log2_self.trans_le (Nat.pow_le_pow_right (by decide) (by omega))
  rw [Nat.div_lt_iff_lt_mul hd, pow_add] at hq
  calc num < 2 ^ 24 * 2 ^ e * den := hq
    _ = 2 ^ 24 * (den * 2 ^ e) := by ring

/-- Where that exponent is positive, it leaves exactly 24 significant bits. -/
theorem le_num_of_log2 (hd : 0 < den) (he : (num / den).log2 - 23 = e) (h0 : 0 < e) :
    2 ^ 23 * (den * 2 ^ e) ≤ num := by
  have hq : num / den ≠ 0 := by
    intro hz
    rw [hz, Nat.log2_zero] at he
    omega
  have hle := Nat.log2_self_le hq
  rw [show (num / den).log2 = 23 + e by omega, Nat.le_div_iff_mul_le hd, pow_add] at hle
  calc 2 ^ 23 * (den * 2 ^ e) = 2 ^ 23 * 2 ^ e * den := by ring
    _ ≤ num := hle

/-- Rounding up past half a unit, or at half a unit from an odd count, is rounding to nearest, ties to even. -/
theorem rounded_div_add_up {unit n r up : Nat} (hnum : unit * n + r = num) (hr : r < unit)
    (hup : up = if unit < 2 * r ∨ (unit = 2 * r ∧ n % 2 = 1) then 1 else 0) :
    2 * |((n + up : ℕ) * unit : ℤ) - num| ≤ unit ∧
      (2 * |((n + up : ℕ) * unit : ℤ) - num| = unit → (n + up) % 2 = 0) := by
  have hdist : ((n + up : ℕ) * unit : ℤ) - num = up * unit - r := by
    rw [← hnum]
    push_cast
    ring
  rw [hdist]
  split_ifs at hup with h <;> subst hup
  · rw [abs_of_nonneg (by push_cast; omega)]
    omega
  · rw [abs_of_nonpos (by push_cast; omega)]
    omega

/-- `roundBits` lays a correctly rounded 24-bit count over its exponent, up to infinity (R114). -/
theorem roundBits_eq (num : Nat) (hd : 0 < den) :
    ∃ e k, Rounded num den e k ∧ roundBits num den = min (e * 2 ^ 23 + k) infBits := by
  obtain ⟨e, he⟩ : ∃ e, (num / den).log2 - 23 = e := ⟨_, rfl⟩
  have hu : 0 < den * 2 ^ e := by positivity
  have hlt := num_lt_of_log2 hd he
  have hle := le_num_of_log2 hd he
  obtain ⟨up, hup⟩ : ∃ up, up = if den * 2 ^ e < 2 * (num % (den * 2 ^ e)) ∨
      (den * 2 ^ e = 2 * (num % (den * 2 ^ e)) ∧ num / (den * 2 ^ e) % 2 = 1) then 1 else 0 := ⟨_, rfl⟩
  have hup1 : up ≤ 1 := by split_ifs at hup <;> omega
  obtain ⟨hnear, htie⟩ := rounded_div_add_up (Nat.div_add_mod num (den * 2 ^ e)) (Nat.mod_lt num hu) hup
  push_cast at hnear htie
  refine ⟨e, num / (den * 2 ^ e) + up, ⟨?_, ?_, ?_, hlt, fun h0 => ⟨?_, hle h0⟩⟩, ?_⟩
  · exact_mod_cast hnear
  · exact_mod_cast htie
  · have := (Nat.div_lt_iff_lt_mul hu).2 hlt
    omega
  · have := (Nat.le_div_iff_mul_le hu).2 (hle h0)
    omega
  · simp only [roundBits, he, ← hup, Nat.add_assoc]

/-- No other whole number of those units is nearer, and in a tie the chosen one is even. -/
theorem Rounded.nearest_multiple (h : Rounded num den e k) (hd : 0 < den) (j : ℤ) :
    |(k * (den * 2 ^ e) : ℤ) - num| ≤ |j * (den * 2 ^ e) - num| ∧
      (|(k * (den * 2 ^ e) : ℤ) - num| = |j * (den * 2 ^ e) - num| → j ≠ k → k % 2 = 0) := by
  have hu : (0 : ℤ) < den * 2 ^ e := by positivity
  by_cases hj : j = k
  · subst hj
    exact ⟨le_rfl, fun _ hne => absurd rfl hne⟩
  have hone : (1 : ℤ) ≤ |j - k| := Int.one_le_abs (sub_ne_zero.2 hj)
  have hfar : (den * 2 ^ e : ℤ) ≤ |j * (den * 2 ^ e) - num| + |(k * (den * 2 ^ e) : ℤ) - num| :=
    calc (den * 2 ^ e : ℤ) ≤ |j - k| * (den * 2 ^ e) := le_mul_of_one_le_left hu.le hone
      _ = |(j * (den * 2 ^ e) - num) - (k * (den * 2 ^ e) - num)| := by
        rw [← abs_of_pos hu, ← abs_mul, abs_of_pos hu]
        ring_nf
      _ ≤ _ := abs_sub _ _
  have hnear := h.near
  exact ⟨by linarith, fun heq _ => h.tie (by linarith)⟩

/-- The number of units of 2^-149 that a pattern with exponent and 24-bit count stands for (R110). -/
theorem magnitude_withSign (neg : Bool) (hk : k ≤ 2 ^ 24) (hn : 0 < e → 2 ^ 23 ≤ k) (hb : e * 2 ^ 23 + k < infBits) :
    magnitude (withSign neg (e * 2 ^ 23 + k)) = k * 2 ^ e := by
  have hlt : e * 2 ^ 23 + k < 2 ^ 31 := hb.trans (by decide)
  rw [magnitude, expField_withSign neg hlt, fracField_withSign neg hlt]
  obtain hs | hs | rfl : k < 2 ^ 23 ∨ (2 ^ 23 ≤ k ∧ k < 2 ^ 24) ∨ k = 2 ^ 24 := by omega
  · obtain rfl : e = 0 := by omega
    rw [if_pos (by omega), pow_zero]
    omega
  · rw [show (e * 2 ^ 23 + k) / 2 ^ 23 = e + 1 by omega, if_neg (by omega),
      show (e * 2 ^ 23 + k) % 2 ^ 23 = k - 2 ^ 23 by omega, Nat.add_sub_cancel' hs.1, Nat.add_sub_cancel]
  · rw [show (e * 2 ^ 23 + 2 ^ 24) / 2 ^ 23 = e + 1 + 1 by omega, if_neg (by omega),
      show (e * 2 ^ 23 + 2 ^ 24) % 2 ^ 23 = 0 by omega, Nat.add_sub_cancel]
    ring

/-- A finite number is a whole number of units of `2 ^ e`, or it has fewer than 24 significant ones. -/
theorem magnitude_multiple_or_lt (w : F32) (e : Nat) :
    (∃ j, magnitude w = j * 2 ^ e) ∨ (0 < e ∧ magnitude w < 2 ^ 23 * 2 ^ e) := by
  have hf := fracField_lt w
  rw [magnitude]
  split_ifs with h0
  · obtain rfl | he := Nat.eq_zero_or_pos e
    · exact .inl ⟨_, (Nat.mul_one _).symm⟩
    · exact .inr ⟨he, hf.trans_le (Nat.le_mul_of_pos_right _ (by positivity))⟩
  · obtain ⟨x, hx⟩ : ∃ x, expField w - 1 = x := ⟨_, rfl⟩
    rw [hx]
    obtain hle | hlt := le_or_gt e x
    · refine .inl ⟨(2 ^ 23 + fracField w) * 2 ^ (x - e), ?_⟩
      rw [Nat.mul_assoc, ← pow_add, Nat.sub_add_cancel hle]
    · refine .inr ⟨by omega, ?_⟩
      calc (2 ^ 23 + fracField w) * 2 ^ x < 2 ^ 24 * 2 ^ x := Nat.mul_lt_mul_of_pos_right (by omega) (by positivity)
        _ = 2 ^ 23 * 2 ^ (x + 1) := by ring
        _ ≤ 2 ^ 23 * 2 ^ e := Nat.mul_le_mul_left _ (Nat.pow_le_pow_right (by decide) hlt)

/-- No finite binary32 magnitude is nearer than the rounded one, and in a tie with another the count is even. -/
theorem Rounded.nearest (h : Rounded num den e k) (hd : 0 < den) (w : F32) :
    |((k * 2 ^ e : ℕ) : ℤ) * den - num| ≤ |(magnitude w : ℤ) * den - num| ∧
      (|((k * 2 ^ e : ℕ) : ℤ) * den - num| = |(magnitude w : ℤ) * den - num| → magnitude w ≠ k * 2 ^ e →
        k % 2 = 0) := by
  have hcount : ∀ j : ℕ, ((j * 2 ^ e : ℕ) : ℤ) * den = j * (den * 2 ^ e) := by
    intro j
    push_cast
    ring
  rw [hcount]
  obtain ⟨j, hj⟩ | ⟨he, hlt⟩ := magnitude_multiple_or_lt w e
  · rw [hj, hcount]
    obtain ⟨hle, htie⟩ := h.nearest_multiple hd j
    exact ⟨hle, fun heq hne => htie heq fun hjk => hne (by rw [Int.natCast_inj.1 hjk])⟩
  · have hbound := (h.normal he).2
    have hfar : |((2 ^ 23 : ℤ)) * (den * 2 ^ e) - num| < |(magnitude w : ℤ) * den - num| := by
      have h1 : ((2 : ℤ) ^ 23) * (den * 2 ^ e) ≤ num := by exact_mod_cast hbound
      have h2 : (magnitude w : ℤ) * den < 2 ^ 23 * (den * 2 ^ e) := by
        have := Nat.mul_lt_mul_of_pos_right hlt hd
        calc (magnitude w : ℤ) * den < 2 ^ 23 * 2 ^ e * den := by exact_mod_cast this
          _ = 2 ^ 23 * (den * 2 ^ e) := by ring
      rw [abs_of_nonpos (by linarith), abs_of_nonpos (by linarith)]
      linarith
    have hlt' := (h.nearest_multiple hd (2 ^ 23)).1.trans_lt hfar
    exact ⟨hlt'.le, fun heq => absurd heq hlt'.ne⟩

/-- The rounded count is within half a unit of num / den. -/
theorem Rounded.bounds (h : Rounded num den e k) :
    2 * (k * (den * 2 ^ e)) ≤ 2 * num + den * 2 ^ e ∧ 2 * num ≤ 2 * (k * (den * 2 ^ e)) + den * 2 ^ e := by
  have hnear := h.near
  have h1 := le_abs_self ((k * (den * 2 ^ e) : ℤ) - num)
  have h2 := neg_abs_le ((k * (den * 2 ^ e) : ℤ) - num)
  constructor <;> zify <;> linarith

/-- Half a unit above or below the rounded count is a tie. -/
theorem Rounded.even_of_half (h : Rounded num den e k)
    (hhalf : 2 * (k * (den * 2 ^ e)) = 2 * num + den * 2 ^ e ∨ 2 * num = 2 * (k * (den * 2 ^ e)) + den * 2 ^ e) :
    k % 2 = 0 := by
  have hu : (0 : ℤ) ≤ den * 2 ^ e := by positivity
  refine h.tie ?_
  zify at hhalf
  obtain hup | hdown := hhalf
  · rw [abs_of_nonneg (by linarith)]
    linarith
  · rw [abs_of_nonpos (by linarith)]
    linarith

/-- The rounded pattern reaches the infinity's exactly from (2 - 2^-24) × 2^127 on, in units of 2^-149. -/
theorem Rounded.overflow_iff (h : Rounded num den e k) (hd : 0 < den) :
    infBits ≤ e * 2 ^ 23 + k ↔ den * ((2 ^ 25 - 1) * 2 ^ 252) ≤ num := by
  have hk := h.sig_le
  have hlt := h.num_lt
  obtain ⟨D, hD⟩ : ∃ D, den * 2 ^ 252 = D := ⟨_, rfl⟩
  have hpos : 0 < D := hD ▸ (by positivity)
  have hscale : den * ((2 ^ 25 - 1) * 2 ^ 252) = (2 ^ 25 - 1) * D := by
    rw [← hD]
    ring
  rw [hscale, infBits]
  obtain hsmall | rfl | hlarge : e ≤ 252 ∨ e = 253 ∨ 254 ≤ e := by omega
  · have hu : den * 2 ^ e ≤ D := hD ▸ Nat.mul_le_mul_left _ (Nat.pow_le_pow_right (by decide) hsmall)
    omega
  · have hu : den * 2 ^ 253 = 2 * D := by
      rw [← hD]
      ring
    obtain ⟨habove, hbelow⟩ := h.bounds
    have heven := h.even_of_half
    rw [hu] at habove hbelow heven hlt
    constructor
    · intro hinf
      obtain rfl : k = 2 ^ 24 := by omega
      omega
    · intro hle
      by_contra hfin
      obtain hk' | rfl : k + 1 ≤ 2 ^ 24 - 1 ∨ k = 2 ^ 24 - 1 := by omega
      · have := Nat.mul_le_mul_right (2 * D) hk'
        rw [Nat.succ_mul] at this
        omega
      · have := heven (.inr (by omega))
        omega
  · obtain ⟨hsig, hle⟩ := h.normal (by omega)
    have hu : 4 * D ≤ den * 2 ^ e := by
      calc 4 * D = den * 2 ^ 254 := by rw [← hD]; ring
        _ ≤ den * 2 ^ e := Nat.mul_le_mul_left _ (Nat.pow_le_pow_right (by decide) hlarge)
    omega

/-- The rounded pattern is the zero's exactly up to half a unit. -/
theorem Rounded.underflow_iff (h : Rounded num den e k) (hd : 0 < den) :
    e * 2 ^ 23 + k = 0 ↔ 2 * num ≤ den := by
  obtain rfl | he := Nat.eq_zero_or_pos e
  · obtain ⟨habove, hbelow⟩ := h.bounds
    have heven := h.even_of_half
    rw [pow_zero, Nat.mul_one] at habove hbelow heven
    constructor
    · intro hz
      obtain rfl : k = 0 := by omega
      omega
    · intro hle
      by_contra hk
      obtain rfl | hk' : k = 1 ∨ 2 ≤ k := by omega
      · have := heven (.inl (by omega))
        omega
      · have := Nat.mul_le_mul_right den hk'
        omega
  · obtain ⟨hsig, hle⟩ := h.normal he
    have hu : den ≤ den * 2 ^ e := Nat.le_mul_of_pos_right _ (by positivity)
    omega

/-- Settles O44: the pattern is a sign over a correctly rounded count of `2 ^ e`, so no multiple of `2 ^ e` is nearer,
and a finite number that is no such multiple is farther than the multiple above it. -/
theorem roundingIsToNearestTiesToEven : Obligations.RoundingIsToNearestTiesToEven := by
  intro neg num den _ hd
  have hlt := roundBits_lt num den
  obtain ⟨e, k, h, hbits⟩ := roundBits_eq num hd
  refine ⟨signBit_withSign neg hlt, isNaN_withSign neg (roundBits_le num den), ?inf, ?zero, ?near⟩
  case inf =>
    rw [isInf_iff, expField_withSign neg hlt, fracField_withSign neg hlt, ← h.overflow_iff hd, hbits, infBits]
    omega
  case zero =>
    rw [isZero_iff, expField_withSign neg hlt, fracField_withSign neg hlt, ← h.underflow_iff hd, hbits, infBits]
    omega
  case near =>
    intro hfin w _
    rw [isFinite_iff, expField_withSign neg hlt, hbits, infBits] at hfin
    have hb : e * 2 ^ 23 + k < infBits := by
      rw [infBits]
      omega
    rw [hbits, min_eq_left hb.le] at hlt ⊢
    rw [magnitude_withSign neg h.sig_le (fun he => (h.normal he).1) hb, fracField_withSign neg hlt]
    obtain ⟨hle, htie⟩ := h.nearest hd w
    refine ⟨hle, fun heq hne => ?_⟩
    have := htie heq hne
    omega

end Sys2Proof.Machine
end

section
/-! The operations on samples by their cases (R111 to R113, R115). -/

namespace Sys2Proof.Machine

variable {nan a b : F32}

/-! What the classes of R110 exclude of each other. -/

theorem isNaN_of_isInf (h : isInf a = true) : isNaN a = false := by
  rw [isInf_iff] at h
  simp [isNaN, h]

theorem isNaN_of_isFinite (h : isFinite a = true) : isNaN a = false := by
  rw [isFinite_iff] at h
  simp [isNaN, h]

theorem isInf_of_isFinite (h : isFinite a = true) : isInf a = false := by
  rw [isFinite_iff] at h
  simp [isInf, h]

theorem isFinite_of_isZero (h : isZero a = true) : isFinite a = true := by
  rw [isZero_iff] at h
  simp [isFinite, h]

/-- An infinity is its sign: two of the same sign are one word. -/
theorem eq_of_isInf_of_signBit_eq (ha : isInf a = true) (hb : isInf b = true) (hs : signBit a = signBit b) :
    a = b := by
  rw [isInf_iff] at ha hb
  rw [← withSign_self a, ← withSign_self b, ha.1, ha.2, hb.1, hb.2, hs]

/-- A zero is its sign. -/
theorem eq_withSign_of_isZero (h : isZero a = true) : a = withSign (signBit a) 0 := by
  rw [isZero_iff] at h
  conv_lhs => rw [← withSign_self a, h.1, h.2, Nat.zero_mul, Nat.add_zero]

theorem scaledValue_of_isZero (h : isZero a = true) : scaledValue a = 0 := by
  simp [scaledValue, isZero_iff_magnitude.1 h]

theorem natAbs_scaledValue (a : F32) : (scaledValue a).natAbs = magnitude a := by
  rw [scaledValue]
  split_ifs <;> simp

theorem magnitude_ne_zero (h : isZero a = false) : magnitude a ≠ 0 := by
  rw [Ne, ← isZero_iff_magnitude, h]
  exact Bool.false_ne_true

theorem scaledValue_ne_zero (h : isZero a = false) : scaledValue a ≠ 0 := by
  rw [← Int.natAbs_ne_zero, natAbs_scaledValue]
  exact magnitude_ne_zero h

theorem scaledValue_neg_iff (h : isZero a = false) : scaledValue a < 0 ↔ signBit a = true := by
  have hm := magnitude_ne_zero h
  rw [scaledValue]
  split_ifs with hs
  · exact iff_of_true (by omega) hs
  · exact iff_of_false (by omega) hs

theorem scaledValue_fneg (a : F32) : scaledValue (fneg a) = -scaledValue a := by
  rw [scaledValue, scaledValue, signBit_fneg, magnitude_fneg]
  cases signBit a <;> simp

/-- Rounding the exact value of a nonzero finite number gives that number (R114). -/
theorem withSign_roundBits_scaledValue (hf : isFinite a = true) (hz : isZero a = false) :
    withSign (decide (scaledValue a < 0)) (roundBits (scaledValue a).natAbs 1) = a := by
  have hs : decide (scaledValue a < 0) = signBit a := by simp [scaledValue_neg_iff hz]
  have hr := roundBits_exact hf Nat.one_pos
  rw [Nat.mul_one] at hr
  rw [hs, natAbs_scaledValue, hr, withSign_self]

/-! fmul, one equation per case of R111. -/

theorem fmulInvalid_iff : fmulInvalid a b = true ↔
    isNaN a = true ∨ isNaN b = true ∨ (isZero a = true ∧ isInf b = true) ∨ (isInf a = true ∧ isZero b = true) := by
  simp only [fmulInvalid, Bool.or_eq_true, Bool.and_eq_true, or_assoc]

theorem fmul_eq_ite (nan a b : F32) : fmul nan a b =
    if fmulInvalid a b then nan
    else if isInf a || isInf b then withSign (signBit a ^^ signBit b) infBits
    else if isZero a || isZero b then withSign (signBit a ^^ signBit b) 0
    else withSign (signBit a ^^ signBit b) (roundBits (magnitude a * magnitude b) (2 ^ 149)) := rfl

theorem fmul_of_invalid (h : fmulInvalid a b = true) : fmul nan a b = nan := by rw [fmul_eq_ite, if_pos h]

theorem fmul_of_isInf (h : fmulInvalid a b = false) (hi : isInf a = true ∨ isInf b = true) :
    fmul nan a b = withSign (signBit a ^^ signBit b) infBits := by
  rw [fmul_eq_ite, if_neg (by simp [h]), if_pos (by simpa using hi)]

theorem fmulInvalid_of_isFinite (ha : isFinite a = true) (hb : isFinite b = true) : fmulInvalid a b = false := by
  simp [fmulInvalid, isNaN_of_isFinite, isInf_of_isFinite, ha, hb]

theorem fmul_of_isZero (ha : isFinite a = true) (hb : isFinite b = true) (hz : isZero a = true ∨ isZero b = true) :
    fmul nan a b = withSign (signBit a ^^ signBit b) 0 := by
  rw [fmul_eq_ite, if_neg (by simp [fmulInvalid_of_isFinite ha hb]),
    if_neg (by simp [isInf_of_isFinite, ha, hb]), if_pos (by simpa using hz)]

theorem fmul_of_isFinite (ha : isFinite a = true) (hb : isFinite b = true) (hza : isZero a = false)
    (hzb : isZero b = false) :
    fmul nan a b = withSign (signBit a ^^ signBit b) (roundBits (magnitude a * magnitude b) (2 ^ 149)) := by
  rw [fmul_eq_ite, if_neg (by simp [fmulInvalid_of_isFinite ha hb]),
    if_neg (by simp [isInf_of_isFinite, ha, hb]), if_neg (by simp [hza, hzb])]

/-- Outside R111's condition for a NaN the result is the product's sign over bits that are no NaN's. -/
theorem exists_fmul_eq_withSign (nan : F32) (h : fmulInvalid a b = false) :
    ∃ bits ≤ infBits, fmul nan a b = withSign (signBit a ^^ signBit b) bits := by
  rw [fmul_eq_ite, if_neg (by simp [h])]
  split_ifs
  · exact ⟨_, le_rfl, rfl⟩
  · exact ⟨_, Nat.zero_le _, rfl⟩
  · exact ⟨_, roundBits_le _ _, rfl⟩

theorem isInf_withSign_infBits (neg : Bool) : isInf (withSign neg infBits) = true := by cases neg <;> decide

theorem isZero_withSign_zero (neg : Bool) : isZero (withSign neg 0) = true := by cases neg <;> decide

/-- Settles O45: each clause is one case of `fmul`, and outside the NaN case all of them carry the product's sign. -/
theorem fmulFollowsItsCases : Obligations.FmulFollowsItsCases := by
  intro d a b
  refine ⟨?invalid, fun hv => ?_⟩
  case invalid =>
    intro hv
    rw [fmul_of_invalid (fmulInvalid_iff.2 hv)]
    exact isQuietNaN_freshNaN d
  rw [← fmulInvalid_iff, Bool.not_eq_true] at hv
  refine ⟨?sign, ?inf, ?zero, fun ha hb hza hzb => fmul_of_isFinite ha hb hza hzb⟩
  case sign =>
    obtain ⟨bits, hle, heq⟩ := exists_fmul_eq_withSign (freshNaN d) hv
    rw [heq]
    exact signBit_withSign _ (hle.trans_lt (by decide))
  case inf =>
    intro hi
    rw [fmul_of_isInf hv hi]
    exact isInf_withSign_infBits _
  case zero =>
    intro ha hb hz
    rw [fmul_of_isZero ha hb hz]
    exact isZero_withSign_zero _

/-! fadd, one equation per case of R112. -/

theorem faddInvalid_iff : faddInvalid a b = true ↔
    isNaN a = true ∨ isNaN b = true ∨ (isInf a = true ∧ isInf b = true ∧ signBit a ≠ signBit b) := by
  simp only [faddInvalid, Bool.or_eq_true, Bool.and_eq_true, bne_iff_ne, or_assoc, and_assoc]

theorem fadd_eq_ite (nan a b : F32) : fadd nan a b =
    if faddInvalid a b then nan
    else if isInf a then a
    else if isInf b then b
    else if isZero a && isZero b then withSign (signBit a && signBit b) 0
    else if scaledValue a + scaledValue b = 0 then withSign false 0
    else withSign (decide (scaledValue a + scaledValue b < 0)) (roundBits (scaledValue a + scaledValue b).natAbs 1) :=
  rfl

theorem fadd_of_invalid (h : faddInvalid a b = true) : fadd nan a b = nan := by rw [fadd_eq_ite, if_pos h]

theorem fadd_of_isInf_left (h : faddInvalid a b = false) (ha : isInf a = true) : fadd nan a b = a := by
  rw [fadd_eq_ite, if_neg (by simp [h]), if_pos ha]

/-- R112's condition for a NaN does not look at the order of the operands. -/
theorem faddInvalid_comm (a b : F32) : faddInvalid a b = faddInvalid b a := by
  rw [Bool.eq_iff_iff, faddInvalid_iff, faddInvalid_iff]
  tauto

/-- Addition has one result for both orders of its operands, but for the NaN (R112). -/
theorem fadd_comm (nan a b : F32) : fadd nan a b = fadd nan b a := by
  rw [fadd_eq_ite, fadd_eq_ite, faddInvalid_comm b a, Bool.and_comm (isZero b), Bool.and_comm (signBit b),
    Int.add_comm (scaledValue b)]
  split_ifs with hv ha hb
  · rfl
  · refine eq_of_isInf_of_signBit_eq ha hb ?_
    by_contra hs
    exact hv (faddInvalid_iff.2 (.inr (.inr ⟨ha, hb, hs⟩)))
  all_goals rfl

theorem fadd_eq_ite_of_isFinite (nan : F32) (ha : isFinite a = true) (hb : isFinite b = true) : fadd nan a b =
    if isZero a && isZero b then withSign (signBit a && signBit b) 0
    else if scaledValue a + scaledValue b = 0 then withSign false 0
    else withSign (decide (scaledValue a + scaledValue b < 0))
      (roundBits (scaledValue a + scaledValue b).natAbs 1) := by
  rw [fadd_eq_ite, if_neg (by simp [faddInvalid, isNaN_of_isFinite, isInf_of_isFinite, ha, hb]),
    if_neg (by simp [isInf_of_isFinite ha]), if_neg (by simp [isInf_of_isFinite hb])]

theorem fadd_of_isZero (ha : isZero a = true) (hb : isZero b = true) :
    fadd nan a b = withSign (signBit a && signBit b) 0 := by
  rw [fadd_eq_ite_of_isFinite nan (isFinite_of_isZero ha) (isFinite_of_isZero hb), if_pos (by simp [ha, hb])]

theorem fadd_of_sum_eq_zero (ha : isFinite a = true) (hb : isFinite b = true) (hz : isZero a = false)
    (hs : scaledValue a + scaledValue b = 0) : fadd nan a b = 0x00000000#32 := by
  rw [fadd_eq_ite_of_isFinite nan ha hb, if_neg (by simp [hz]), if_pos hs]
  rfl

theorem fadd_of_sum_ne_zero (ha : isFinite a = true) (hb : isFinite b = true)
    (hs : scaledValue a + scaledValue b ≠ 0) :
    fadd nan a b = withSign (decide (scaledValue a + scaledValue b < 0))
      (roundBits (scaledValue a + scaledValue b).natAbs 1) := by
  have hz : ¬ (isZero a && isZero b) = true := by
    rw [Bool.and_eq_true]
    rintro ⟨hza, hzb⟩
    exact hs (by rw [scaledValue_of_isZero hza, scaledValue_of_isZero hzb, Int.add_zero])
  rw [fadd_eq_ite_of_isFinite nan ha hb, if_neg hz, if_neg hs]

theorem fadd_of_isZero_right (ha : isFinite a = true) (hz : isZero a = false) (hb : isZero b = true) :
    fadd nan a b = a := by
  have hsum : scaledValue a + scaledValue b = scaledValue a := by rw [scaledValue_of_isZero hb, Int.add_zero]
  rw [fadd_of_sum_ne_zero ha (isFinite_of_isZero hb) (hsum.trans_ne (scaledValue_ne_zero hz)), hsum,
    withSign_roundBits_scaledValue ha hz]

/-- The zero whose sign is the conjunction of two zeros' signs is -0 exactly when both are -0. -/
theorem withSign_and_of_isZero (ha : isZero a = true) (hb : isZero b = true) :
    withSign (signBit a && signBit b) 0 =
      if a = 0x80000000#32 ∧ b = 0x80000000#32 then 0x80000000#32 else 0x00000000#32 := by
  rw [eq_withSign_of_isZero ha, eq_withSign_of_isZero hb]
  cases signBit a <;> cases signBit b <;> decide

/-- Settles O46: each clause is one case of `fadd`, and an operand on the right is one on the left by commutativity. -/
theorem faddFollowsItsCases : Obligations.FaddFollowsItsCases := by
  intro d a b
  refine ⟨?invalid, ?inf, ?zeros, fun ha hb hz hs => fadd_of_sum_eq_zero ha hb hz hs,
    fun ha hb hs => fadd_of_sum_ne_zero ha hb hs, ?zero⟩
  case invalid =>
    intro hv
    rw [fadd_of_invalid (faddInvalid_iff.2 hv)]
    exact isQuietNaN_freshNaN d
  case inf =>
    intro ha hb hs
    have hv : faddInvalid a b = false := by
      rw [← Bool.not_eq_true, faddInvalid_iff]
      simp only [isNaN_of_isInf ha, hb, ha, true_and]
      tauto
    exact ⟨fadd_of_isInf_left hv ha, (fadd_comm _ b a).trans (fadd_of_isInf_left hv ha)⟩
  case zeros =>
    intro ha hb
    rw [fadd_of_isZero ha hb, withSign_and_of_isZero ha hb]
  case zero =>
    intro ha hz hb
    exact ⟨fadd_of_isZero_right ha hz hb, (fadd_comm _ b a).trans (fadd_of_isZero_right ha hz hb)⟩

/-! fsub (R113). -/

theorem fsub_self (nan : F32) (h : isFinite a = true) : fsub nan a a = 0x00000000#32 := by
  have hf : isFinite (fneg a) = true := (isFinite_fneg a).trans h
  rw [fsub]
  cases hz : isZero a
  · exact fadd_of_sum_eq_zero h hf hz (by rw [scaledValue_fneg, Int.add_right_neg])
  · rw [fadd_of_isZero hz ((isZero_fneg a).trans hz), signBit_fneg, Bool.and_not_self]
    rfl

/-- The difference of two zeros is -0 only for -0 minus +0. -/
theorem fsub_of_isZero (nan : F32) (ha : isZero a = true) (hb : isZero b = true) :
    fsub nan a b = withSign (signBit a && !signBit b) 0 := by
  rw [fsub, fadd_of_isZero ha ((isZero_fneg b).trans hb), signBit_fneg]

/-- Settles O47: `fneg` inverts the sign alone, and the differences are the sums that `fadd`'s cases give. -/
theorem fsubAddsTheNegative : Obligations.FsubAddsTheNegative := by
  intro d a b
  have hp : isZero 0x00000000#32 = true := by decide
  have hm : isZero 0x80000000#32 = true := by decide
  refine ⟨rfl, ⟨signBit_fneg b, expField_fneg b, fracField_fneg b⟩, fsub_self _,
    ⟨fsub_of_isZero _ hp hp, fsub_of_isZero _ hm hm, fsub_of_isZero _ hm hp, fsub_of_isZero _ hp hm⟩, ?nan⟩
  case nan =>
    intro hn
    rw [fsub, fadd_of_invalid (faddInvalid_iff.2 ?_)]
    · exact isQuietNaN_freshNaN d
    · rw [isNaN_fneg]
      tauto

end Sys2Proof.Machine
end

section
/-! The PROC command: its checks (R100) and what it computes (R101). -/

namespace Sys2Proof.Machine

variable {s : State} {nch m : Nat}

/-! PROC's checks, and its meaning at the outcome of each; `execProc_of_readyFor` is the one that runs. -/

theorem blockLegal_eq_false_iff {p : Params} {maxblk : BitVec 16} :
    blockLegal p maxblk nch m = false ↔ nch = 0 ∨ nch > p.nch ∨ m > maxblk.toNat := by
  rw [← Bool.not_eq_true, blockLegal_iff]
  omega

theorem execProc_of_not_prepared (hst : s.st ≠ .prepared) : exec (.proc nch m) s = .next (s.fail .state) := if_neg hst

theorem execProc_of_illegal (hst : s.st = .prepared) (hb : blockLegal s.cfg s.maxblk nch m = false) :
    exec (.proc nch m) s = .next (s.fail .range) := (if_pos hst).trans (if_neg (ne_true_of_eq_false hb))

theorem execProc_of_not_committed (hst : s.st = .prepared) (hb : blockLegal s.cfg s.maxblk nch m = true)
    (hav : s.av = false) : exec (.proc nch m) s = .next (s.fail .nocoef) :=
  (if_pos hst).trans ((if_pos hb).trans (if_neg (ne_true_of_eq_false hav)))

theorem decode_packFields_proc (a : BitVec 8) (b : BitVec 16) (imm : BitVec 32) :
    decode (packFields 0x20#8 a b imm) =
      if imm = 0#32 then .ok (.proc a.toNat b.toNat) else .error (.fieldNotZero 0x20#8) := by
  simp [decode_packFields]

/-- Settles O32: a PROC that finds one of R100's checks failing only fails with that check's code, and one that finds
none runs, which leaves ERR. -/
theorem procChecksBeforeItRuns : Obligations.ProcChecksBeforeItRuns := by
  refine ⟨fun s nch m hg => ⟨execProc_of_not_prepared, ?range, ?nocoef, ?runs⟩, decode_packFields_proc⟩
  case range =>
    intro hst hout
    exact execProc_of_illegal hst (blockLegal_eq_false_iff.2 hout)
  case nocoef =>
    intro hst hin hav
    rw [← blockLegal_eq_false_iff, Bool.not_eq_false] at hin
    exact execProc_of_not_committed hst hin hav
  case runs =>
    intro hr
    exact ⟨_, execProc_of_readyFor hg hr, rfl, s.process_err nch m⟩

/-- What a PROC leaves of each channel it names: its samples passed through the cascade of all sections, and the delay
elements of that, up to the payload of NaNs (R101, R104). -/
theorem State.Good.process_filters (hg : s.Good) (hn : nch ≤ s.cfg.nch) (hm : m ≤ s.cfg.maxcap) {c : Nat}
    (hc : c < nch) :
    listsAgree ((s.process nch m).channelSamples c m) (cascadeRun (s.channelSections c) (s.channelSamples c m)).1 ∧
    List.Forall₂ delaysAgree ((List.range s.cfg.nsec).map fun sec => (s.process nch m).delay sec c)
      (cascadeRun (s.channelSections c) (s.channelSamples c m)).2 := by
  have hd : ∀ sec, 0 ≤ sec → sec < 0 + s.cfg.nsec → ∀ c < nch, s.hasDelay sec c :=
    fun sec _ hsec c hc => hg.hasDelay (by omega) (by omega)
  obtain ⟨-, -, -, hrun⟩ := procSections_spec nch m s.cfg.nsec 0 { s with st := .processing } hd hm
  rw [← List.range_eq_range'] at hrun
  exact hrun c hc (s.channelSamples c m) (List.forall₂_same.2 fun x _ => .inl rfl)

/-- Settles O31: a PROC that passes its checks writes Z, BUF and the draw counter alone, and its loop nest is the
cascade on every channel it names. -/
theorem procFiltersEveryChannel : Obligations.ProcFiltersEveryChannel := by
  intro s nch m hg hr
  have ⟨hst, _, hn, hm, _⟩ := hr
  exact ⟨_, execProc_of_readyFor hg hr, congrArg (State.respond .ok 0#32) (s.process_same nch m hst),
    fun c hc => hg.process_filters hn (hm.trans (hg.prepared hst).2.1) hc⟩

end Sys2Proof.Machine
end

section
/-! The buffer commands WRB and RDB and the status command RDS (R130 to R135). -/

namespace Sys2Proof.Machine

variable {s : State}

/-! WRB's and RDB's check, and each meaning at its outcome. -/

theorem execWrb_of_legal {c n : Nat} {v : F32} (h : bufLegal s.cfg c n = true) :
    exec (.wrb c n v) s = .next ((s.setBufWord c n v).respond .ok 0#32) := if_pos h

theorem execWrb_of_illegal {c n : Nat} {v : F32} (h : bufLegal s.cfg c n = false) :
    exec (.wrb c n v) s = .next (s.fail .range) := if_neg (ne_true_of_eq_false h)

theorem execRdb_of_legal {c n : Nat} (h : bufLegal s.cfg c n = true) :
    exec (.rdb c n) s = .next (s.respond .ok (s.bufWord c n)) := if_pos h

theorem execRdb_of_illegal {c n : Nat} (h : bufLegal s.cfg c n = false) :
    exec (.rdb c n) s = .next (s.fail .range) := if_neg (ne_true_of_eq_false h)

theorem decode_packFields_wrb (a : BitVec 8) (b : BitVec 16) (imm : BitVec 32) :
    decode (packFields 0x30#8 a b imm) = .ok (.wrb a.toNat b.toNat imm) := by
  simp [decode_packFields]

theorem decode_packFields_rdb (a : BitVec 8) (b : BitVec 16) (imm : BitVec 32) :
    decode (packFields 0x31#8 a b imm) =
      if imm = 0#32 then .ok (.rdb a.toNat b.toNat) else .error (.fieldNotZero 0x31#8) := by
  simp [decode_packFields]

/-- Settles O40: WRB's check is the stated range, and `State.setBufWord` writes the four bytes at the word's own address
and no other. -/
theorem wrbWritesOneWord : Obligations.WrbWritesOneWord := by
  refine ⟨?legal, ?illegal, decode_packFields_wrb⟩
  case legal =>
    intro s c n v hc hn
    have hword : (State.setBufWord c n v s).bufWord c n = v :=
      (s.bufWord_setBufWord v hn hn).trans (if_pos ⟨rfl, rfl⟩)
    have hframe : ∀ a, a / 4 ≠ wordAddr s.cfg c n → (State.setBufWord c n v s).bufByte a = s.bufByte a :=
      fun a ha => (s.bufByte_setBufWord c n a v).trans (if_neg ha)
    exact ⟨_, execWrb_of_legal (bufLegal_iff.2 ⟨hc, hn⟩), rfl, hword, hframe⟩
  case illegal =>
    intro s c n v hout
    exact execWrb_of_illegal (bufLegal_eq_false_iff.2 hout)

/-- Settles O41: RDB's check is the stated range, inside which it writes the response alone. -/
theorem rdbAnswersTheWord : Obligations.RdbAnswersTheWord :=
  ⟨fun _ _ _ hc hn => execRdb_of_legal (bufLegal_iff.2 ⟨hc, hn⟩),
    fun _ _ _ hout => execRdb_of_illegal (bufLegal_eq_false_iff.2 hout),
    decode_packFields_rdb⟩

/-! RDS's meaning at the outcome of its check. -/

theorem execRds_of_statusWord {idx : Nat} {v : BitVec 32} (h : statusWord s idx = some v) :
    exec (.rds idx) s = .next (s.respond .ok v) := by
  simp only [exec, execRds, h]

theorem execRds_of_reserved {idx : Nat} (h : statusWord s idx = none) :
    exec (.rds idx) s = .next (s.fail .range) := by
  simp only [exec, execRds, h]

theorem decode_packFields_rds (a : BitVec 8) (b : BitVec 16) (imm : BitVec 32) :
    decode (packFields 0x40#8 a b imm) =
      if a = 0#8 ∧ imm = 0#32 then .ok (.rds b.toNat) else .error (.fieldNotZero 0x40#8) := by
  simp [decode_packFields]

/-! The fields of the status words (R21). -/

/-- Fields of 16, 4, 8 and 4 bits, as CAP packs them, read back at bits 16, 12, 4 and 0. -/
theorem extractLsb'_capFields (cap : BitVec 16) (gap : BitVec 4) (nch : BitVec 8) (nsec : BitVec 4) :
    (cap ++ gap ++ nch ++ nsec).extractLsb' 0 4 = nsec ∧ (cap ++ gap ++ nch ++ nsec).extractLsb' 4 8 = nch ∧
      (cap ++ gap ++ nch ++ nsec).extractLsb' 12 4 = gap ∧ (cap ++ gap ++ nch ++ nsec).extractLsb' 16 16 = cap := by
  refine ⟨BitVec.extractLsb'_append_eq_right, ?_, ?_, ?_⟩
  · rw [BitVec.extractLsb'_append_eq_of_le (by decide), BitVec.extractLsb'_append_eq_right]
  · rw [BitVec.extractLsb'_append_eq_of_le (by decide), BitVec.extractLsb'_append_eq_of_le (by decide),
      BitVec.extractLsb'_append_eq_right]
  · rw [BitVec.extractLsb'_append_eq_of_le (by decide), BitVec.extractLsb'_append_eq_of_le (by decide),
      BitVec.extractLsb'_append_eq_left]

/-- The build parameters fit their fields of CAP (R6). -/
theorem toNat_capFields (p : Params) :
    (BitVec.ofNat 4 p.nsec).toNat = p.nsec ∧ (BitVec.ofNat 8 p.nch).toNat = p.nch ∧
      (BitVec.ofNat 16 p.maxcap).toNat = p.maxcap := by
  have hsec : p.nsec < 2 ^ 4 := p.nsec_legal.2.trans_lt (by decide)
  have hch : p.nch < 2 ^ 8 := p.nch_legal.2.trans_lt (by decide)
  have hcap : p.maxcap < 2 ^ 16 := p.maxcap_legal.2.trans_lt (by decide)
  exact ⟨Nat.mod_eq_of_lt hsec, Nat.mod_eq_of_lt hch, Nat.mod_eq_of_lt hcap⟩

/-- CVALID's two flags stand in bits 0 and 1, under thirty zero bits. -/
theorem cvalid_fields (staged valid : Bool) :
    (0#30 ++ BitVec.ofBool staged ++ BitVec.ofBool valid).getLsbD 0 = valid ∧
      (0#30 ++ BitVec.ofBool staged ++ BitVec.ofBool valid).getLsbD 1 = staged ∧
      (0#30 ++ BitVec.ofBool staged ++ BitVec.ofBool valid).toNat < 4 := by
  cases staged <;> cases valid <;> decide

/-- Settles O43: each status word is the packing of the fields R21 lists, each of which fits, and the indices above 5 are
those without a status word. -/
theorem rdsAnswersTheStatusWord : Obligations.RdsAnswersTheStatusWord := by
  refine ⟨fun s => ⟨?cap, ?st, ?err, execRds_of_statusWord rfl, ?maxblk, ?cvalid⟩, ?reserved, decode_packFields_rds⟩
  case cap =>
    obtain ⟨hsec, hch, hgap, hcap⟩ := extractLsb'_capFields (BitVec.ofNat 16 s.cfg.maxcap) 0#4
      (BitVec.ofNat 8 s.cfg.nch) (BitVec.ofNat 4 s.cfg.nsec)
    obtain ⟨hsec', hch', hcap'⟩ := toNat_capFields s.cfg
    exact ⟨_, execRds_of_statusWord rfl, (congrArg BitVec.toNat hsec).trans hsec',
      (congrArg BitVec.toNat hch).trans hch', hgap, (congrArg BitVec.toNat hcap).trans hcap'⟩
  case st => exact ⟨_, execRds_of_statusWord rfl, by cases s.st <;> rfl⟩
  case err => exact ⟨_, execRds_of_statusWord rfl, BitVec.toNat_setWidth_of_le (by decide)⟩
  case maxblk => exact ⟨_, execRds_of_statusWord rfl, BitVec.toNat_setWidth_of_le (by decide)⟩
  case cvalid =>
    obtain ⟨hav, hsa, hlt⟩ := cvalid_fields s.allStaged s.av
    exact ⟨_, execRds_of_statusWord rfl, hav, by rw [hsa, allStaged_iff], hlt⟩
  case reserved =>
    intro s idx h
    exact execRds_of_reserved (statusWord_eq_none_iff.2 h)

end Sys2Proof.Machine
end

section
/-! The failing response: no write but ERR's (R145), and the code of the first failing check (R144). -/

namespace Sys2Proof.Machine

variable {s t : State} {r : Response}

/-- A command that answers another code than OK has done nothing but `raise` that code (R145). -/
theorem exec_eq_fail {i : Instr} (h : exec i s = .next t) (hr : t.out = some r) (hne : r.code ≠ .ok) :
    t = s.fail r.code := by
  obtain ⟨u, d, -, rfl⟩ | ⟨code, -, rfl⟩ := exec_completes_or_fails h
  · cases hr
    exact absurd rfl hne
  · cases hr
    rfl

variable {w : CmdWord} {rest : List HostEvent}

/-- The same of a command word, one that does not decode included. -/
theorem step_eq_fail (hp : s.port = .command w :: rest) (h : step s = .next t) (hr : t.out = some r)
    (hne : r.code ≠ .ok) : t = State.fail r.code (State.accept { s with port := rest }) := by
  cases hd : decode w with
  | ok i => exact exec_eq_fail ((step_of_decode_ok hp hd).symm.trans h) hr hne
  | error e =>
    cases h.symm.trans (step_of_decode_error hp hd)
    cases hr
    rfl

/-- Settles O16: a command word that fails leaves `State.fail` of the state that took it. -/
theorem failedCommandChangesOnlyErr : Obligations.FailedCommandChangesOnlyErr := by
  intro s t w rest r hp h hr hne
  have ht := step_eq_fail hp h hr hne
  have hrec : r = ⟨r.code, 0#32⟩ := by
    rw [ht, State.fail_out, Option.some_inj] at hr
    exact hr.symm
  exact ⟨congrArg Response.data hrec, by rw [← hr, ht]; rfl⟩

/-- Settles O20: from a good state the step ends; a word that does not decode answers E_OPC, a command its first
failing check. -/
theorem firstFailingCheckDecidesTheCode : Obligations.FirstFailingCheckDecidesTheCode := by
  intro s w rest hg hp
  obtain ⟨t, ht⟩ := hg.step_ends hp
  refine ⟨t, ht, ?undecoded, ?decoded⟩
  case undecoded =>
    intro e hd
    cases ht.symm.trans (step_of_decode_error hp hd)
    rfl
  case decoded =>
    intro i hd
    rw [State.lastCode, step_out hp hd ht, Option.map_some]

end Sys2Proof.Machine
end

section
/-! Hardware reset, between two commands and inside one (R170 to R172). -/

namespace Sys2Proof.Machine

variable {s : State}

/-- A step takes the oldest event off the port and runs it (R48). -/
theorem step_cons {e : HostEvent} {rest : List HostEvent} (h : s.port = e :: rest) :
    step s = runEvent e { s with port := rest } := by
  simp only [step, runPort, h]

/-- The command that a hardware reset cuts short leaves no trace in the registers (R172). -/
@[simp] theorem State.hardReset_accept : s.accept.hardReset = s.hardReset := rfl

/-- A hardware reset that cuts a command short does what one between commands does (R171, R172). -/
theorem step_of_reset {w : CmdWord} {rest : List HostEvent}
    (h : s.port = .hardReset :: rest ∨ s.port = .cutShort w :: rest) :
    step s = .next (State.hardReset { s with port := rest }) := by
  obtain hp | hp := h <;> simp only [step_cons hp, runEvent, State.hardReset_accept]

/-- Settles O10: either event ends in `State.hardReset`, whose fields are the values R171 gives. -/
theorem hardwareResetGivesTheResetValues : Obligations.HardwareResetGivesTheResetValues := by
  intro s w rest h
  exact ⟨_, step_of_reset h, State.hardReset_st _, State.hardReset_err _, State.hardReset_fs _,
    State.hardReset_maxblk _, State.hardReset_shdv _, State.hardReset_av _, State.hardReset_cfg _⟩

end Sys2Proof.Machine
end

section
/-! One step of the block (R48, R60), and the good states that every step keeps (R10, R25). -/

namespace Sys2Proof.Machine

variable {s t : State} {i : Instr}

/-! A command's meaning does not read `busy`, and its answer lowers it (R66, R151). -/

theorem State.procChannel_accept (s : State) (sec m c : Nat) :
    s.accept.procChannel sec m c = (s.procChannel sec m c).accept :=
  List.foldl_hom State.accept fun _ _ => rfl

theorem State.procSection_accept (s : State) (nch m sec : Nat) :
    s.accept.procSection nch m sec = (s.procSection nch m sec).accept :=
  List.foldl_hom State.accept fun u c => u.procChannel_accept sec m c

theorem State.procLoop_accept (s : State) (nch m : Nat) :
    s.accept.procLoop nch m = (s.procLoop nch m).accept :=
  List.foldl_hom State.accept fun u sec => u.procSection_accept nch m sec

theorem State.process_accept (s : State) (nch m : Nat) : s.accept.process nch m = (s.process nch m).accept :=
  congrArg (fun u : State => { u with st := .prepared })
    (State.procLoop_accept { s with st := .processing } nch m)

/-- `busy` is an output only: the command a port accepts does what it would do on the idle block. -/
theorem exec_accept (i : Instr) (s : State) : exec i s.accept = exec i s := by
  cases i with
  | proc nch m =>
    simp only [exec, execProc, State.process_accept]
    rfl
  | _ => rfl

/-- Settles O7: a word taken off the port runs on the accepted state, and nothing else is done around it. -/
theorem stepRunsTheDecodedCommand : Obligations.StepRunsTheDecodedCommand :=
  fun _ _ _ _ hp hd => step_of_decode_ok hp hd

/-- Settles O8: these are the empty port and the two direct-port events of `runPort`. -/
theorem stepWaitsOrServesTheDirectPort : Obligations.StepWaitsOrServesTheDirectPort := by
  refine fun s => ⟨fun hp => ?_, fun c n v rest hp => step_cons hp, fun c n rest hp => step_cons hp⟩
  rw [step, runPort, hp]

/-- What one event can do, seen from the idle block: run a command, which comes from a command word or from the direct
port; fail on a word that does not decode; or reset (R46, R48, R64, R172). -/
theorem runEvent_cases {e : HostEvent} (h : runEvent e s = .next t) :
    (∃ i, exec i s = .next t ∧
      ((∃ w, e = .command w ∧ decode w = .ok i) ∨ (∃ c n v, i = .wrb c n v) ∨ (∃ c n, i = .rdb c n))) ∨
    t = s.fail .opc ∨
    (t = s.hardReset ∧ (e = .hardReset ∨ ∃ w, e = .cutShort w)) := by
  obtain ⟨w, i, rfl, hd, hx⟩ | ⟨w, err, -, -, rfl⟩ | ⟨rfl, rfl⟩ | ⟨w, rfl, rfl⟩ | ⟨c, n, v, -, hx⟩ | ⟨c, n, -, hx⟩ :=
    runEvent_next h
  · exact .inl ⟨i, (exec_accept i s).symm.trans hx, .inl ⟨w, rfl, hd⟩⟩
  · exact .inr (.inl rfl)
  · exact .inr (.inr ⟨rfl, .inl rfl⟩)
  · exact .inr (.inr ⟨rfl, .inr ⟨w, rfl⟩⟩)
  · exact .inl ⟨_, (exec_accept _ s).symm.trans hx, .inr (.inl ⟨c, n, v, rfl⟩)⟩
  · exact .inl ⟨_, (exec_accept _ s).symm.trans hx, .inr (.inr ⟨c, n, rfl⟩)⟩

/-! The banks after PREP, REL and hardware reset hold no valid bit (R17), and staging clears none (R90). -/

/-- A block has a section, so a bank without a valid bit is not staged. -/
theorem allStaged_eq_false_of_noneStaged (h : s.shdv = noneStaged s.cfg) : s.allStaged = false := by
  have hn : s.cfg.nsec ≠ 0 := by have := s.cfg.nsec_legal; omega
  rw [allStaged_eq_false_iff, h]
  exact ⟨_, List.mem_replicate.2 ⟨hn, rfl⟩, .inl rfl⟩

theorem sectionStaged_set {k : Five Bool} (ix : CoefIx) (h : sectionStaged k = true) :
    sectionStaged (k.set ix true) = true := by
  simp only [sectionStaged, Bool.and_eq_true] at h ⊢
  cases ix <;> simp [Five.set, h]

theorem allStaged_stage (sec : Nat) (ix : CoefIx) (v : F32) (h : s.allStaged = true) :
    (State.stage sec ix v s).allStaged = true := by
  rw [State.allStaged, List.all_eq_true] at h ⊢
  intro k hk
  obtain ⟨j, hj, rfl⟩ := List.mem_iff_getElem.1 hk
  have hj' : j < s.shdv.length := by simpa using hj
  have hold := h _ (List.getElem_mem hj')
  simp only [State.stage_shdv, List.getElem_modify]
  split_ifs
  · exact sectionStaged_set ix hold
  · exact hold

/-! What each operation on the state makes of a good state. -/

/-- The state after hardware reset is good in every legal configuration (R171). -/
theorem resetWith_good (p : Params) : (State.resetWith p).Good where
  shd_length := List.length_replicate
  shdv_length := List.length_replicate
  act_length := List.length_replicate
  z_length := List.length_replicate
  z_rows := rows_zeroDelays p
  err_code := Nat.zero_le _
  not_processing := nofun
  prepared := nofun
  unprepared := fun _ => ⟨rfl, rfl, rfl, rfl⟩
  committed := nofun
  buf_wf := rfl
  buf_inside := nofun
  buf_whole := fun _ _ _ => rfl
  not_busy := rfl

theorem State.hardReset_good (s : State) : s.hardReset.Good := { resetWith_good s.cfg with }

/-- A legal block size fits MAXBLK's 16 bits (R6, R80). -/
theorem toNat_maxblk_of_prepLegal {p : Params} {b : Nat} {fs : F32} (hl : prepLegal p b fs = true) :
    (BitVec.ofNat 16 b).toNat = b :=
  Nat.mod_eq_of_lt (Nat.lt_of_le_of_lt ((prepLegal_iff.1 hl).2.1.trans p.maxcap_legal.2) (by decide))

theorem State.Good.prepare (h : s.Good) {b : Nat} {fs : F32} (hl : prepLegal s.cfg b fs = true) :
    (s.prepare b fs).Good := by
  obtain ⟨h1, h2, hfs⟩ := prepLegal_iff.1 hl
  have hb := toNat_maxblk_of_prepLegal hl
  exact
    { h with
      shd_length := length_freeBank _ _
      shdv_length := length_noneStaged _
      act_length := length_freeBank _ _
      z_length := length_zeroDelays _
      z_rows := rows_zeroDelays _
      not_processing := nofun
      prepared := fun _ => ⟨h1.trans_eq hb.symm, hb.trans_le h2, hfs⟩
      unprepared := fun hne => absurd rfl hne
      committed := nofun }

theorem State.Good.release (h : s.Good) : s.release.Good :=
  { h with
    shd_length := length_freeBank _ _
    shdv_length := length_noneStaged _
    act_length := length_freeBank _ _
    z_length := length_freeDelays _ _
    z_rows := rows_freeDelays _ _
    not_processing := nofun
    prepared := nofun
    unprepared := fun _ => ⟨rfl, rfl, rfl, rfl⟩
    committed := nofun }

theorem State.Good.clearDelays (h : s.Good) : s.clearDelays.Good :=
  { h with
    z_length := length_zeroDelays _
    z_rows := rows_zeroDelays _ }

theorem State.Good.stage (h : s.Good) (hst : s.st = .prepared) (sec : Nat) (ix : CoefIx) (v : F32) :
    (State.stage sec ix v s).Good :=
  { h with
    shd_length := (List.length_modify ..).trans h.shd_length
    shdv_length := (List.length_modify ..).trans h.shdv_length
    unprepared := fun hne => absurd hst hne
    committed := fun hav => allStaged_stage sec ix v (h.committed hav) }

theorem State.Good.commit (h : s.Good) (hst : s.st = .prepared) (ha : s.allStaged = true) : s.commit.Good :=
  { h with
    act_length := h.shd_length
    unprepared := fun hne => absurd hst hne
    committed := fun _ => ha }

theorem State.Good.procSample (h : s.Good) (sec : Nat) {c n : Nat} (hc : c < s.cfg.nch) (hn : n < s.cfg.maxcap) :
    (s.procSample sec c n).Good :=
  { (h.setDelay sec c _).setBufWord _ hc hn with }

/-- Every sample a PROC handles lies in BUF, so its loop keeps the good states, once ST is Prepared again. -/
theorem State.Good.process (h : s.Good) (hst : s.st = .prepared) {nch m : Nat} (hn : nch ≤ s.cfg.nch)
    (hm : m ≤ s.cfg.maxcap) : (s.process nch m).Good := by
  have hstart : ({ s with st := .prepared } : State).Good := by rw [← hst]; exact h
  refine (State.procLoop_keeps (fun u => ({ u with st := .prepared } : State).Good ∧ u.cfg = s.cfg) nch m
    { s with st := .processing } ?_ ⟨hstart, rfl⟩).1
  rintro sec - c hc n hn' u ⟨hu, hcfg⟩
  exact ⟨hu.procSample sec (hc.trans_le (hn.trans_eq (congrArg _ hcfg.symm)))
    (hn'.trans_le (hm.trans_eq (congrArg _ hcfg.symm))), hcfg⟩

/-- Every command keeps the good states. -/
theorem State.Good.of_exec (hg : s.Good) (h : exec i s = .next t) : t.Good := by
  cases i with
  | prep b fs =>
    obtain ⟨hl, rfl⟩ | ⟨-, rfl⟩ := execPrep_next h
    · exact (hg.prepare hl).respond _ _
    · exact hg.fail _
  | rel =>
    rw [execRel_next h]
    exact hg.release.respond _ _
  | rst =>
    obtain ⟨-, rfl⟩ | ⟨-, rfl⟩ := execRst_next h
    · exact hg.clearDelays.respond _ _
    · exact hg.fail _
  | ldc sec k v =>
    obtain ⟨hst, ix, -, rfl⟩ | ⟨-, -, rfl⟩ | ⟨-, rfl⟩ := execLdc_next h
    · exact (hg.stage hst sec ix v).respond _ _
    all_goals exact hg.fail _
  | cmt =>
    obtain ⟨hst, ha, rfl⟩ | ⟨-, -, rfl⟩ | ⟨-, rfl⟩ := execCmt_next h
    · exact (hg.commit hst ha).respond _ _
    all_goals exact hg.fail _
  | proc nch m =>
    obtain ⟨hst, hb, -, hm, rfl⟩ | ⟨-, -, -, rfl⟩ | ⟨-, -, rfl⟩ | ⟨-, rfl⟩ := execProc_next h
    · exact (hg.process hst (blockLegal_iff.1 hb).2.1 hm).respond _ _
    all_goals exact hg.fail _
  | wrb c n v =>
    obtain ⟨hl, rfl⟩ | ⟨-, rfl⟩ := execWrb_next h
    · obtain ⟨hc, hn⟩ := bufLegal_iff.1 hl
      exact (hg.setBufWord v hc hn).respond _ _
    · exact hg.fail _
  | rdb =>
    obtain ⟨-, rfl⟩ | ⟨-, rfl⟩ := execRdb_next h
    · exact hg.respond _ _
    · exact hg.fail _
  | rds =>
    obtain ⟨v, -, rfl⟩ | ⟨-, rfl⟩ := execRds_next h
    · exact hg.respond _ _
    · exact hg.fail _

/-- Every event keeps the good states; a hardware reset makes one of any state. -/
theorem State.Good.of_runEvent {e : HostEvent} (hg : s.Good) (h : runEvent e s = .next t) : t.Good := by
  obtain ⟨i, hx, -⟩ | rfl | ⟨rfl, -⟩ := runEvent_cases h
  · exact hg.of_exec hx
  · exact hg.fail .opc
  · exact s.hardReset_good

/-- Settles O14: a step waits or runs one event, and every operation the event's meaning is made of keeps the good
states. -/
theorem stepKeepsGoodStates : Obligations.StepKeepsGoodStates := by
  intro s t hg h
  obtain ⟨-, rfl⟩ | ⟨e, rest, -, hx⟩ := step_next h
  · exact hg
  · exact (hg.withPort rest).of_runEvent hx

/-- Settles O12: `State.resetWith` has R171's values, and its SHDV no valid bit. -/
theorem resetStateIsGood : Obligations.ResetStateIsGood :=
  ⟨fun p => ⟨resetWith_good p, rfl, rfl, rfl, rfl, rfl,
    allStaged_eq_false_of_noneStaged (s := State.resetWith p) rfl⟩, rfl⟩

/-- Settles O11: either event ends in `State.hardReset`, which lists no byte of BUF. -/
theorem hardwareResetSendsNoResponse : Obligations.HardwareResetSendsNoResponse :=
  fun _ _ _ h => ⟨_, step_of_reset h, rfl, rfl, rfl, State.bufByte_hardReset _⟩

/-! Every step ends, and a command in its response (R66, R157). -/

/-- From a good state every event's meaning ends (log 13). -/
theorem State.Good.runEvent_ends (hg : s.Good) (e : HostEvent) : ∃ t, runEvent e s = .next t := by
  have hends (i : Instr) : ∃ t, exec i s.accept = .next t := by
    rw [exec_accept]
    exact exec_ends (fun hst => (hg.prepared hst).2.1) i
  cases e with
  | command w =>
    cases hd : decode w with
    | ok i => exact (hends i).imp fun _ hx => (runWord_ok hd).trans hx
    | error err => exact ⟨_, runWord_error hd⟩
  | hardReset => exact ⟨_, rfl⟩
  | cutShort w => exact ⟨_, rfl⟩
  | directWrite c n v => exact hends (.wrb c n v)
  | directRead c n => exact hends (.rdb c n)

@[simp] theorem State.process_port (s : State) (nch m : Nat) : (s.process nch m).port = s.port := by
  rw [State.process, State.procLoop_same { s with st := .processing } nch m]

/-- No command's meaning looks at the events still presented or changes them (log 8). -/
theorem exec_port (h : exec i s = .next t) : t.port = s.port := by
  cases i with
  | prep => obtain ⟨-, rfl⟩ | ⟨-, rfl⟩ := execPrep_next h <;> rfl
  | rel => rw [execRel_next h]; rfl
  | rst => obtain ⟨-, rfl⟩ | ⟨-, rfl⟩ := execRst_next h <;> rfl
  | ldc => obtain ⟨-, ix, -, rfl⟩ | ⟨-, -, rfl⟩ | ⟨-, rfl⟩ := execLdc_next h <;> rfl
  | cmt => obtain ⟨-, -, rfl⟩ | ⟨-, -, rfl⟩ | ⟨-, rfl⟩ := execCmt_next h <;> rfl
  | proc nch m =>
    obtain ⟨-, -, -, -, rfl⟩ | ⟨-, -, -, rfl⟩ | ⟨-, -, rfl⟩ | ⟨-, rfl⟩ := execProc_next h
    · exact s.process_port nch m
    all_goals rfl
  | wrb => obtain ⟨-, rfl⟩ | ⟨-, rfl⟩ := execWrb_next h <;> rfl
  | rdb => obtain ⟨-, rfl⟩ | ⟨-, rfl⟩ := execRdb_next h <;> rfl
  | rds => obtain ⟨v, -, rfl⟩ | ⟨-, rfl⟩ := execRds_next h <;> rfl

/-- Every answer lowers `busy` (R151). -/
theorem exec_busy (h : exec i s = .next t) : t.busy = false := by
  obtain ⟨u, d, -, rfl⟩ | ⟨code, -, rfl⟩ := exec_completes_or_fails h <;> rfl

/-- Settles O15: every event's meaning ends from a good state, and a command word's meaning ends in an answer, whether
the word decodes or not. -/
theorem goodStatesNeverStop : Obligations.GoodStatesNeverStop := by
  intro s hg
  constructor
  · cases hp : s.port with
    | nil => exact ⟨s, by rw [step, runPort, hp]⟩
    | cons e rest => rw [step_cons hp]; exact (hg.withPort rest).runEvent_ends e
  · intro w rest hp
    cases hd : decode w with
    | error err => exact ⟨_, _, step_of_decode_error hp hd, rfl, rfl, rfl⟩
    | ok i =>
      obtain ⟨t, ht⟩ := hg.step_ends hp
      have hx := (step_of_decode_ok hp hd).symm.trans ht
      exact ⟨t, _, ht, exec_out hx, exec_busy hx, exec_port hx⟩

end Sys2Proof.Machine
end

section
/-! The spec's example words (V0, R67), and a byte-wide channel (R44). -/

namespace Sys2Proof.Machine

/-- Settles O4: each word is closed, so the decoder runs. -/
theorem wordsOfTheSpecDecode : Obligations.WordsOfTheSpecDecode := by
  unfold Obligations.WordsOfTheSpecDecode
  decide

/-- Settles O6: each line is closed, so the assembler runs. -/
theorem assemblerGivesTheSpecsWords : Obligations.AssemblerGivesTheSpecsWords := by
  unfold Obligations.AssemblerGivesTheSpecsWords
  decide

/-- Settles O49: the coefficients, samples and delay elements are closed, so the nine operations run. -/
theorem vectorsOfTheSpecComeOut : Obligations.VectorsOfTheSpecComeOut := by
  unfold Obligations.VectorsOfTheSpecComeOut
  decide

/-- The channel's decoder takes a word's eight bytes, puts them together as that word, and leaves the rest (R44, R61). -/
theorem decodeBytes_bytesOfWord (w : CmdWord) (rest : List Byte) :
    decodeBytes (bytesOfWord w ++ rest) = (decode w).map fun i => (i, rest) := by
  simp only [bytesOfWord, List.cons_append, List.nil_append, decodeBytes, wordOfBytes_bytes]
  cases decode w <;> rfl

theorem decodeBytes_of_length_lt {bytes : List Byte} (h : bytes.length < 8) :
    decodeBytes bytes = .error .truncated := by
  unfold decodeBytes
  split
  · simp only [List.length_cons] at h
    omega
  · rfl

/-- Settles O5: a word, a response record and a BUF word are each their bytes put together again, lowest first. -/
theorem byteChannelIsLittleEndian : Obligations.ByteChannelIsLittleEndian := by
  refine ⟨fun w rest i hd => ?_, fun w rest e hd => ?_, fun _ => decodeBytes_of_length_lt, fun w => ⟨rfl, rfl⟩,
    fun r => ⟨_, _, _, _, r.bytes_eq, rfl, f32OfBytes_bytes r.data⟩,
    fun v => ⟨_, _, _, _, rfl, rfl, f32OfBytes_bytes v⟩, fun s c n => bytesOfF32_f32OfBytes _ _ _ _⟩
  · rw [decodeBytes_bytesOfWord, hd]
    rfl
  · rw [decodeBytes_bytesOfWord, hd]
    rfl

end Sys2Proof.Machine
end

section
/-! The frames of the commands: what each leaves of BUF (R47), of ACT (R18) and of the valid bits (R17). -/

namespace Sys2Proof.Machine

variable {s t : State} {i : Instr}

/-! BUF. -/

/-- A PROC writes no byte outside the words c < N, n < M (R47, R102 (b), (c)). -/
theorem State.bufByte_process (s : State) {nch m a : Nat} (h : ∀ c < nch, ∀ n < m, a / 4 ≠ wordAddr s.cfg c n) :
    (s.process nch m).bufByte a = s.bufByte a := by
  refine (State.procLoop_keeps (fun u => u.cfg = s.cfg ∧ u.bufByte a = s.bufByte a) nch m
    { s with st := .processing } ?_ ⟨rfl, rfl⟩).2
  rintro sec - c hc n hn u ⟨hcfg, hu⟩
  have hne : a / 4 ≠ wordAddr u.cfg c n := hcfg ▸ h c hc n hn
  exact ⟨hcfg, ((State.setDelay sec c _ u).bufByte_setBufWord c n a _).trans ((if_neg hne).trans hu)⟩

theorem exec_wrb_bufByte {c n a : Nat} {v : F32} (h : exec (.wrb c n v) s = .next t)
    (ha : a / 4 ≠ wordAddr s.cfg c n) : t.bufByte a = s.bufByte a := by
  obtain ⟨-, rfl⟩ | ⟨-, rfl⟩ := execWrb_next h
  · exact (s.bufByte_setBufWord c n a v).trans (if_neg ha)
  · rfl

theorem exec_proc_bufByte {nch m a : Nat} (h : exec (.proc nch m) s = .next t)
    (ha : ∀ c < nch, ∀ n < m, a / 4 ≠ wordAddr s.cfg c n) : t.bufByte a = s.bufByte a := by
  obtain ⟨-, -, -, -, rfl⟩ | ⟨-, -, -, rfl⟩ | ⟨-, -, rfl⟩ | ⟨-, rfl⟩ := execProc_next h
  · exact s.bufByte_process ha
  all_goals rfl

theorem exec_other_bufByte (h : exec i s = .next t) (hw : ∀ c n v, i ≠ .wrb c n v) (hp : ∀ nch m, i ≠ .proc nch m)
    (a : Nat) : t.bufByte a = s.bufByte a := by
  cases i with
  | prep => obtain ⟨-, rfl⟩ | ⟨-, rfl⟩ := execPrep_next h <;> rfl
  | rel => rw [execRel_next h]; rfl
  | rst => obtain ⟨-, rfl⟩ | ⟨-, rfl⟩ := execRst_next h <;> rfl
  | ldc => obtain ⟨-, ix, -, rfl⟩ | ⟨-, -, rfl⟩ | ⟨-, rfl⟩ := execLdc_next h <;> rfl
  | cmt => obtain ⟨-, -, rfl⟩ | ⟨-, -, rfl⟩ | ⟨-, rfl⟩ := execCmt_next h <;> rfl
  | proc nch m => exact absurd rfl (hp nch m)
  | wrb c n v => exact absurd rfl (hw c n v)
  | rdb => obtain ⟨-, rfl⟩ | ⟨-, rfl⟩ := execRdb_next h <;> rfl
  | rds => obtain ⟨v, -, rfl⟩ | ⟨-, rfl⟩ := execRds_next h <;> rfl

/-- Settles O22: WRB and PROC write by `State.setBufWord`, the other commands do not write BUF, and WRB's and RDB's one
check is the word's place. -/
theorem onlyWrbAndProcWriteBuf : Obligations.OnlyWrbAndProcWriteBuf := by
  refine ⟨fun s t i h => ⟨?wrb, ?proc, exec_other_bufByte h⟩, fun s c n v hc hn => ⟨?write, ?read⟩⟩
  case wrb =>
    rintro c n v rfl a
    exact exec_wrb_bufByte h
  case proc =>
    rintro nch m rfl a
    exact exec_proc_bufByte h
  case write =>
    exact ⟨_, execWrb_of_legal (bufLegal_iff.2 ⟨hc, hn⟩), rfl,
      (s.bufWord_setBufWord v hn hn).trans (if_pos ⟨rfl, rfl⟩)⟩
  case read => exact ⟨_, execRdb_of_legal (bufLegal_iff.2 ⟨hc, hn⟩), rfl⟩

/-- Settles O42: both words lie in BUF, so neither command fails, and two words share no address. -/
theorem writtenWordIsReadBack : Obligations.WrittenWordIsReadBack := by
  intro s t u c n c' n' v hc hn hc' hn' ht hu
  cases ht.symm.trans (execWrb_of_legal (bufLegal_iff.2 ⟨hc, hn⟩))
  cases hu.symm.trans (execRdb_of_legal (bufLegal_iff.2 ⟨hc', hn'⟩))
  exact congrArg some (s.bufWord_setBufWord v hn hn')

/-! PROC's registers. -/

@[simp] theorem State.process_fs (s : State) (nch m : Nat) : (s.process nch m).fs = s.fs := by
  rw [State.process, State.procLoop_same { s with st := .processing } nch m]

@[simp] theorem State.process_maxblk (s : State) (nch m : Nat) : (s.process nch m).maxblk = s.maxblk := by
  rw [State.process, State.procLoop_same { s with st := .processing } nch m]

@[simp] theorem State.process_shd (s : State) (nch m : Nat) : (s.process nch m).shd = s.shd := by
  rw [State.process, State.procLoop_same { s with st := .processing } nch m]

@[simp] theorem State.process_shdv (s : State) (nch m : Nat) : (s.process nch m).shdv = s.shdv := by
  rw [State.process, State.procLoop_same { s with st := .processing } nch m]

@[simp] theorem State.process_act (s : State) (nch m : Nat) : (s.process nch m).act = s.act := by
  rw [State.process, State.procLoop_same { s with st := .processing } nch m]

@[simp] theorem State.process_av (s : State) (nch m : Nat) : (s.process nch m).av = s.av := by
  rw [State.process, State.procLoop_same { s with st := .processing } nch m]

theorem State.process_zero (s : State) (nch : Nat) (h : s.st = .prepared) : s.process nch 0 = s := by
  rw [State.process, State.procLoop_zero, ← h]

/-- Settles O34: the loop nest of an empty block is empty, and ST is Prepared before and after it. -/
theorem procOfAnEmptyBlockChangesNothing : Obligations.ProcOfAnEmptyBlockChangesNothing := by
  rintro s nch ⟨hst, h1, hn, hm, hav⟩
  simp only [exec, execProc]
  rw [if_pos hst, if_pos (blockLegal_iff.2 ⟨h1, hn, hm⟩), if_pos hav, if_pos (Nat.zero_le _), s.process_zero nch hst]
  rfl

/-! ACT and AV. -/

/-- A command that ends with AV set found it set and left ACT, or is the CMT that committed the staging bank (R18,
R52). -/
theorem exec_committed (h : exec i s = .next t) (hav : t.av = true) :
    (s.av = true ∧ t.act = s.act) ∨ (i = .cmt ∧ s.allStaged = true ∧ t.act = s.shd) := by
  cases i with
  | prep =>
    obtain ⟨-, rfl⟩ | ⟨-, rfl⟩ := execPrep_next h
    · cases hav
    · exact .inl ⟨hav, rfl⟩
  | rel =>
    cases execRel_next h
    cases hav
  | rst => obtain ⟨-, rfl⟩ | ⟨-, rfl⟩ := execRst_next h <;> exact .inl ⟨hav, rfl⟩
  | ldc => obtain ⟨-, ix, -, rfl⟩ | ⟨-, -, rfl⟩ | ⟨-, rfl⟩ := execLdc_next h <;> exact .inl ⟨hav, rfl⟩
  | cmt =>
    obtain ⟨-, ha, rfl⟩ | ⟨-, -, rfl⟩ | ⟨-, rfl⟩ := execCmt_next h
    · exact .inr ⟨rfl, ha, rfl⟩
    all_goals exact .inl ⟨hav, rfl⟩
  | proc nch m =>
    obtain ⟨-, -, ha, -, rfl⟩ | ⟨-, -, -, rfl⟩ | ⟨-, -, rfl⟩ | ⟨-, rfl⟩ := execProc_next h
    · exact .inl ⟨ha, s.process_act nch m⟩
    all_goals exact .inl ⟨hav, rfl⟩
  | wrb => obtain ⟨-, rfl⟩ | ⟨-, rfl⟩ := execWrb_next h <;> exact .inl ⟨hav, rfl⟩
  | rdb => obtain ⟨-, rfl⟩ | ⟨-, rfl⟩ := execRdb_next h <;> exact .inl ⟨hav, rfl⟩
  | rds => obtain ⟨v, -, rfl⟩ | ⟨-, rfl⟩ := execRds_next h <;> exact .inl ⟨hav, rfl⟩

/-- Settles O23: AV is set after the command. -/
theorem onlyCmtChangesTheActiveBank : Obligations.OnlyCmtChangesTheActiveBank := by
  intro s t i h _ hav
  obtain ⟨-, hact⟩ | ⟨hi, -, hact⟩ := exec_committed h hav
  · exact .inl hact
  · exact .inr ⟨hi, hact⟩

/-- Settles O30: PREP leaves ST Prepared with AV and every valid bit clear, so both commands come to the check on them. -/
theorem prepForgetsTheCoefficients : Obligations.PrepForgetsTheCoefficients := by
  intro s t b fs h hok
  obtain ⟨hl, rfl⟩ | ⟨-, rfl⟩ := execPrep_next h
  case inr => cases hok
  constructor
  · intro nch m h1 hn hm
    have hm' : m ≤ (BitVec.ofNat 16 b).toNat := hm.trans_eq (toNat_maxblk_of_prepLegal hl).symm
    exact ⟨_, execProc_of_not_committed rfl (blockLegal_iff.2 ⟨h1, hn, hm'⟩) rfl, rfl⟩
  · exact ⟨_, execCmt_of_not_allStaged rfl (allStaged_eq_false_of_noneStaged rfl), rfl⟩

/-! The valid bits. -/

theorem stagedValid_of_noneStaged (h : s.shdv = noneStaged s.cfg) (sec : Nat) (ix : CoefIx) :
    s.stagedValid sec ix ≠ some true := by
  simp only [State.stagedValid, h, noneStaged, List.getElem?_replicate]
  split_ifs <;> cases ix <;> simp [Five.get]

/-- An LDC sets the valid bit it names and no other; a section the bank does not have has none (log 15). -/
theorem stagedValid_of_stage {sec sec' : Nat} {ix ix' : CoefIx} {v : F32}
    (h : (State.stage sec' ix' v s).stagedValid sec ix = some true) :
    s.stagedValid sec ix = some true ∨ (sec = sec' ∧ ix = ix') := by
  by_cases hsec : sec' < s.shdv.length
  · rw [State.stagedValid_stage s ix' v hsec] at h
    split_ifs at h with hix
    · exact .inr hix
    · exact .inl h
  · have hsame : (State.stage sec' ix' v s).shdv = s.shdv := List.modify_eq_self (Nat.not_lt.1 hsec)
    rw [State.stagedValid, hsame] at h
    exact .inl h

/-- A valid bit set after a command was set before, or the command is the LDC of that very word (R17, R90). -/
theorem exec_stagedValid {sec : Nat} {ix : CoefIx} (h : exec i s = .next t) (hv : t.stagedValid sec ix = some true) :
    s.stagedValid sec ix = some true ∨
    ∃ v, i = .ldc sec ix.index v ∧ (sec < s.shd.length → t.stagedWord sec ix = some v) := by
  cases i with
  | prep =>
    obtain ⟨-, rfl⟩ | ⟨-, rfl⟩ := execPrep_next h
    · exact absurd hv (stagedValid_of_noneStaged rfl sec ix)
    · exact .inl hv
  | rel =>
    cases execRel_next h
    exact absurd hv (stagedValid_of_noneStaged rfl sec ix)
  | rst => obtain ⟨-, rfl⟩ | ⟨-, rfl⟩ := execRst_next h <;> exact .inl hv
  | ldc sec' k v =>
    obtain ⟨-, ix', hc, rfl⟩ | ⟨-, -, rfl⟩ | ⟨-, rfl⟩ := execLdc_next h
    · refine (stagedValid_of_stage (v := v) hv).imp_right ?_
      rintro ⟨rfl, rfl⟩
      obtain ⟨-, rfl⟩ := coefOperand_eq_some_iff.1 hc
      exact ⟨v, rfl, fun hsec => (s.stagedWord_stage ix v hsec sec ix).trans (if_pos ⟨rfl, rfl⟩)⟩
    all_goals exact .inl hv
  | cmt => obtain ⟨-, -, rfl⟩ | ⟨-, -, rfl⟩ | ⟨-, rfl⟩ := execCmt_next h <;> exact .inl hv
  | proc nch m =>
    obtain ⟨-, -, -, -, rfl⟩ | ⟨-, -, -, rfl⟩ | ⟨-, -, rfl⟩ | ⟨-, rfl⟩ := execProc_next h
    · left
      rw [State.stagedValid, ← s.process_shdv nch m]
      exact hv
    all_goals exact .inl hv
  | wrb => obtain ⟨-, rfl⟩ | ⟨-, rfl⟩ := execWrb_next h <;> exact .inl hv
  | rdb => obtain ⟨-, rfl⟩ | ⟨-, rfl⟩ := execRdb_next h <;> exact .inl hv
  | rds => obtain ⟨v, -, rfl⟩ | ⟨-, rfl⟩ := execRds_next h <;> exact .inl hv

/-! Of all events only a command word can carry a CMT or an LDC, and a hardware reset clears the bits. -/

theorem runEvent_committed {e : HostEvent} (h : runEvent e s = .next t) (hav : t.av = true) :
    s.av = true ∨ ∃ w, e = .command w ∧ decode w = .ok .cmt ∧ s.allStaged = true ∧ t.act = s.shd := by
  obtain ⟨i, hi, hfrom⟩ | rfl | ⟨rfl, -⟩ := runEvent_cases h
  · obtain ⟨hold, -⟩ | ⟨rfl, ha, hact⟩ := exec_committed hi hav
    · exact .inl hold
    · obtain ⟨w, rfl, hd⟩ | ⟨_, _, _, ⟨⟩⟩ | ⟨_, _, ⟨⟩⟩ := hfrom
      exact .inr ⟨w, rfl, hd, ha, hact⟩
  · exact .inl hav
  · cases hav

theorem runEvent_stagedValid {e : HostEvent} {sec : Nat} {ix : CoefIx} (h : runEvent e s = .next t)
    (hv : t.stagedValid sec ix = some true) : s.stagedValid sec ix = some true ∨
      ∃ w v, e = .command w ∧ decode w = .ok (.ldc sec ix.index v) ∧
        (sec < s.shd.length → t.stagedWord sec ix = some v) := by
  obtain ⟨i, hi, hfrom⟩ | rfl | ⟨rfl, -⟩ := runEvent_cases h
  · obtain hold | ⟨v, rfl, hword⟩ := exec_stagedValid hi hv
    · exact .inl hold
    · obtain ⟨w, rfl, hd⟩ | ⟨_, _, _, ⟨⟩⟩ | ⟨_, _, ⟨⟩⟩ := hfrom
      exact .inr ⟨w, v, rfl, hd, hword⟩
  · exact .inl hv
  · exact absurd hv (stagedValid_of_noneStaged rfl sec ix)

/-- Settles O50: a step that waits changes nothing, and one that runs an event sets a bit by a CMT or an LDC only. -/
theorem coefficientsComeOnlyByLdcAndCmt : Obligations.CoefficientsComeOnlyByLdcAndCmt := by
  intro s t h
  obtain ⟨-, rfl⟩ | ⟨e, rest, hp, hx⟩ := step_next h
  · exact ⟨fun h0 h1 => absurd h1 (by simp [h0]), fun sec ix h0 h1 => absurd h1 (by simp [h0])⟩
  constructor
  · intro h0 h1
    obtain hold | ⟨w, rfl, hd, ha, hact⟩ := runEvent_committed hx h1
    · exact absurd (h0.symm.trans hold) Bool.false_ne_true
    · exact ⟨w, rest, hp, hd, ha, hact⟩
  · intro sec ix h0 h1
    obtain hold | ⟨w, v, rfl, hd, hword⟩ := runEvent_stagedValid hx h1
    · exact absurd (h0.symm.trans hold) (by decide)
    · exact ⟨w, rest, v, hp, hd, hword⟩

end Sys2Proof.Machine
end

section
/-! One section step (R105): the pass-through set (R109), and non-finite values that stay (R116). -/

namespace Sys2Proof.Machine

variable {nan x : F32}

/-! The products that the pass-through set takes of a finite sample (R111). -/

/-- 1.0 is 2^149 units of 2^-149. -/
theorem magnitude_one : magnitude 0x3F800000#32 = 2 ^ 149 := by decide

/-- Multiplying by 1.0 changes no finite number, a zero's sign included. -/
theorem fmul_one_left (h : isFinite x = true) : fmul nan 0x3F800000#32 x = x := by
  have hs : (signBit 0x3F800000#32 ^^ signBit x) = signBit x := Bool.false_xor _
  cases hz : isZero x
  · rw [fmul_of_isFinite (by decide) h (by decide) hz, hs, magnitude_one, Nat.mul_comm,
      roundBits_exact h (by positivity), withSign_self]
  · rw [fmul_of_isZero (by decide) h (.inr hz), hs, ← eq_withSign_of_isZero hz]

/-- Multiplying a finite number by +0 gives the zero of its sign. -/
theorem fmul_zero_left (h : isFinite x = true) : fmul nan 0#32 x = withSign (signBit x) 0 := by
  rw [fmul_of_isZero (by decide) h (.inl (by decide)), show signBit 0#32 = false from rfl, Bool.false_xor]

/-- Adding +0 to a zero gives +0. -/
theorem fadd_zero_right_of_isZero (h : isZero x = true) : fadd nan x 0#32 = 0#32 := by
  rw [fadd_of_isZero h (by decide), show signBit 0#32 = false from rfl, Bool.and_false]
  rfl

/-! The section step over its output. -/

/-- R105's delay elements, for a step whose output is known. -/
theorem sectionStep_eq {nan : Nat → F32} {k : Five F32} {d : Delay} {y : F32}
    (hy : fadd (nan 1) (fmul (nan 0) k.b0 x) d.z1 = y) :
    sectionStep nan k d x =
      (y, ⟨fadd (nan 5) (fsub (nan 4) (fmul (nan 2) k.b1 x) (fmul (nan 3) k.a1 y)) d.z2,
        fsub (nan 8) (fmul (nan 6) k.b2 x) (fmul (nan 7) k.a2 y)⟩) := by
  subst hy
  rfl

/-! The pass-through set on a cleared section (R109). -/

/-- b0 = 1.0 and the other four +0. -/
abbrev passSet : Five F32 := ⟨0x3F800000#32, 0#32, 0#32, 0#32, 0#32⟩

/-- Both delay elements +0. -/
abbrev clearedDelay : Delay := ⟨0#32, 0#32⟩

theorem sectionStep_passSet_of_ne_zero (nan : Nat → F32) (hf : isFinite x = true) (hz : isZero x = false) :
    sectionStep nan passSet clearedDelay x = (x, clearedDelay) := by
  have hy : fadd (nan 1) (fmul (nan 0) passSet.b0 x) clearedDelay.z1 = x := by
    rw [fmul_one_left hf, fadd_of_isZero_right hf hz (by decide)]
  have hzero : isFinite (withSign (signBit x) 0) = true := isFinite_of_isZero (isZero_withSign_zero _)
  rw [sectionStep_eq hy]
  simp only [fmul_zero_left hf, fsub_self _ hzero, fadd_zero_right_of_isZero (x := 0x00000000#32) (by decide)]

/-- A zero comes out as +0 and is left in the second delay element with its sign. -/
theorem sectionStep_passSet_of_isZero (nan : Nat → F32) (hz : isZero x = true) :
    sectionStep nan passSet clearedDelay x = (0#32, ⟨0#32, x⟩) := by
  have hf := isFinite_of_isZero hz
  have hy : fadd (nan 1) (fmul (nan 0) passSet.b0 x) clearedDelay.z1 = 0#32 := by
    rw [fmul_one_left hf, fadd_zero_right_of_isZero hz]
  have hb (n : F32) : fmul n 0#32 x = x := by rw [fmul_zero_left hf, ← eq_withSign_of_isZero hz]
  have ha (n : F32) : fmul n 0#32 0#32 = 0#32 := by rw [fmul_zero_left (by decide)]; rfl
  have hsub (n : F32) : fsub n x 0#32 = x := by
    rw [fsub_of_isZero n hz (by decide), show signBit 0#32 = false from rfl, Bool.not_false, Bool.and_true,
      ← eq_withSign_of_isZero hz]
  rw [sectionStep_eq hy]
  simp only [hb, ha, hsub, fadd_zero_right_of_isZero hz]

/-! Values that stay through the arithmetic (R116). -/

/-- A property that a result of R111 to R113 has as soon as an operand has it. -/
structure Sticky (B : F32 → Prop) : Prop where
  fmul : ∀ {nan a b : F32}, isNaN nan = true → B a ∨ B b → B (fmul nan a b)
  fadd : ∀ {nan a b : F32}, isNaN nan = true → B a ∨ B b → B (fadd nan a b)
  fneg : ∀ {a : F32}, B a → B (fneg a)
  agree : ∀ {a b : F32}, wordsAgree a b → B b → B a

theorem sticky_isNaN : Sticky fun a => isNaN a = true where
  fmul hn h := by
    rw [isNaN_fmul hn, fmulInvalid_iff]
    tauto
  fadd hn h := by
    rw [isNaN_fadd hn, faddInvalid_iff]
    tauto
  fneg h := (isNaN_fneg _).trans h
  agree hab h := hab.nan.trans h

theorem sticky_not_isFinite : Sticky fun a => isFinite a = false where
  fmul hn h := isFinite_fmul hn h
  fadd hn h := isFinite_fadd hn h
  fneg h := (isFinite_fneg _).trans h
  agree hab h := hab.finite.trans h

section
variable {B : F32 → Prop} (hB : Sticky B) {ns : Nat → F32} (hn : ∀ j, isNaN (ns j) = true) {k : Five F32} {d : Delay}
include hB hn

theorem Sticky.fsub {a b : F32} (j : Nat) (h : B a ∨ B b) : B (fsub (ns j) a b) :=
  hB.fadd (hn j) (h.imp_right hB.fneg)

theorem Sticky.output (h : B x ∨ B d.z1) : B (sectionStep ns k d x).1 :=
  hB.fadd (hn 1) (h.imp_left fun hx => hB.fmul (hn 0) (.inr hx))

theorem Sticky.z1_of_output (h : B (sectionStep ns k d x).1) : B (sectionStep ns k d x).2.z1 :=
  hB.fadd (hn 5) (.inl (hB.fsub hn 4 (.inr (hB.fmul (hn 3) (.inr h)))))

theorem Sticky.z2_of_output (h : B (sectionStep ns k d x).1) : B (sectionStep ns k d x).2.z2 :=
  hB.fsub hn 8 (.inr (hB.fmul (hn 7) (.inr h)))

theorem Sticky.z1_of_z2 (h : B d.z2) : B (sectionStep ns k d x).2.z1 := hB.fadd (hn 5) (.inr h)

end

/-- Settles O51: being a NaN and being non-finite stay through the arithmetic, and R105 feeds the output to both delay
elements. -/
theorem nonFiniteOutputEntersTheState : Obligations.NonFiniteOutputEntersTheState := by
  intro d k z x
  have hn (j : Nat) : isNaN (freshNaN (d + j)) = true := isNaN_freshNaN _
  exact ⟨fun h => ⟨sticky_isNaN.z1_of_output hn h, sticky_isNaN.z2_of_output hn h⟩,
    fun h => ⟨sticky_not_isFinite.z1_of_output hn h, sticky_not_isFinite.z2_of_output hn h⟩,
    sticky_isNaN.output hn, sticky_not_isFinite.output hn⟩

/-- An infinity times +0 is a NaN. -/
theorem isNaN_fmul_zero_left (hn : isNaN nan = true) (h : isFinite x = false) : isNaN (fmul nan 0#32 x) = true := by
  rw [isNaN_fmul hn, fmulInvalid_iff]
  obtain hx | hx := (isFinite_eq_false_iff x).1 h
  · exact .inr (.inl hx)
  · exact .inr (.inr (.inl ⟨by decide, hx⟩))

/-- Settles O48: a finite sample passes the product with 1.0 and the sums with +0; a non-finite one makes a NaN of the
products with +0. -/
theorem passThroughSectionPassesSamples : Obligations.PassThroughSectionPassesSamples := by
  intro d x
  refine ⟨sectionStep_passSet_of_ne_zero _, sectionStep_passSet_of_isZero _ (by decide),
    sectionStep_passSet_of_isZero _ (by decide), fun h => ?_⟩
  have hn (j : Nat) : isNaN (freshNaN (d + j)) = true := isNaN_freshNaN _
  exact ⟨sticky_isNaN.fadd (hn 5) (.inl (sticky_isNaN.fsub hn 4 (.inl (isNaN_fmul_zero_left (hn 2) h)))),
    sticky_isNaN.fsub hn 8 (.inl (isNaN_fmul_zero_left (hn 6) h))⟩

end Sys2Proof.Machine
end

section
/-! The cascade on the samples of one channel (R104): blocks one after the other (R108), agreement (R115), and properties
that the samples and delay elements keep (R116, R121). -/

namespace Sys2Proof.Machine

/-! One section (R104). -/

@[simp] theorem sectionRun_nil (k : Five F32) (d : Delay) : sectionRun k d [] = ([], d) := rfl

@[simp] theorem sectionRun_cons (k : Five F32) (d : Delay) (x : F32) (xs : List F32) :
    sectionRun k d (x :: xs) =
      ((sectionStep (fun _ => someNaN) k d x).1 :: (sectionRun k (sectionStep (fun _ => someNaN) k d x).2 xs).1,
        (sectionRun k (sectionStep (fun _ => someNaN) k d x).2 xs).2) := rfl

@[simp] theorem length_sectionRun (k : Five F32) (d : Delay) (xs : List F32) :
    (sectionRun k d xs).1.length = xs.length := by
  induction xs generalizing d with
  | nil => rfl
  | cons x xs ih => simp [ih]

/-- The section hands its delay elements from one block to the next (R108). -/
theorem sectionRun_append (k : Five F32) (d : Delay) (xs ys : List F32) :
    sectionRun k d (xs ++ ys) =
      ((sectionRun k d xs).1 ++ (sectionRun k (sectionRun k d xs).2 ys).1,
        (sectionRun k (sectionRun k d xs).2 ys).2) := by
  induction xs generalizing d with
  | nil => rfl
  | cons x xs ih => simp [ih]

theorem sectionRun_agree (k : Five F32) {d d' : Delay} (hd : delaysAgree d d') {xs xs' : List F32}
    (hx : listsAgree xs xs') :
    listsAgree (sectionRun k d xs).1 (sectionRun k d' xs').1 ∧
      delaysAgree (sectionRun k d xs).2 (sectionRun k d' xs').2 := by
  induction hx generalizing d d' with
  | nil => exact ⟨List.Forall₂.nil, hd⟩
  | cons hx _ ih =>
    obtain ⟨hy, hd'⟩ := sectionStep_agree (fun _ => isNaN_someNaN) (fun _ => isNaN_someNaN) k hd hx
    obtain ⟨hys, hlast⟩ := ih hd'
    exact ⟨List.Forall₂.cons hy hys, hlast⟩

/-! The cascade (R104). -/

@[simp] theorem cascadeRun_nil (xs : List F32) : cascadeRun [] xs = (xs, []) := rfl

@[simp] theorem cascadeRun_cons (p : Five F32 × Delay) (S : List (Five F32 × Delay)) (xs : List F32) :
    cascadeRun (p :: S) xs =
      ((cascadeRun S (sectionRun p.1 p.2 xs).1).1,
        (sectionRun p.1 p.2 xs).2 :: (cascadeRun S (sectionRun p.1 p.2 xs).1).2) := rfl

@[simp] theorem length_cascadeRun (S : List (Five F32 × Delay)) (xs : List F32) :
    (cascadeRun S xs).1.length = xs.length := by
  induction S generalizing xs with
  | nil => rfl
  | cons p S ih => simp [ih]

/-- The sections `S` with the delay elements `ds`. -/
def withDelays (S : List (Five F32 × Delay)) (ds : List Delay) : List (Five F32 × Delay) :=
  List.zipWith (fun p d => (p.1, d)) S ds

/-- The cascade hands its delay elements from one block to the next (R108). -/
theorem cascadeRun_append (S : List (Five F32 × Delay)) (xs ys : List F32) :
    cascadeRun S (xs ++ ys) =
      ((cascadeRun S xs).1 ++ (cascadeRun (withDelays S (cascadeRun S xs).2) ys).1,
        (cascadeRun (withDelays S (cascadeRun S xs).2) ys).2) := by
  induction S generalizing xs ys with
  | nil => rfl
  | cons p S ih => simp [withDelays, sectionRun_append, ih]

/-- The outputs of the first samples do not depend on what follows them (R120). -/
theorem take_cascadeRun (S : List (Five F32 × Delay)) (xs : List F32) (k : Nat) :
    (cascadeRun S xs).1.take k = (cascadeRun S (xs.take k)).1 := by
  by_cases hk : k ≤ xs.length
  · have happ := cascadeRun_append S (xs.take k) (xs.drop k)
    rw [List.take_append_drop] at happ
    rw [happ, List.take_left' (by simp [hk])]
  · have hlen : xs.length ≤ k := by omega
    rw [List.take_of_length_le (by simpa using hlen), List.take_of_length_le hlen]

/-- Sections with the same coefficients and agreeing delay elements. -/
def sectionsAgree (S S' : List (Five F32 × Delay)) : Prop :=
  List.Forall₂ (fun p q => p.1 = q.1 ∧ delaysAgree p.2 q.2) S S'

theorem cascadeRun_agree {S S' : List (Five F32 × Delay)} (hS : sectionsAgree S S') {xs xs' : List F32}
    (hx : listsAgree xs xs') :
    listsAgree (cascadeRun S xs).1 (cascadeRun S' xs').1 ∧
      List.Forall₂ delaysAgree (cascadeRun S xs).2 (cascadeRun S' xs').2 := by
  induction hS generalizing xs xs' with
  | nil => exact ⟨hx, List.Forall₂.nil⟩
  | @cons p q _ _ hpq _ ih =>
    obtain ⟨hk, hd⟩ := hpq
    obtain ⟨hys, hlast⟩ := sectionRun_agree p.1 hd hx
    rw [cascadeRun_cons, cascadeRun_cons, ← hk]
    exact ⟨(ih hys).1, List.Forall₂.cons hlast (ih hys).2⟩

/-! Non-finite values (R116): `Sticky` properties over a block. -/

section
variable {B : F32 → Prop} (hB : Sticky B) {k : Five F32} {d : Delay} {xs : List F32}
include hB

/-- One step of the cascade's sections on a sample or a first delay element of the kind. -/
theorem Sticky.step {x : F32} (h : B x ∨ B d.z1) :
    B (sectionStep (fun _ => someNaN) k d x).1 ∧ B (sectionStep (fun _ => someNaN) k d x).2.z1 ∧
      B (sectionStep (fun _ => someNaN) k d x).2.z2 :=
  have hn (_ : Nat) : isNaN someNaN = true := isNaN_someNaN
  have hy := hB.output hn h
  ⟨hy, hB.z1_of_output hn hy, hB.z2_of_output hn hy⟩

theorem Sticky.run_delays (h1 : B d.z1) (h2 : B d.z2) (xs : List F32) :
    B (sectionRun k d xs).2.z1 ∧ B (sectionRun k d xs).2.z2 := by
  induction xs generalizing d with
  | nil => exact ⟨h1, h2⟩
  | cons x xs ih =>
    obtain ⟨-, hz1, hz2⟩ := hB.step (k := k) (x := x) (.inr h1)
    rw [sectionRun_cons]
    exact ih hz1 hz2

/-- A first delay element of the kind makes every output of the kind. -/
theorem Sticky.run_of_z1 (h : B d.z1) (xs : List F32) : ∀ y ∈ (sectionRun k d xs).1, B y := by
  induction xs generalizing d with
  | nil => nofun
  | cons x xs ih =>
    obtain ⟨hy, hz1, -⟩ := hB.step (k := k) (x := x) (.inr h)
    rw [sectionRun_cons]
    exact List.forall_mem_cons.2 ⟨hy, ih hz1⟩

/-- After one sample it is in both delay elements. -/
theorem Sticky.run_delays_of_z1 (h : B d.z1) (hlen : 1 ≤ xs.length) :
    B (sectionRun k d xs).2.z1 ∧ B (sectionRun k d xs).2.z2 := by
  obtain ⟨x, xs, rfl⟩ := List.exists_cons_of_length_pos hlen
  obtain ⟨-, hz1, hz2⟩ := hB.step (k := k) (x := x) (.inr h)
  rw [sectionRun_cons]
  exact hB.run_delays hz1 hz2 xs

/-- A second delay element of the kind is in the first one after a sample, and so in every later output. -/
theorem Sticky.run_of_z2 (h : B d.z2) (xs : List F32) : ∀ y ∈ (sectionRun k d xs).1.drop 1, B y := by
  cases xs with
  | nil => nofun
  | cons x xs =>
    rw [sectionRun_cons, List.drop_one, List.tail_cons]
    exact hB.run_of_z1 (hB.z1_of_z2 (fun _ => isNaN_someNaN) h) xs

theorem Sticky.run_z1_of_z2 (h : B d.z2) (hlen : 1 ≤ xs.length) : B (sectionRun k d xs).2.z1 := by
  obtain ⟨x, xs, rfl⟩ := List.exists_cons_of_length_pos hlen
  have hz1 := hB.z1_of_z2 (fun _ => isNaN_someNaN) (k := k) (x := x) h
  rw [sectionRun_cons]
  cases xs with
  | nil => exact hz1
  | cons x' xs => exact (hB.run_delays_of_z1 hz1 (by simp)).1

theorem Sticky.run_z2_of_z2 (h : B d.z2) (hlen : 2 ≤ xs.length) : B (sectionRun k d xs).2.z2 := by
  obtain ⟨x, xs, rfl⟩ := List.exists_cons_of_length_pos (Nat.zero_lt_of_lt hlen)
  rw [sectionRun_cons]
  exact (hB.run_delays_of_z1 (hB.z1_of_z2 (fun _ => isNaN_someNaN) h) (Nat.le_of_succ_le_succ hlen)).2

/-- A sample of the kind makes its own and every later output of the kind, and both delay elements left. -/
theorem Sticky.run_of_sample {n : Nat} {x : F32} (hx : xs[n]? = some x) (h : B x) :
    (∀ y ∈ (sectionRun k d xs).1.drop n, B y) ∧ B (sectionRun k d xs).2.z1 ∧ B (sectionRun k d xs).2.z2 := by
  induction xs generalizing d n with
  | nil => cases hx
  | cons x' xs ih =>
    rw [sectionRun_cons]
    cases n with
    | zero =>
      obtain rfl : x' = x := by simpa using hx
      obtain ⟨hy, hz1, hz2⟩ := hB.step (k := k) (d := d) (.inl h)
      exact ⟨List.forall_mem_cons.2 ⟨hy, hB.run_of_z1 hz1 xs⟩, hB.run_delays hz1 hz2 xs⟩
    | succ n => exact ih (by simpa using hx)

end

/-- The `n`-th word, where the list has one, has the property. -/
def heldAt (B : F32 → Prop) (n : Nat) (xs : List F32) : Prop := ∀ x ∈ xs[n]?, B x

theorem heldAt_of_forall_mem_drop {B : F32 → Prop} {m n : Nat} {xs : List F32} (h : ∀ x ∈ xs.drop m, B x)
    (hn : m ≤ n) : heldAt B n xs := by
  intro x hx
  refine h x (List.mem_of_getElem? (i := n - m) ?_)
  rw [List.getElem?_drop, Nat.add_sub_cancel' hn]
  exact hx

section
variable {B : F32 → Prop} (hB : Sticky B)
include hB

theorem Sticky.run_heldAt (k : Five F32) (d : Delay) {n : Nat} {xs : List F32} (h : heldAt B n xs) :
    heldAt B n (sectionRun k d xs).1 := by
  intro y hy
  have hn : n < xs.length := by
    have := (List.getElem?_eq_some_iff.1 hy).1
    rwa [length_sectionRun] at this
  have hx := List.getElem?_eq_getElem hn
  exact heldAt_of_forall_mem_drop (hB.run_of_sample hx (h _ hx)).1 le_rfl y hy

theorem Sticky.cascade_heldAt (S : List (Five F32 × Delay)) {n : Nat} {xs : List F32} (h : heldAt B n xs) :
    heldAt B n (cascadeRun S xs).1 := by
  induction S generalizing xs with
  | nil => exact h
  | cons p S ih => exact ih (hB.run_heldAt p.1 p.2 h)

/-- A section of the cascade runs on some block: what is of the kind in the cascade's samples is so in the section's,
and what is so in the section's outputs is so in the cascade's. -/
theorem Sticky.cascade_section {S : List (Five F32 × Delay)} {sec : Nat} {p : Five F32 × Delay}
    (hp : S[sec]? = some p) (xs : List F32) :
    ∃ ys, ys.length = xs.length ∧ (cascadeRun S xs).2[sec]? = some (sectionRun p.1 p.2 ys).2 ∧
      (∀ n, heldAt B n xs → heldAt B n ys) ∧
      (∀ n, heldAt B n (sectionRun p.1 p.2 ys).1 → heldAt B n (cascadeRun S xs).1) := by
  induction S generalizing sec xs with
  | nil => cases hp
  | cons q S ih =>
    rw [cascadeRun_cons]
    cases sec with
    | zero =>
      obtain rfl : q = p := by simpa using hp
      exact ⟨xs, rfl, rfl, fun _ => id, fun _ => hB.cascade_heldAt S⟩
    | succ sec =>
      obtain ⟨ys, hlen, hlast, hin, hout⟩ := ih (by simpa using hp) (sectionRun q.1 q.2 xs).1
      exact ⟨ys, hlen.trans (length_sectionRun ..), hlast, fun n hx => hin n (hB.run_heldAt q.1 q.2 hx), hout⟩

end

/-! Silence (R121): properties that a section step keeps when sample and delay elements have them. -/

/-- One step with the coefficients `k` leaves the property in the output and both delay elements. -/
def keptBy (Q : F32 → Prop) (k : Five F32) : Prop :=
  ∀ d x, Q d.z1 → Q d.z2 → Q x → Q (sectionStep (fun _ => someNaN) k d x).1 ∧
    Q (sectionStep (fun _ => someNaN) k d x).2.z1 ∧ Q (sectionStep (fun _ => someNaN) k d x).2.z2

variable {Q : F32 → Prop}

theorem sectionRun_kept {k : Five F32} (hk : keptBy Q k) {d : Delay} (h1 : Q d.z1) (h2 : Q d.z2) {xs : List F32}
    (hx : ∀ x ∈ xs, Q x) :
    (∀ y ∈ (sectionRun k d xs).1, Q y) ∧ Q (sectionRun k d xs).2.z1 ∧ Q (sectionRun k d xs).2.z2 := by
  induction xs generalizing d with
  | nil => exact ⟨nofun, h1, h2⟩
  | cons x xs ih =>
    obtain ⟨hx0, hxs⟩ := List.forall_mem_cons.1 hx
    obtain ⟨hy, h1', h2'⟩ := hk d x h1 h2 hx0
    obtain ⟨hys, hlast⟩ := ih h1' h2' hxs
    rw [sectionRun_cons]
    exact ⟨List.forall_mem_cons.2 ⟨hy, hys⟩, hlast⟩

theorem cascadeRun_kept {S : List (Five F32 × Delay)} (hS : ∀ p ∈ S, keptBy Q p.1 ∧ Q p.2.z1 ∧ Q p.2.z2)
    {xs : List F32} (hx : ∀ x ∈ xs, Q x) :
    (∀ y ∈ (cascadeRun S xs).1, Q y) ∧ ∀ d ∈ (cascadeRun S xs).2, Q d.z1 ∧ Q d.z2 := by
  induction S generalizing xs with
  | nil => exact ⟨hx, nofun⟩
  | cons p S ih =>
    obtain ⟨⟨hk, h1, h2⟩, hrest⟩ := List.forall_mem_cons.1 hS
    obtain ⟨hys, hlast⟩ := sectionRun_kept hk h1 h2 hx
    obtain ⟨hout, hds⟩ := ih hrest hys
    rw [cascadeRun_cons]
    exact ⟨hout, List.forall_mem_cons.2 ⟨hlast, hds⟩⟩

variable {k : Five F32}

/-- A property that products with the coefficients, sums and differences keep, a step keeps (R105). -/
theorem keptBy_of_closed (hmul : ∀ ix x, Q x → Q (fmul someNaN (k.get ix) x))
    (hadd : ∀ a b, Q a → Q b → Q (fadd someNaN a b)) (hsub : ∀ a b, Q a → Q b → Q (fsub someNaN a b)) :
    keptBy Q k := by
  intro d x h1 h2 hx
  have hy := hadd _ _ (hmul .b0 x hx) h1
  exact ⟨hy, hadd _ _ (hsub _ _ (hmul .b1 x hx) (hmul .a1 _ hy)) h2, hsub _ _ (hmul .b2 x hx) (hmul .a2 _ hy)⟩

/-- Finite coefficients keep zeros, of either sign. -/
theorem keptBy_isZero (hk : ∀ ix, isFinite (k.get ix) = true) : keptBy (fun a => isZero a = true) k := by
  have hadd (a b : F32) (ha : isZero a = true) (hb : isZero b = true) : isZero (fadd someNaN a b) = true := by
    rw [fadd_of_isZero ha hb]
    exact isZero_withSign_zero _
  refine keptBy_of_closed (fun ix x hx => ?_) hadd (fun a b ha hb => hadd a _ ha ((isZero_fneg b).trans hb))
  rw [fmul_of_isZero (hk ix) (isFinite_of_isZero hx) (.inr hx)]
  exact isZero_withSign_zero _

/-- Finite coefficients without a sign bit keep +0. -/
theorem keptBy_eq_zero (hk : ∀ ix, isFinite (k.get ix) = true) (hs : ∀ ix, signBit (k.get ix) = false) :
    keptBy (fun a => a = 0#32) k := by
  have hz : isZero 0#32 = true := by decide
  refine keptBy_of_closed ?_ ?_ ?_
  · rintro ix _ rfl
    rw [fmul_of_isZero (hk ix) (isFinite_of_isZero hz) (.inr hz), hs ix]
    rfl
  · rintro _ _ rfl rfl
    exact fadd_zero_right_of_isZero hz
  · rintro _ _ rfl rfl
    exact fsub_self someNaN (isFinite_of_isZero hz)

end Sys2Proof.Machine
end

section
/-! What a PROC leaves of the block, and of each channel (R101, R102, R107, R108, R116, R120, R121). -/

namespace Sys2Proof.Machine

variable {s s' t t' : State} {nch m c : Nat}

/-! Lists that agree entry by entry. -/

theorem delaysAgree.symm {d e : Delay} (h : delaysAgree d e) : delaysAgree e d := ⟨h.1.symm, h.2.symm⟩

theorem delaysAgree.trans {d e f : Delay} (h : delaysAgree d e) (g : delaysAgree e f) : delaysAgree d f :=
  ⟨wordsAgree.trans h.1 g.1, wordsAgree.trans h.2 g.2⟩

theorem wordsAgree.refl (a : F32) : wordsAgree a a := .inl rfl

theorem delaysAgree.refl (d : Delay) : delaysAgree d d := ⟨.refl _, .refl _⟩

section
variable {α β : Type}

theorem forall₂_range_map_iff {R : α → β → Prop} {f : Nat → α} {g : Nat → β} :
    List.Forall₂ R ((List.range m).map f) ((List.range m).map g) ↔ ∀ n < m, R (f n) (g n) := by
  simp only [List.forall₂_map_left_iff, List.forall₂_map_right_iff, List.forall₂_same, List.mem_range]

theorem getElem?_of_forall₂_range_map {R : α → β → Prop} {f : Nat → α} {bs : List β} {n : Nat}
    (h : List.Forall₂ R ((List.range m).map f) bs) (hn : n < m) : ∃ b, bs[n]? = some b ∧ R (f n) b := by
  have hlen : bs.length = m := by simpa using h.length_eq.symm
  have hb : n < bs.length := hlen ▸ hn
  refine ⟨bs[n], List.getElem?_eq_getElem hb, ?_⟩
  simpa using h.get (by simpa using hn) hb

/-- Lists that agree with agreeing lists agree. -/
theorem forall₂_of_agree {R : α → α → Prop} (hsymm : ∀ {a b}, R a b → R b a)
    (htrans : ∀ {a b c}, R a b → R b c → R a c) {as bs as' bs' : List α} (h : List.Forall₂ R as bs)
    (hb : List.Forall₂ R bs bs') (h' : List.Forall₂ R as' bs') : List.Forall₂ R as as' := by
  induction h generalizing as' bs' with
  | nil =>
    cases hb
    cases h'
    exact .nil
  | cons ha _ ih =>
    obtain _ | ⟨hab, hbs⟩ := hb
    obtain _ | ⟨ha', has'⟩ := h'
    exact .cons (htrans (htrans ha hab) (hsymm ha')) (ih hbs has')

end

/-! A channel's samples and sections. -/

theorem channelSamples_agree_iff :
    listsAgree (s.channelSamples c m) (t.channelSamples c m) ↔ ∀ n < m, wordsAgree (s.bufWord c n) (t.bufWord c n) :=
  forall₂_range_map_iff

theorem take_channelSamples (s : State) (c : Nat) {k : Nat} (hk : k ≤ m) :
    (s.channelSamples c m).take k = s.channelSamples c k := by
  rw [State.channelSamples, State.channelSamples, ← List.map_take, List.take_range, Nat.min_eq_left hk]

theorem channelSections_agree (hcfg : s'.cfg = s.cfg) (hact : s'.act = s.act)
    (hd : ∀ sec < s.cfg.nsec, delaysAgree (s.delay sec c) (s'.delay sec c)) :
    sectionsAgree (s.channelSections c) (s'.channelSections c) := by
  rw [State.channelSections, State.channelSections, hcfg]
  refine forall₂_range_map_iff.2 fun sec hsec => ⟨?_, hd sec hsec⟩
  simp only [State.activeCoefs, hact]

/-! What a PROC does, said once. -/

/-- A PROC passes its checks and runs, or fails. -/
theorem exec_proc_runs_or_fails (h : exec (.proc nch m) s = .next t) :
    (s.readyFor nch m ∧ m ≤ s.cfg.maxcap ∧ t = (s.process nch m).respond .ok 0#32) ∨
    (¬ s.readyFor nch m ∧ ∃ code, code ≠ .ok ∧ t = s.fail code) := by
  obtain ⟨hst, hb, hav, hm, rfl⟩ | ⟨-, -, hav, rfl⟩ | ⟨-, hb, rfl⟩ | ⟨hst, rfl⟩ := execProc_next h
  · obtain ⟨h1, hn, hmax⟩ := blockLegal_iff.1 hb
    exact .inl ⟨⟨hst, h1, hn, hmax, hav⟩, hm, rfl⟩
  · exact .inr ⟨fun ⟨_, _, _, _, ha⟩ => Bool.false_ne_true (hav.symm.trans ha), .nocoef, nofun, rfl⟩
  · refine .inr ⟨fun ⟨_, h1, hn, hmax, _⟩ => ?_, .range, nofun, rfl⟩
    exact Bool.false_ne_true (hb.symm.trans (blockLegal_iff.2 ⟨h1, hn, hmax⟩))
  · exact .inr ⟨fun ⟨hs, _⟩ => hst hs, .state, nofun, rfl⟩

/-- A PROC leaves the delay elements of the channels from N on, and every word but those of its block (R102 (b), (c)). -/
theorem State.Good.process_frame (hg : s.Good) (hn : nch ≤ s.cfg.nch) (hm : m ≤ s.cfg.maxcap) :
    (∀ sec c, nch ≤ c → (s.process nch m).delay sec c = s.delay sec c) ∧
    (∀ c n, n < s.cfg.maxcap → ¬ (c < nch ∧ n < m) → (s.process nch m).bufWord c n = s.bufWord c n) := by
  have hd : ∀ sec, 0 ≤ sec → sec < 0 + s.cfg.nsec → ∀ c < nch, s.hasDelay sec c :=
    fun sec _ hsec c hc => hg.hasDelay (by omega) (by omega)
  obtain ⟨-, hdelay, hword, -⟩ := procSections_spec nch m s.cfg.nsec 0 { s with st := .processing } hd hm
  rw [← List.range_eq_range'] at hdelay hword
  exact ⟨fun sec c hc => hdelay sec c (by omega), hword⟩

/-- Settles O33: the loop nest names the channels below N and the words of the block only, and writes no other
register. -/
theorem procLeavesTheRestAlone : Obligations.ProcLeavesTheRestAlone := by
  intro s t nch m hg h hok
  obtain ⟨⟨-, -, hn, -, -⟩, hm, rfl⟩ | ⟨-, code, hne, rfl⟩ := exec_proc_runs_or_fails h
  · exact ⟨(hg.process_frame hn hm).1, fun a => exec_proc_bufByte h,
      ⟨rfl, s.process_err nch m, s.process_fs nch m, s.process_maxblk nch m, s.process_shd nch m, s.process_shdv nch m,
        s.process_act nch m, s.process_av nch m, s.process_port nch m⟩⟩
  · exact absurd (Option.some_inj.1 hok) hne

/-- A PROC that passes its checks puts every channel it names through the cascade (R101, R104). -/
theorem exec_proc_filters (hg : s.Good) (hr : s.readyFor nch m) (h : exec (.proc nch m) s = .next t) (hc : c < nch) :
    listsAgree (t.channelSamples c m) (cascadeRun (s.channelSections c) (s.channelSamples c m)).1 ∧
    List.Forall₂ delaysAgree ((List.range s.cfg.nsec).map fun sec => t.delay sec c)
      (cascadeRun (s.channelSections c) (s.channelSamples c m)).2 := by
  cases h.symm.trans (execProc_of_readyFor hg hr)
  obtain ⟨hst, -, hn, hm, -⟩ := hr
  exact hg.process_filters hn (hm.trans (hg.prepared hst).2.1) hc

/-- The first outputs are those of the block cut short behind them (R120). -/
theorem exec_proc_filters_take (hg : s.Good) (hr : s.readyFor nch m) (h : exec (.proc nch m) s = .next t)
    (hc : c < nch) {k : Nat} (hk : k ≤ m) :
    listsAgree (t.channelSamples c k) (cascadeRun (s.channelSections c) (s.channelSamples c k)).1 := by
  have hout := List.forall₂_take k (exec_proc_filters hg hr h hc).1
  rwa [take_cascadeRun, take_channelSamples t c hk, take_channelSamples s c hk] at hout

/-! Two PROCs. -/

/-- Settles O36: the first outputs are the cascade's on the first samples, and the cascade respects agreement. -/
theorem outputsDependOnEarlierSamplesOnly : Obligations.OutputsDependOnEarlierSamplesOnly := by
  intro s s' t t' nch nch' m m' c k hg hg' hcfg hact hr hr' hc hc' hk hk' hx hd h h'
  have hrun := cascadeRun_agree (channelSections_agree hcfg hact hd) (channelSamples_agree_iff.2 hx)
  exact channelSamples_agree_iff.1 (forall₂_of_agree (R := wordsAgree) wordsAgree.symm wordsAgree.trans
    (exec_proc_filters_take hg hr h hc hk) hrun.1 (exec_proc_filters_take hg' hr' h' hc' hk'))

/-- Settles O35: the outputs are O36's at k = m; the delay elements left are the cascade's, which respects agreement. -/
theorem channelsAreIndependent : Obligations.ChannelsAreIndependent := by
  intro s s' t t' nch nch' m c hg hg' hcfg hact hr hr' hc hc' hx hd h h'
  refine ⟨outputsDependOnEarlierSamplesOnly s s' t t' nch nch' m m c m hg hg' hcfg hact hr hr' hc hc' le_rfl le_rfl
    hx hd h h', ?_⟩
  have hrun := cascadeRun_agree (channelSections_agree hcfg hact hd) (channelSamples_agree_iff.2 hx)
  have hleft := (exec_proc_filters hg' hr' h' hc').2
  rw [hcfg] at hleft
  exact forall₂_range_map_iff.1
    (forall₂_of_agree (R := delaysAgree) delaysAgree.symm delaysAgree.trans (exec_proc_filters hg hr h hc).2 hrun.2 hleft)

/-- PROCs of the same block from good states that read the same BUF, Z and ACT leave agreeing words and delay elements,
in the channels they name and in the others. -/
theorem exec_proc_agree (hg : s.Good) (hg' : s'.Good) (hcfg : s'.cfg = s.cfg) (hact : s'.act = s.act)
    (hr : s.readyFor nch m) (hr' : s'.readyFor nch m) (hword : ∀ c n, s'.bufWord c n = s.bufWord c n)
    (hdelay : ∀ sec c, s'.delay sec c = s.delay sec c)
    (h : exec (.proc nch m) s = .next t) (h' : exec (.proc nch m) s' = .next t') :
    (∀ c n, n < s.cfg.maxcap → wordsAgree (t.bufWord c n) (t'.bufWord c n)) ∧
    (∀ sec < s.cfg.nsec, ∀ c, delaysAgree (t.delay sec c) (t'.delay sec c)) := by
  have hnamed {c : Nat} (hc : c < nch) :=
    channelsAreIndependent s s' t t' nch nch m c hg hg' hcfg hact hr hr' hc hc
      (fun n _ => hword c n ▸ wordsAgree.refl _) (fun sec _ => hdelay sec c ▸ delaysAgree.refl _) h h'
  cases h.symm.trans (execProc_of_readyFor hg hr)
  cases h'.symm.trans (execProc_of_readyFor hg' hr')
  obtain ⟨hst, -, hn, hm, -⟩ := hr
  have hm := hm.trans (hg.prepared hst).2.1
  obtain ⟨hz, hb⟩ := hg.process_frame hn hm
  obtain ⟨hz', hb'⟩ := hg'.process_frame (hcfg ▸ hn) (hcfg ▸ hm)
  constructor
  · intro c n hcap
    by_cases hcn : c < nch ∧ n < m
    · exact (hnamed hcn.1).1 n hcn.2
    · exact .inl ((hb c n hcap hcn).trans ((hword c n).symm.trans (hb' c n (hcfg ▸ hcap) hcn).symm))
  · intro sec hsec c
    by_cases hc : c < nch
    · exact (hnamed hc).2 sec hsec
    · have heq : (s.process nch m).delay sec c = (s'.process nch m).delay sec c := by
        rw [hz sec c (Nat.not_lt.1 hc), hz' sec c (Nat.not_lt.1 hc), hdelay]
      exact heq ▸ delaysAgree.refl _

/-- LDC writes the staging bank and its valid bits, or ERR, and the answer: nothing that a PROC reads (R90). -/
theorem exec_ldc_frame {sec k : Nat} {v : F32} (h : exec (.ldc sec k v) s = .next s') :
    s' = { s with shd := s'.shd, shdv := s'.shdv, err := s'.err, out := s'.out, busy := s'.busy } := by
  obtain ⟨-, ix, -, rfl⟩ | ⟨-, -, rfl⟩ | ⟨-, rfl⟩ := execLdc_next h <;> rfl

/-- Settles O29: the LDC leaves what the checks, the block and the frame of a PROC are read from. -/
theorem stagedCoefficientsAreInert : Obligations.StagedCoefficientsAreInert := by
  intro s s' t t' sec k v nch m hg hl h h'
  have hframe := exec_ldc_frame hl
  have hcfg : s'.cfg = s.cfg := exec_cfg hl
  have hword (c n : Nat) : s'.bufWord c n = s.bufWord c n :=
    State.bufWord_congr hcfg (exec_other_bufByte hl nofun nofun) c n
  have hdelay (sec' c : Nat) : s'.delay sec' c = s.delay sec' c := by rw [hframe]; rfl
  have hready : s'.readyFor nch m ↔ s.readyFor nch m := by rw [hframe]
  have hfirst : firstFailure s' (.proc nch m) = firstFailure s (.proc nch m) := by rw [hframe]; rfl
  have hcode : t'.lastCode = t.lastCode := by
    rw [State.lastCode, State.lastCode, exec_out h, exec_out h', Option.map_some, Option.map_some, hfirst]
  obtain ⟨hr, -⟩ | ⟨hr, code, -, rfl⟩ := exec_proc_runs_or_fails h
  · obtain ⟨hw, hd⟩ := exec_proc_agree hg (hg.of_exec hl) hcfg (by rw [hframe]) hr (hready.2 hr) hword hdelay h h'
    exact ⟨fun c _ n hn => hw c n hn, fun sec' hsec c _ => hd sec' hsec c, hcode⟩
  · obtain ⟨hr', -⟩ | ⟨-, code', -, rfl⟩ := exec_proc_runs_or_fails h'
    · exact absurd (hready.1 hr') hr
    · exact ⟨fun c _ n _ => .inl (hword c n).symm, fun sec' _ c _ => (hdelay sec' c).symm ▸ delaysAgree.refl _, hcode⟩

/-! Two blocks after one another (R108). -/

theorem channelSamples_add (s : State) (c m1 m2 : Nat) :
    s.channelSamples c (m1 + m2) =
      s.channelSamples c m1 ++ (List.range m2).map fun n => s.bufWord c (m1 + n) := by
  simp only [State.channelSamples, List.range_add, List.map_append, List.map_map]
  rfl

/-- Sections that agree with the delay elements a first block leaves are those the second block starts from. -/
theorem sectionsAgree_withDelays {f : Nat → Five F32} {g h : Nat → Delay} {l : List Nat} {ds : List Delay}
    (hd : List.Forall₂ delaysAgree (l.map h) ds) :
    sectionsAgree (withDelays (l.map fun sec => (f sec, g sec)) ds) (l.map fun sec => (f sec, h sec)) := by
  induction l generalizing ds with
  | nil => exact .nil
  | cons sec l ih =>
    obtain _ | ⟨hsec, hds⟩ := hd
    exact .cons ⟨rfl, hsec.symm⟩ (ih hds)

@[simp] theorem length_channelSamples (s : State) (c m : Nat) : (s.channelSamples c m).length = m := by
  simp [State.channelSamples]

/-- The channel's sections with the delay elements that the cascade leaves of its first `m` samples. -/
def State.sectionsAfter (s : State) (c m : Nat) : List (Five F32 × Delay) :=
  withDelays (s.channelSections c) (cascadeRun (s.channelSections c) (s.channelSamples c m)).2

/-- A block of `m1 + m2` samples leaves what the cascade does with its first part and then, from the delay elements
that leaves, with the rest (R108). -/
theorem exec_proc_filters_rest {m1 m2 : Nat} (hg : s.Good) (hr : s.readyFor nch (m1 + m2))
    (h : exec (.proc nch (m1 + m2)) s = .next t) (hc : c < nch) {ys : List F32}
    (hys : ys = (List.range m2).map fun n => s.bufWord c (m1 + n)) :
    listsAgree ((List.range m2).map fun n => t.bufWord c (m1 + n)) (cascadeRun (s.sectionsAfter c m1) ys).1 ∧
    List.Forall₂ delaysAgree ((List.range s.cfg.nsec).map fun sec => t.delay sec c)
      (cascadeRun (s.sectionsAfter c m1) ys).2 := by
  obtain ⟨hout, hleft⟩ := exec_proc_filters hg hr h hc
  rw [channelSamples_add s, ← hys, cascadeRun_append] at hout hleft
  have hrest := List.forall₂_drop_append _ _ _ hout
  rw [length_cascadeRun, length_channelSamples, channelSamples_add t, List.drop_left' (length_channelSamples t c m1)]
    at hrest
  exact ⟨hrest, hleft⟩

/-- Settles O37: the host's second PROC starts from sections that agree with those the first part of the whole block
leaves, and filters the rest of its samples. -/
theorem blockBoundariesAreInvisible : Obligations.BlockBoundariesAreInvisible := by
  intro s t t1 u t2 nch m1 m2 hg hr h h1 hgu hcfg hst hmax hav hact hz hmoved h2 c hc
  have ⟨hst0, hn1, hn, hm, hav0⟩ := hr
  have hr1 : s.readyFor nch m1 := ⟨hst0, hn1, hn, (Nat.le_add_right m1 m2).trans hm, hav0⟩
  have hleft1 := (exec_proc_filters hg hr1 h1 hc).2
  have hfirst := outputsDependOnEarlierSamplesOnly s s t t1 nch nch (m1 + m2) m1 c m1 hg hg rfl rfl hr hr1 hc hc
    (Nat.le_add_right m1 m2) le_rfl (fun _ _ => .refl _) (fun _ _ => .refl _) h h1
  cases h1.symm.trans (execProc_of_readyFor hg hr1)
  have hcfg : u.cfg = s.cfg := hcfg.trans (s.process_cfg nch m1)
  have hact : u.act = s.act := hact.trans (s.process_act nch m1)
  have hmax : u.maxblk = s.maxblk := hmax.trans (s.process_maxblk nch m1)
  have hru : u.readyFor nch m2 :=
    ⟨hst, hn1, hcfg ▸ hn, hmax ▸ (Nat.le_add_left m2 m1).trans hm, hav.trans ((s.process_av nch m1).trans hav0)⟩
  have hys : u.channelSamples c m2 = (List.range m2).map fun n => s.bufWord c (m1 + n) :=
    List.map_congr_left fun n hn' => hmoved c hc n (List.mem_range.1 hn')
  have hsections : u.channelSections c =
      (List.range s.cfg.nsec).map fun sec => (s.activeCoefs sec, (s.process nch m1).delay sec c) := by
    simp only [State.channelSections, State.activeCoefs, State.delay, hcfg, hact, hz, State.respond_z]
  obtain ⟨hrest, hleft⟩ := exec_proc_filters_rest hg hr h hc hys
  obtain ⟨hrest2, hleft2⟩ := exec_proc_filters hgu hru h2 hc
  have hstart : sectionsAgree (s.sectionsAfter c m1) (u.channelSections c) :=
    hsections ▸ sectionsAgree_withDelays hleft1
  obtain ⟨hrun, hruns⟩ := cascadeRun_agree hstart (channelSamples_agree_iff (s := u).2 fun _ _ => .refl _)
  rw [hcfg] at hleft2
  exact ⟨hfirst,
    forall₂_range_map_iff.1 (forall₂_of_agree (R := wordsAgree) wordsAgree.symm wordsAgree.trans hrest hrun hrest2),
    forall₂_range_map_iff.1 (forall₂_of_agree (R := delaysAgree) delaysAgree.symm delaysAgree.trans hleft hruns hleft2)⟩

end Sys2Proof.Machine
end

section
/-! Values that stay in the filter state: non-finite ones (R116, R179), and silence (R121). -/

namespace Sys2Proof.Machine

variable {s t : State} {nch m c sec : Nat} {i : Instr}

/-! Non-finite values in a PROC. -/

section
variable {B : F32 → Prop} (hB : Sticky B)
include hB

/-- A section's part in a PROC: it runs on a block of `m` samples, what is of the kind in the channel's samples is so in
that block, and what is so in its outputs is so in BUF. -/
theorem Sticky.exec_proc_section (hg : s.Good) (hr : s.readyFor nch m) (h : exec (.proc nch m) s = .next t)
    (hc : c < nch) (hsec : sec < s.cfg.nsec) :
    ∃ ys, ys.length = m ∧ (∀ n, B (s.bufWord c n) → heldAt B n ys) ∧
      (∀ n < m, heldAt B n (sectionRun (s.activeCoefs sec) (s.delay sec c) ys).1 → B (t.bufWord c n)) ∧
      (B (sectionRun (s.activeCoefs sec) (s.delay sec c) ys).2.z1 → B (t.delay sec c).z1) ∧
      (B (sectionRun (s.activeCoefs sec) (s.delay sec c) ys).2.z2 → B (t.delay sec c).z2) := by
  obtain ⟨hout, hleft⟩ := exec_proc_filters hg hr h hc
  have hp : (s.channelSections c)[sec]? = some (s.activeCoefs sec, s.delay sec c) := by
    simp [State.channelSections, hsec]
  obtain ⟨ys, hlen, hlast, hin, hy⟩ := hB.cascade_section hp (s.channelSamples c m)
  obtain ⟨d, hd, hz1, hz2⟩ := getElem?_of_forall₂_range_map hleft hsec
  cases hd.symm.trans hlast
  refine ⟨ys, hlen.trans (length_channelSamples s c m), fun n hn => hin n ?_, fun n hn hheld => ?_,
    hB.agree hz1, hB.agree hz2⟩
  · intro x hx
    obtain ⟨j, hj, rfl⟩ : ∃ j, (List.range m)[n]? = some j ∧ s.bufWord c j = x := by
      simpa [State.channelSamples] using hx
    obtain ⟨-, rfl⟩ : n < m ∧ n = j := by simpa [List.getElem?_eq_some_iff] using hj
    exact hn
  · obtain ⟨y, hy', hagree⟩ := getElem?_of_forall₂_range_map hout hn
    exact hB.agree hagree (hy n hheld y hy')

theorem Sticky.exec_proc_of_z1 (hg : s.Good) (hr : s.readyFor nch m) (h : exec (.proc nch m) s = .next t)
    (hc : c < nch) (hsec : sec < s.cfg.nsec) (hz : B (s.delay sec c).z1) :
    (∀ n < m, B (t.bufWord c n)) ∧ (1 ≤ m → B (t.delay sec c).z1 ∧ B (t.delay sec c).z2) := by
  obtain ⟨ys, rfl, -, hout, hz1, hz2⟩ := hB.exec_proc_section hg hr h hc hsec
  refine ⟨fun n hn => hout n hn ?_, fun hlen => ?_⟩
  · exact heldAt_of_forall_mem_drop (m := 0) (hB.run_of_z1 hz ys) (Nat.zero_le n)
  · exact (hB.run_delays_of_z1 hz hlen).imp hz1 hz2

theorem Sticky.exec_proc_of_z2 (hg : s.Good) (hr : s.readyFor nch m) (h : exec (.proc nch m) s = .next t)
    (hc : c < nch) (hsec : sec < s.cfg.nsec) (hz : B (s.delay sec c).z2) :
    (∀ n < m, 1 ≤ n → B (t.bufWord c n)) ∧ (1 ≤ m → B (t.delay sec c).z1) ∧ (2 ≤ m → B (t.delay sec c).z2) := by
  obtain ⟨ys, rfl, -, hout, hz1, hz2⟩ := hB.exec_proc_section hg hr h hc hsec
  exact ⟨fun n hn h1 => hout n hn (heldAt_of_forall_mem_drop (hB.run_of_z2 hz ys) h1),
    fun hlen => hz1 (hB.run_z1_of_z2 hz hlen), fun hlen => hz2 (hB.run_z2_of_z2 hz hlen)⟩

theorem Sticky.exec_proc_of_sample (hg : s.Good) (hr : s.readyFor nch m) (h : exec (.proc nch m) s = .next t)
    (hc : c < nch) (hsec : sec < s.cfg.nsec) {k : Nat} (hk : k < m) (hx : B (s.bufWord c k)) :
    (∀ n < m, k ≤ n → B (t.bufWord c n)) ∧ B (t.delay sec c).z1 ∧ B (t.delay sec c).z2 := by
  obtain ⟨ys, rfl, hin, hout, hz1, hz2⟩ := hB.exec_proc_section hg hr h hc hsec
  have hy := List.getElem?_eq_getElem hk
  obtain ⟨hys, h1, h2⟩ := hB.run_of_sample (k := s.activeCoefs sec) (d := s.delay sec c) hy (hin k hx _ hy)
  exact ⟨fun n hn hkn => hout n hn (heldAt_of_forall_mem_drop hys hkn), hz1 h1, hz2 h2⟩

end

/-- Settles O38: being a NaN and being non-finite both stay through the arithmetic, and the three places are a section's
two delay elements and a sample that reaches every section. -/
theorem nonFiniteStatePersists : Obligations.NonFiniteStatePersists := by
  intro s t nch m c sec hg hr hc hsec h
  exact ⟨sticky_isNaN.exec_proc_of_z1 hg hr h hc hsec, sticky_not_isFinite.exec_proc_of_z1 hg hr h hc hsec,
    sticky_isNaN.exec_proc_of_z2 hg hr h hc hsec, sticky_not_isFinite.exec_proc_of_z2 hg hr h hc hsec,
    fun _ => sticky_isNaN.exec_proc_of_sample hg hr h hc hsec,
    fun _ => sticky_not_isFinite.exec_proc_of_sample hg hr h hc hsec⟩

/-! Non-finite values in a step. -/

/-- The commands that write delay elements other than by filtering (R80, R82, R84). -/
def resetsDelays (i : Instr) : Prop := (∃ b fs, i = .prep b fs) ∨ i = .rst ∨ i = .rel

section
variable {B : F32 → Prop} (hB : Sticky B)
include hB

/-- A PROC keeps a first delay element of the kind, in a channel it names and in the others. -/
theorem Sticky.exec_proc_z1 (hg : s.Good) (h : exec (.proc nch m) s = .next t) (hsec : sec < s.cfg.nsec)
    (hz : B (s.delay sec c).z1) : B (t.delay sec c).z1 := by
  obtain ⟨hr, hm, rfl⟩ | ⟨-, code, -, rfl⟩ := exec_proc_runs_or_fails h
  case inr => exact hz
  by_cases hc : c < nch
  · obtain rfl | hpos := Nat.eq_zero_or_pos m
    · rw [s.process_zero nch hr.1]
      exact hz
    · exact ((hB.exec_proc_of_z1 hg hr h hc hsec hz).2 hpos).1
  · have hsame := (hg.process_frame hr.2.2.1 hm).1 sec c (Nat.not_lt.1 hc)
    exact hsame.symm ▸ hz

theorem Sticky.exec_z1 (hg : s.Good) (h : exec i s = .next t) (hi : ¬ resetsDelays i) (hsec : sec < s.cfg.nsec)
    (hz : B (s.delay sec c).z1) : B (t.delay sec c).z1 := by
  cases i with
  | prep b fs => exact absurd (.inl ⟨b, fs, rfl⟩) hi
  | rel => exact absurd (.inr (.inr rfl)) hi
  | rst => exact absurd (.inr (.inl rfl)) hi
  | ldc => rw [exec_ldc_frame h]; exact hz
  | cmt => obtain ⟨-, -, rfl⟩ | ⟨-, -, rfl⟩ | ⟨-, rfl⟩ := execCmt_next h <;> exact hz
  | proc => exact hB.exec_proc_z1 hg h hsec hz
  | wrb => obtain ⟨-, rfl⟩ | ⟨-, rfl⟩ := execWrb_next h <;> exact hz
  | rdb => obtain ⟨-, rfl⟩ | ⟨-, rfl⟩ := execRdb_next h <;> exact hz
  | rds => obtain ⟨v, -, rfl⟩ | ⟨-, rfl⟩ := execRds_next h <;> exact hz

/-- A step keeps a first delay element of the kind, or takes a hardware reset or one of those commands. -/
theorem Sticky.step_z1 (hg : s.Good) (h : Machine.step s = .next t) (hsec : sec < s.cfg.nsec)
    (hz : B (s.delay sec c).z1) :
    B (t.delay sec c).z1 ∨ ∃ e rest, s.port = e :: rest ∧
      (e = .hardReset ∨ (∃ w, e = .cutShort w) ∨ ∃ w i, e = .command w ∧ decode w = .ok i ∧ resetsDelays i) := by
  obtain ⟨-, rfl⟩ | ⟨e, rest, hp, hx⟩ := step_next h
  · exact .inl hz
  obtain ⟨i, hi, hfrom⟩ | rfl | ⟨-, he⟩ := runEvent_cases hx
  · by_cases hres : resetsDelays i
    · obtain ⟨w, rfl, hd⟩ | ⟨_, _, _, rfl⟩ | ⟨_, _, rfl⟩ := hfrom
      · exact .inr ⟨_, rest, hp, .inr (.inr ⟨w, i, rfl, hd, hres⟩)⟩
      · simp [resetsDelays] at hres
      · simp [resetsDelays] at hres
    · exact .inl (hB.exec_z1 (hg.withPort rest) hi hres hsec hz)
  · exact .inl hz
  · exact .inr ⟨e, rest, hp, he.imp_right .inl⟩

end

/-- Settles O52: being a NaN and being non-finite both stay in a first delay element through every other step. -/
theorem nonFiniteStateLeavesOnlyByReset : Obligations.NonFiniteStateLeavesOnlyByReset := by
  rintro s t sec c hg h hsec - (⟨hz, hz'⟩ | ⟨hz, hz'⟩)
  · exact (sticky_isNaN.step_z1 hg h hsec hz).resolve_left (by simp [hz'])
  · exact (sticky_not_isFinite.step_z1 hg h hsec hz).resolve_left (by simp [hz'])

/-! Silence. -/

/-- A property that the active coefficients keep stays in the samples and the delay elements of the channels a PROC
names. -/
theorem exec_proc_kept {Q : F32 → Prop} (hagree : ∀ {a b}, wordsAgree a b → Q b → Q a) (hg : s.Good)
    (hr : s.readyFor nch m) (h : exec (.proc nch m) s = .next t)
    (hk : ∀ sec < s.cfg.nsec, keptBy Q (s.activeCoefs sec)) (hx : ∀ c < nch, ∀ n < m, Q (s.bufWord c n))
    (hd : ∀ sec < s.cfg.nsec, ∀ c < nch, Q (s.delay sec c).z1 ∧ Q (s.delay sec c).z2) :
    (∀ c < nch, ∀ n < m, Q (t.bufWord c n)) ∧
    (∀ sec < s.cfg.nsec, ∀ c < nch, Q (t.delay sec c).z1 ∧ Q (t.delay sec c).z2) := by
  have hrun {c : Nat} (hc : c < nch) := cascadeRun_kept (Q := Q) (S := s.channelSections c) (xs := s.channelSamples c m)
    (List.forall_mem_map.2 fun sec hsec => ⟨hk sec (List.mem_range.1 hsec), hd sec (List.mem_range.1 hsec) c hc⟩)
    (List.forall_mem_map.2 fun n hn => hx c hc n (List.mem_range.1 hn))
  constructor
  · intro c hc n hn
    obtain ⟨y, hy, ha⟩ := getElem?_of_forall₂_range_map (exec_proc_filters hg hr h hc).1 hn
    exact hagree ha ((hrun hc).1 y (List.mem_of_getElem? hy))
  · intro sec hsec c hc
    obtain ⟨d, hd', ha⟩ := getElem?_of_forall₂_range_map (exec_proc_filters hg hr h hc).2 hsec
    exact ((hrun hc).2 d (List.mem_of_getElem? hd')).imp (hagree ha.1) (hagree ha.2)

/-- Settles O39: finite coefficients keep the zeros, and those without a sign bit keep +0; no zero is a NaN, so
agreement is equality. -/
theorem silenceGivesSilence : Obligations.SilenceGivesSilence := by
  intro s t nch m hg hr hfin h
  constructor
  · have hagree {a b : F32} (hab : wordsAgree a b) (hb : isZero b = true) : isZero a = true :=
      hab.symm.eq (isNaN_of_isFinite (isFinite_of_isZero hb)) ▸ hb
    exact exec_proc_kept (Q := fun a => isZero a = true) hagree hg hr h fun sec hsec => keptBy_isZero (hfin sec hsec)
  · intro hsign hx hd
    have hagree {a b : F32} (hab : wordsAgree a b) (hb : b = 0#32) : a = 0#32 := by
      subst hb
      exact (hab.symm.eq (by decide)).symm
    obtain ⟨hout, hleft⟩ := exec_proc_kept (Q := fun a => a = 0#32) hagree hg hr h
      (fun sec hsec => keptBy_eq_zero (hfin sec hsec) (hsign sec hsec)) hx
      (fun sec hsec c hc => by rw [hd sec hsec c hc]; exact ⟨rfl, rfl⟩)
    exact ⟨hout, fun sec hsec c hc => congrArg₂ Delay.mk (hleft sec hsec c hc).1 (hleft sec hsec c hc).2⟩

end Sys2Proof.Machine
end
